-- ==== Sys2Proof/Word.lean ====
section
/-! DEFINITION. Word.lean: the widths of the block's values (00_scope.md R13) and pad levels and directions (10_state.md R32). -/

namespace Sys2Proof

/-- A byte lane of the register port (20_memory.md R102). -/
abbrev Byte := BitVec 8

/-- A register word, a command word or a micro-operation word (00_scope.md R13). -/
abbrev Word := BitVec 32

/-- A pin index, the source's PinId: 8-bit unsigned (00_scope.md R13). -/
abbrev Pin := BitVec 8

/-- A level a pad drives or shows: High is the bit 1 and Low the bit 0 (00_scope.md R12). -/
inductive Level where
  | low
  | high
  deriving DecidableEq, Repr, Inhabited

/-- A pad's direction (10_state.md R32). -/
inductive Dir where
  | input
  | output
  deriving DecidableEq, Repr, Inhabited

/-- The level that a bit stands for (00_scope.md R12). -/
def Level.ofBool (b : Bool) : Level := bif b then .high else .low

/-- The bit that a level stands for (00_scope.md R12). -/
def Level.toBool : Level → Bool
  | .low => false
  | .high => true

end Sys2Proof
end

