-- ==== Sys2Proof/Config.lean ====
section
/-! DEFINITION. Config.lean: the implementation parameters of 00_scope.md R9, the wire constants of R10, and the free values
of the rules that leave a value open. An `opaque` constant has no body: nothing can be proved of its value. -/

namespace Sys2Proof

/-- PIN_COUNT after reset, the spec's default (00_scope.md R9). DESIGN CHOICE (log 2): a machine of another PIN_COUNT is a state
with another number of pads; no rule of the model reads this constant but `State.reset`. -/
def Config.defaultPinCount : Nat := 64

/-- T_HALF_US (R9; 40_link_driver.md R171). -/
def Config.tHalfUs : Nat := 250

/-- RESET_PULSES (R9; 40_link_driver.md R188). -/
def Config.resetPulses : Nat := 64

/-- SR_WIDTH, the largest bit count of WBITS and RBITS (R9; 30_encoding.md R143). -/
def Config.srWidth : Nat := 64

/-- ACK_OK (R9; 41_protocol_sequencer.md R216). -/
def Config.ackOk : BitVec 3 := 1

/-- MFR_EXPECTED (R9; 41_protocol_sequencer.md R216). -/
def Config.mfrExpected : BitVec 11 := 0x23B

/-- F_SYS_HZ: OPEN (R9, decision D30). -/
opaque Config.fSysHz : Nat

/-- T_HALF_CYCLES = ceil(T_HALF_US × F_SYS_HZ / 10^6) (R9; 70_reset_and_hazards.md R355). -/
def Config.tHalfCycles : Nat := (Config.tHalfUs * Config.fSysHz + 999999) / 1000000

/-- REG_BASE: OPEN, the base byte address of the register window in the host's address space (R9, decision D2; 20_memory.md R100,
R106). -/
opaque Config.regBase : Nat

/-- PULLUP: OPEN, whether an undriven Input pad reads High (R9, decision D31; 20_memory.md R93). -/
opaque Config.pullup : Bool

/-- Free value: a level the spec does not fix (20_memory.md R93; 60_exceptions.md R306), numbered by `State.draws` (log 6). -/
opaque Config.freeLevel : Nat → Level

/-- Free value: a direction the spec does not fix (60_exceptions.md R306, R308), numbered by `State.draws` (log 6). -/
opaque Config.freeDir : Nat → Dir

/-- Free value: the cycles left in a half-period whose Sleep failed (60_exceptions.md R306), numbered by `State.draws` (log 6). -/
opaque Config.freeCount : Nat → Nat

/-- What an undriven Input pad shows: High if PULLUP, else a draw (20_memory.md R93). -/
def Config.undriven (draw : Nat) : Level := bif Config.pullup then .high else Config.freeLevel draw

end Sys2Proof
end

