-- ==== Sys2Proof/Syntax.lean ====
section
/-! DEFINITION. Syntax.lean: the sixteen instructions of spec/opcode_table.json: five host commands (30_encoding.md R131) and
eleven micro-operations of the attempt program (R142). -/

namespace Sys2Proof

/-- VERBOSITY: 0 quiet, 1 normal, 2 verbose; the value 3 is no verbosity (10_state.md R36, R38). -/
inductive Verbosity where
  | quiet
  | normal
  | verbose
  deriving DecidableEq, Repr, Inhabited

/-- One constructor per row of the opcode table; register numbers and flags are already taken out of the words. -/
inductive Instr where
  /-- CONFIGURE: BOH, VERB, DORM, IDLE (30_encoding.md R133; 42_scanner_commands.md R255). -/
  | configure (boh : Bool) (verb : Verbosity) (dorm : Bool) (idle : Bool)
  /-- SCAN (42_scanner_commands.md R259). -/
  | scan
  /-- TEST_PAIR clk, data (42_scanner_commands.md R265). -/
  | testPair (clk : Pin) (data : Pin)
  /-- POP (42_scanner_commands.md R267). -/
  | pop
  /-- CANCEL (42_scanner_commands.md R268). -/
  | cancel
  /-- PULSE (40_link_driver.md R171). -/
  | pulse
  /-- DRIVE b (40_link_driver.md R173). -/
  | drive (b : Level)
  /-- RELEASE (40_link_driver.md R175). -/
  | release
  /-- WBIT b (40_link_driver.md R177). -/
  | wbit (b : Level)
  /-- WBITS n, V (40_link_driver.md R179). -/
  | wbits (n : BitVec 7) (v : BitVec 64)
  /-- RBITS n (40_link_driver.md R182). -/
  | rbits (n : BitVec 7)
  /-- TURN (40_link_driver.md R185). -/
  | turn
  /-- LRESET (40_link_driver.md R188). -/
  | lreset
  /-- ENTER (41_protocol_sequencer.md R212). -/
  | enter
  /-- EXIT (41_protocol_sequencer.md R214). -/
  | exit
  /-- DECODE (41_protocol_sequencer.md R216). -/
  | decode
  deriving DecidableEq, Repr, Inhabited

/-- Whether an instruction is a host command; the others are micro-operations, which the host cannot issue (00_scope.md R2). -/
def Instr.isHost : Instr → Bool
  | .configure _ _ _ _ => true
  | .scan => true
  | .testPair _ _ => true
  | .pop => true
  | .cancel => true
  | .pulse => false
  | .drive _ => false
  | .release => false
  | .wbit _ => false
  | .wbits _ _ => false
  | .rbits _ => false
  | .turn => false
  | .lreset => false
  | .enter => false
  | .exit => false
  | .decode => false

end Sys2Proof
end

