-- ==== Sys2Proof/WellFormed.lean ====
section
/-! DEFINITION. WellFormed.lean: the field legality of 30_encoding.md R143. VERB = 3 is no `Verbosity`, and every pin value is
legal in the encoding (R134), so the bit counts are the only fields with an illegal value. -/

namespace Sys2Proof

/-- N ≤ SR_WIDTH (30_encoding.md R143). -/
def bitCountOk (n : BitVec 7) : Bool := decide (n.toNat ≤ Config.srWidth)

/-- The field legality of an instruction (30_encoding.md R143). -/
def Instr.wellFormed : Instr → Bool
  | .configure _ _ _ _ => true
  | .scan => true
  | .testPair _ _ => true
  | .pop => true
  | .cancel => true
  | .pulse => true
  | .drive _ => true
  | .release => true
  | .wbit _ => true
  | .wbits n _ => bitCountOk n
  | .rbits n => bitCountOk n
  | .turn => true
  | .lreset => true
  | .enter => true
  | .exit => true
  | .decode => true

end Sys2Proof
end

