-- ==== Sys2Proof/Decode.lean ====
section
/-! DEFINITION. Decode.lean: the decoders of the two encodings of 30_encoding.md, the host command word (R130 to R136) and the
micro-operation words (R140 to R144), and then the encoder. Both decoders are total and refuse by name. -/

namespace Sys2Proof

/-- Why a command word is no command, in the order of the checks (60_exceptions.md R303, checks 1 and 2). -/
inductive CmdError where
  /-- OP is reserved (30_encoding.md R136). -/
  | illegalCmd
  /-- A bit that must be 0 is 1, or VERB = 3 (30_encoding.md R132, R133, R135). -/
  | badField
  deriving DecidableEq, Repr

/-- Why words are no micro-operation (30_encoding.md R144). -/
inductive UopError where
  /-- UOP is 0x0 or 0xC to 0xF (R142). -/
  | reservedUop
  /-- A field outside R143. -/
  | badField
  /-- The words end before the micro-operation does (R140). -/
  | truncated
  deriving DecidableEq, Repr

/-- VERB of CONFIGURE (30_encoding.md R133): 3 is no verbosity. -/
def Verbosity.ofBits? (b : BitVec 2) : Option Verbosity :=
  if b = 0 then some .quiet else if b = 1 then some .normal else if b = 2 then some .verbose else none

/-- The value a verbosity is held as (10_state.md R36). -/
def Verbosity.bits : Verbosity → BitVec 2
  | .quiet => 0
  | .normal => 1
  | .verbose => 2

/-- `must` are the bits of `w` that the command's rule requires to be 0 (30_encoding.md R132; 60_exceptions.md R303, check 2). -/
def zeroBits (must w : Word) : Bool := decide (w &&& must = 0)

/-- The host command word (30_encoding.md R130 to R136); the masks are the bits each command's rule requires to be 0. -/
def decodeHost (w : Word) : Except CmdError Instr :=
  match (w.extractLsb' 0 4).toNat with
  | 1 =>
    if zeroBits 0xFFFFE0F0 w then
      match Verbosity.ofBits? (w.extractLsb' 9 2) with
      | some verb => .ok (.configure (w.getLsbD 8) verb (w.getLsbD 11) (w.getLsbD 12))
      | none => .error .badField
    else .error .badField
  | 2 => if zeroBits 0xFFFFFFF0 w then .ok .scan else .error .badField
  | 3 => if zeroBits 0xFF0000F0 w then .ok (.testPair (w.extractLsb' 8 8) (w.extractLsb' 16 8)) else .error .badField
  | 4 => if zeroBits 0xFFFFFFF0 w then .ok .pop else .error .badField
  | 5 => if zeroBits 0xFFFFFFF0 w then .ok .cancel else .error .badField
  | _ => .error .illegalCmd

/-- A micro-operation of one word without operands (30_encoding.md R143): every bit above UOP is 0. -/
def plainUop (i : Instr) (w : Word) (rest : List Word) : Except UopError (Instr × List Word) :=
  if zeroBits 0xFFFFFFF0 w then .ok (i, rest) else .error .badField

/-- A micro-operation whose one operand is BV (30_encoding.md R141, R143). -/
def levelUop (f : Level → Instr) (w : Word) (rest : List Word) : Except UopError (Instr × List Word) :=
  if zeroBits 0xFFFFFFE0 w then .ok (f (Level.ofBool (w.getLsbD 4)), rest) else .error .badField

/-- N, if the word has it as its only operand field and N ≤ 64 (30_encoding.md R141, R143). -/
def countField (w : Word) : Option (BitVec 7) :=
  let n := w.extractLsb' 8 7
  if zeroBits 0xFFFF80F0 w && bitCountOk n then some n else none

/-- The first micro-operation of a list of words, and the words after it (30_encoding.md R140 to R144, R146). -/
def decodeUop : List Word → Except UopError (Instr × List Word)
  | [] => .error .truncated
  | w :: rest =>
    match (w.extractLsb' 0 4).toNat with
    | 1 => plainUop .pulse w rest
    | 2 => levelUop .drive w rest
    | 3 => plainUop .release w rest
    | 4 => levelUop .wbit w rest
    | 5 =>
      match countField w with
      | none => .error .badField
      | some n =>
        match rest with
        | l0 :: l1 :: after => .ok (.wbits n (l1 ++ l0), after)
        | _ => .error .truncated
    | 6 =>
      match countField w with
      | none => .error .badField
      | some n => .ok (.rbits n, rest)
    | 7 => plainUop .turn w rest
    | 8 => plainUop .lreset w rest
    | 9 => plainUop .enter w rest
    | 10 => plainUop .exit w rest
    | 11 => plainUop .decode w rest
    | _ => .error .reservedUop

/-- The micro-operations a list of words holds (41_protocol_sequencer.md R230), reading at most `fuel` of them. -/
def decodeProgram : Nat → List Word → Except UopError (List Instr)
  | _, [] => .ok []
  | 0, _ :: _ => .error .truncated
  | fuel + 1, w :: ws =>
    match decodeUop (w :: ws) with
    | .error e => .error e
    | .ok (i, rest) =>
      match decodeProgram fuel rest with
      | .error e => .error e
      | .ok is => .ok (i :: is)

/-- The value of a bit (00_scope.md R12). -/
def bit (b : Bool) : Word := bif b then 1 else 0

/-- The word or words of an instruction (30_encoding.md R130 to R135, R140 to R142). -/
def encode : Instr → List Word
  | .configure boh verb dorm idle =>
    [0x1#32 ||| bit boh <<< 8 ||| verb.bits.setWidth 32 <<< 9 ||| bit dorm <<< 11 ||| bit idle <<< 12]
  | .scan => [0x2]
  | .testPair clk data => [0x3#32 ||| clk.setWidth 32 <<< 8 ||| data.setWidth 32 <<< 16]
  | .pop => [0x4]
  | .cancel => [0x5]
  | .pulse => [0x1]
  | .drive b => [0x2#32 ||| bit b.toBool <<< 4]
  | .release => [0x3]
  | .wbit b => [0x4#32 ||| bit b.toBool <<< 4]
  | .wbits n v => [0x5#32 ||| n.setWidth 32 <<< 8, v.extractLsb' 0 32, v.extractLsb' 32 32]
  | .rbits n => [0x6#32 ||| n.setWidth 32 <<< 8]
  | .turn => [0x7]
  | .lreset => [0x8]
  | .enter => [0x9]
  | .exit => [0xA]
  | .decode => [0xB]

/-- The 32-bit words of a number, the first word in its low bits; three words, the longest micro-operation (30_encoding.md R140). -/
def tableWords (w : Nat) : List Word :=
  [BitVec.ofNat 32 w, BitVec.ofNat 32 (w / 2 ^ 32), BitVec.ofNat 32 (w / 2 ^ 64)]

/-- The host command an opcode-table number stands for. -/
def tableHost (w : Nat) : Option Instr :=
  if w < 2 ^ 32 then
    match decodeHost (BitVec.ofNat 32 w) with
    | .ok i => some i
    | .error _ => none
  else none

/-- The micro-operation an opcode-table number stands for: the bits above it are 0. -/
def tableUop (w : Nat) : Option Instr :=
  match decodeUop (tableWords w) with
  | .ok (i, rest) => if rest.all (· = 0) && decide (w < 2 ^ 96) then some i else none
  | .error _ => none

/-- The instruction an opcode-table number stands for. The table lists two encodings whose numbers overlap (30_encoding.md R130,
R140): a number that is an instruction of only one of them stands for that one; of a number that is one of both, a row that gives
all 32 bits of a word is a micro-operation, and a row that gives fewer is a host command, of which the table fixes OP alone (log 10,
DESIGN CHOICE). -/
def decodeTableWord (nbits w : Nat) : Option Instr :=
  if nbits < 32 then
    match tableHost w with
    | some i => some i
    | none => tableUop w
  else
    match tableUop w with
    | some i => some i
    | none => tableHost w

end Sys2Proof
end

