-- ==== Sys2Proof/Machine/State.lean ====
section
/-! DEFINITION. State.lean: the state of the block, in the groups of 10_state.md R30, with the samples of its input ports, its
observation streams, the state after reset, and the reasons a step can stop. -/

namespace Sys2Proof.Machine

/-- One pad: DIR[p] and OUT[p] (10_state.md R32). -/
structure Pad where
  dir : Dir
  out : Level
  deriving DecidableEq, Repr, Inhabited

/-- STAGE of CUR_PAIR; the value 7 is never held (10_state.md R58). -/
inductive Stage where
  | none
  | lineReset
  | jtagToSwdSwitch
  | dormantWake
  | idCodeRequest
  | decodeMatch
  | exit
  deriving DecidableEq, Repr, Inhabited

/-- END codes; 5 to 7 are never held (10_state.md R52). -/
inductive EndCode where
  | none
  | complete
  | hit
  | cancelled
  | fault
  deriving DecidableEq, Repr, Inhabited

/-- ERR codes; 9 to 15 are never held (10_state.md R53; 60_exceptions.md R302). -/
inductive ErrCode where
  | ok
  | illegalCmd
  | badField
  | busy
  | noResult
  | badMask
  | badPinSame
  | badPinRange
  | hliFault
  deriving DecidableEq, Repr, Inhabited

/-- CMDKIND: the running command (10_state.md R59). -/
inductive CmdKind where
  | none
  | scan
  | testPair
  deriving DecidableEq, Repr, Inhabited

/-- One row of PROG: the STAGE of its row and its encoded words (41_protocol_sequencer.md R230). -/
structure ProgRow where
  stage : Stage
  words : List Word
  deriving DecidableEq, Repr, Inhabited

/-- Where the pseudocode of the running command stands: the position the spec's listings leave implicit (42_scanner_commands.md
R261, R265; log 3, DEDUCED). -/
inductive ScanPos where
  /-- No command runs (70_reset_and_hazards.md R343). -/
  | idle
  /-- SCAN: the first pair of the list is to be taken (R261). -/
  | first
  /-- SCAN: the pair after (ITER_CLK, ITER_DATA) is to be taken (R261). -/
  | advance
  /-- An attempt on this pair is to be started (41_protocol_sequencer.md R231). -/
  | begin (clk : Pin) (data : Pin)
  /-- PROG[upc] is next, or the publish of R261 once upc has reached the length of PROG. -/
  | attempt
  /-- The result is published: "wait until RVALID == 0" (R261). -/
  | waitPop
  deriving DecidableEq, Repr, Inhabited

/-- A result: clk, data, raw and matched (41_protocol_sequencer.md R233). -/
structure ScanResult where
  clk : Pin
  data : Pin
  raw : BitVec 36
  matched : Bool
  deriving DecidableEq, Repr, Inhabited

/-- The kind of a trace record (10_state.md R60). -/
inductive TraceKind where
  | tx
  | rx
  deriving DecidableEq, Repr, Inhabited

/-- A trace record (10_state.md R60). -/
structure TraceRec where
  kind : TraceKind
  n : BitVec 7
  bits : BitVec 64
  deriving DecidableEq, Repr, Inhabited

/-- An event of the event history (10_state.md R62). -/
inductive Event where
  | setDir (p : Pin) (d : Dir)
  | wrLvl (p : Pin) (l : Level)
  | rdLvl (p : Pin) (l : Level)
  | sleep (us : Nat)
  | trace (rec : TraceRec)
  | publish (res : ScanResult)
  | ended (code : EndCode)
  deriving DecidableEq, Repr, Inhabited

/-- Where an attempt starts in the event history: its pair, its data pad then, and the number of events before it (20_memory.md R97;
log 17). -/
structure AttemptMark where
  clk : Pin
  data : Pin
  pad : Pad
  start : Nat
  deriving DecidableEq, Repr, Inhabited

/-- A host access; on the register port: a byte address within the window and the byte lanes of the access, the lowest
address first (20_memory.md R90, R100 to R102). Any width and any address can be asked for; R101 says which are served. -/
inductive Access where
  | read (offset : Nat) (width : Nat)
  | write (offset : Nat) (lanes : List Byte)
  deriving DecidableEq, Repr, Inhabited

/-- What the block's input ports show at one block step (20_memory.md R90): the reset input, the host accesses that land just
before the step, in issue order (R109), `pin_fault` for the step's pad primitive, and `pad_i`: for each pad, from pad 0 on, the level
that something drives on it, `none` if nothing does (R93). A pad that the list does not reach is undriven (log 1). -/
structure Ports where
  rst : Bool
  host : List Access
  pinFault : Bool
  padIn : List (Option Level)
  deriving DecidableEq, Repr, Inhabited

/-- Ports at rest: no reset, no access, no pad fault, every pad undriven. -/
def Ports.quiet : Ports := ⟨false, [], false, []⟩

/-- pad_i[p]: the level that something drives on pad p, if anything does (20_memory.md R90, R93). -/
def Ports.padI (ports : Ports) (p : Pin) : Option Level := (ports.padIn[p.toNat]?).join

/-- The configuration, the source's ScanConfig and the two selections of §9 (10_state.md R30 item 2, R35 to R43). -/
structure ScanConfig where
  mask : BitVec 64
  maxPin : BitVec 8
  breakOnHit : Bool
  verbosity : Verbosity
  dormantWake : Bool
  idleSel : Bool
  deriving DecidableEq, Repr, Inhabited

/-- ARG_MASK_LO and ARG_MASK_HI (10_state.md R30 item 3, R45). -/
structure Staging where
  argMaskLo : Word
  argMaskHi : Word
  deriving DecidableEq, Repr, Inhabited

/-- The stored fields of STATUS (10_state.md R30 item 4, R47); PHASE is computed (R54). -/
structure Status where
  busy : Bool
  rvalid : Bool
  matchedAny : Bool
  cancelPending : Bool
  endCode : EndCode
  err : ErrCode
  deriving DecidableEq, Repr, Inhabited

/-- The result buffer and RES_COUNT (10_state.md R30 item 5, R55 to R57). -/
structure ResultBuffer where
  clk : Pin
  data : Pin
  matched : Bool
  raw : BitVec 36
  count : Word
  deriving DecidableEq, Repr, Inhabited

/-- The current-attempt state shown in CUR_PAIR (10_state.md R30 item 6, R58). -/
structure Current where
  clk : Pin
  data : Pin
  active : Bool
  stage : Stage
  deriving DecidableEq, Repr, Inhabited

/-- The sequencer's internal state (10_state.md R30 item 7, R59), with the loop position `pos`. -/
structure Sequencer where
  cmdKind : CmdKind
  iterClk : Pin
  iterData : Pin
  upc : BitVec 8
  prog : List ProgRow
  sr : BitVec 64
  bitCnt : BitVec 7
  pcnt : BitVec 7
  timer : Nat
  rawReg : BitVec 36
  matchReg : Bool
  pos : ScanPos
  deriving DecidableEq, Repr, Inhabited

/-- The whole state: the seven groups of R30; then the inputs still to come, the observations (the history of R62 with
the marks of its attempts, newest first, and the read data of the register port) and the number of free values used so far (log 6). PIN_COUNT is the number of pads (log 2). -/
structure State where
  pads : List Pad
  config : ScanConfig
  staging : Staging
  status : Status
  result : ResultBuffer
  cur : Current
  seq : Sequencer
  env : List Ports
  history : List Event
  attempts : List AttemptMark
  reads : List (List Byte)
  draws : Nat
  deriving DecidableEq, Repr, Inhabited

/-- PIN_COUNT (00_scope.md R9). -/
def State.pinCount (s : State) : Nat := s.pads.length

/-- Why the machine stops with a fault. -/
inductive Fault where
  /-- Raised by a pad primitive on a pad index at or above PIN_COUNT, which 20_memory.md R98 says never happens. Safe: the model
  stops where the spec gives no pad (log 12). -/
  | padOutsidePinSpace
  deriving DecidableEq, Repr

/-- Why a step has no meaning. -/
inductive Refusal where
  /-- Raised by an arm of exec whose instruction has no meaning yet. Safe. -/
  | notModelled (mnemonic : String)
  /-- Raised by a host access that is not 32 bits wide (20_memory.md R101: "a model refuses it (no step)"). Safe. -/
  | accessWidth
  /-- Raised by a host access at an offset that is no multiple of 4 (R101). Safe. -/
  | accessMisaligned
  /-- Raised by a host access at an offset outside the window (R100): it is not an access to this block. Safe. -/
  | accessOutsideWindow
  /-- Raised by a micro-operation word, or an instruction, outside 30_encoding.md R143 (R144: "the model must refuse (not execute) an
  invalid word"). Safe. -/
  | illegalMicroOp
  /-- Raised if a command word decoded to a micro-operation, which the decoder never answers: the host cannot issue them
  (40_link_driver.md, opening paragraph). Safe. -/
  | microOpFromHost
  deriving DecidableEq, Repr

/-- One step's outcome on this machine. -/
abbrev Result := Host.Outcome State Fault Refusal

/-- A pad after reset (10_state.md R32). -/
def Pad.reset : Pad := ⟨.input, .high⟩

/-- The configuration after reset (10_state.md R36, R42). -/
def ScanConfig.reset : ScanConfig := ⟨0, 0, false, .normal, false, true⟩

/-- ARG_MASK_LO and ARG_MASK_HI after reset (10_state.md R45). -/
def Staging.reset : Staging := ⟨0, 0⟩

/-- STATUS after reset (10_state.md R47). -/
def Status.reset : Status := ⟨false, false, false, false, .none, .ok⟩

/-- The result registers after reset (10_state.md R57). -/
def ResultBuffer.reset : ResultBuffer := ⟨0, 0, false, 0, 0⟩

/-- CUR_PAIR after reset (10_state.md R58). -/
def Current.reset : Current := ⟨0, 0, false, .none⟩

/-- The internal elements after reset (10_state.md R59; 70_reset_and_hazards.md R343 for `pos`). -/
def Sequencer.reset : Sequencer :=
  { cmdKind := .none, iterClk := 0, iterData := 0, upc := 0, prog := [], sr := 0, bitCnt := 0, pcnt := 0, timer := 0,
    rawReg := 0, matchReg := false, pos := .idle }

/-- The block after reset, with `n` pads (70_reset_and_hazards.md R340). The inputs, the observations and the counter of free values
are the model's own and stand empty (log 13, DESIGN CHOICE). -/
def State.resetWith (n : Nat) : State :=
  { pads := List.replicate n Pad.reset, config := ScanConfig.reset, staging := Staging.reset, status := Status.reset,
    result := ResultBuffer.reset, cur := Current.reset, seq := Sequencer.reset, env := [], history := [],
    attempts := [], reads := [], draws := 0 }

/-- The machine right after reset (70_reset_and_hazards.md R340), with the default PIN_COUNT. -/
def State.reset : State := State.resetWith Config.defaultPinCount

end Sys2Proof.Machine
end

