-- ==== Sys2Proof/Machine/Flags.lean ====
section
/-! DEFINITION. Flags.lean: every decision bit the spec computes: the fields of a response and the match predicate, PHASE, MAX_PIN,
and the numbers that the named codes are held as. -/

namespace Sys2Proof.Machine

/-- ack(raw) (30_encoding.md R155). -/
def ackOf (raw : BitVec 36) : BitVec 3 := raw.extractLsb' 0 3

/-- data(raw) (30_encoding.md R155). -/
def dataOf (raw : BitVec 36) : BitVec 32 := raw.extractLsb' 3 32

/-- parity(raw) (30_encoding.md R155). -/
def parityOf (raw : BitVec 36) : Bool := raw.getLsbD 35

/-- manufacturer(raw) (30_encoding.md R155; 90_conflicts.md C1). -/
def manufacturerOf (raw : BitVec 36) : BitVec 11 := raw.extractLsb' 4 11

/-- partNumber(raw) (30_encoding.md R155; 90_conflicts.md C1). -/
def partNumberOf (raw : BitVec 36) : BitVec 16 := raw.extractLsb' 15 16

/-- The match predicate (41_protocol_sequencer.md R216, R218). -/
def matchOf (raw : BitVec 36) : Bool :=
  decide (ackOf raw = Config.ackOk) && decide (manufacturerOf raw = Config.mfrExpected)

/-- PHASE: 0 IDLE, 1 ATTEMPT, 2 WAIT_POP (10_state.md R54). -/
def State.phase (s : State) : BitVec 2 :=
  if s.cur.active then 1 else if s.status.busy && s.status.rvalid then 2 else 0

/-- One more than the index of the highest of the low `n` bits that is set, 0 if none is. -/
def highestBelow (m : BitVec 64) : Nat → Nat
  | 0 => 0
  | n + 1 => if m.getLsbD n then n + 1 else highestBelow m n

/-- maxPin(m) (10_state.md R43). -/
def maxPinOf (m : BitVec 64) : BitVec 8 := BitVec.ofNat 8 (highestBelow m 64)

/-- The trailing idle-bit count k (10_state.md R39). -/
def idleBits (idleSel : Bool) : Nat := bif idleSel then 8 else 4

/-- STAGE as a number (10_state.md R58). -/
def stageBits : Stage → BitVec 3
  | .none => 0
  | .lineReset => 1
  | .jtagToSwdSwitch => 2
  | .dormantWake => 3
  | .idCodeRequest => 4
  | .decodeMatch => 5
  | .exit => 6

/-- END as a number (10_state.md R52). -/
def endBits : EndCode → BitVec 3
  | .none => 0
  | .complete => 1
  | .hit => 2
  | .cancelled => 3
  | .fault => 4

/-- ERR as a number (10_state.md R53; 60_exceptions.md R302). -/
def errBits : ErrCode → BitVec 4
  | .ok => 0
  | .illegalCmd => 1
  | .badField => 2
  | .busy => 3
  | .noResult => 4
  | .badMask => 5
  | .badPinSame => 6
  | .badPinRange => 7
  | .hliFault => 8

end Sys2Proof.Machine
end

