-- ==== Sys2Proof/Machine/Operands.lean ====
section
/-! DEFINITION. Operands.lean: the operand forms: the staged mask, the pin checks, the bits of a WBITS value, the pairs of a
configuration, and the byte lanes of a register access. -/

namespace Sys2Proof.Machine

/-- argmask = [ARG_MASK_HI, ARG_MASK_LO], the high word first (10_state.md R45). -/
def argMask (s : State) : BitVec 64 := s.staging.argMaskHi ++ s.staging.argMaskLo

/-- Whether a mask has a bit at an index at or above PIN_COUNT (42_scanner_commands.md R257). -/
def maskOutOfRange (s : State) (m : BitVec 64) : Bool := decide (m >>> s.pinCount ≠ 0)

/-- Whether a pin index is below PIN_COUNT (42_scanner_commands.md R266; 00_scope.md R13). -/
def pinInRange (s : State) (p : Pin) : Bool := decide (p.toNat < s.pinCount)

/-- zext_64(V[n-1:0]), for every n (40_link_driver.md R179). -/
def lowBits (n : Nat) (v : BitVec 64) : BitVec 64 := (v.setWidth n).setWidth 64

/-- The level that bit i of a value is sent as (40_link_driver.md R179; 20_memory.md R99). -/
def bitLevel (v : BitVec 64) (i : Nat) : Level := Level.ofBool (v.getLsbD i)

/-- r with r[i] <- 1 if the sample is High (40_link_driver.md R182): bit i of r is 0 before. -/
def putBit (r : BitVec 64) (i : Nat) (l : Level) : BitVec 64 := r ||| (BitVec.ofBool l.toBool).setWidth 64 <<< i

/-- The candidate pins below MAX_PIN, in increasing order (10_state.md R44). -/
def candidates (mask : BitVec 64) (maxPin : BitVec 8) : List Nat :=
  (List.range maxPin.toNat).filter fun i => mask.getLsbD i

/-- pairs(mask, maxPin): c outer, d inner, both increasing, d ≠ c (42_scanner_commands.md R260). -/
def pairs (mask : BitVec 64) (maxPin : BitVec 8) : List (Pin × Pin) :=
  (candidates mask maxPin).flatMap fun c =>
    ((candidates mask maxPin).filter fun d => d != c).map fun d => (BitVec.ofNat 8 c, BitVec.ofNat 8 d)

/-- Whether pair `q` stands after pair `p` in the order of `pairs` (42_scanner_commands.md R260). -/
def pairAfter (p q : Pin × Pin) : Bool := decide (p.1 < q.1) || (decide (p.1 = q.1) && decide (p.2 < q.2))

/-- The next pair of the scan loop (42_scanner_commands.md R261): the first of the list, or the first after the current pair. -/
def nextPair (s : State) : Option (Pin × Pin) :=
  if s.seq.pos = .first then (pairs s.config.mask s.config.maxPin).head?
  else (pairs s.config.mask s.config.maxPin).find? (pairAfter (s.seq.iterClk, s.seq.iterData))

/-- The word of four byte lanes: lane 0 carries bits 7 to 0 (20_memory.md R102). -/
def wordOfLanes : List Byte → Word
  | [] => 0
  | b :: bs => b.setWidth 32 ||| wordOfLanes bs <<< 8

/-- The four byte lanes of a word, the lowest address first (20_memory.md R102). -/
def lanesOfWord (w : Word) : List Byte :=
  [w.extractLsb' 0 8, w.extractLsb' 8 8, w.extractLsb' 16 8, w.extractLsb' 24 8]

end Sys2Proof.Machine
end

