-- ==== Sys2Proof/Machine/Registers.lean ====
section
/-! DEFINITION. Registers.lean: the words the register window shows (20_memory.md R100), the output ports (R90: pad_oe, pad_o, the trace port), and the shared
operations on the block's registers: reject, accept, end and publish. -/

namespace Sys2Proof.Machine

/-- Append an event to the event history (10_state.md R62). -/
def State.emit (s : State) (e : Event) : State := { s with history := s.history ++ [e] }

/-- `reject(code)`: ERR <- code, and nothing else (60_exceptions.md R301). -/
def State.reject (s : State) (code : ErrCode) : State := { s with status.err := code }

/-- The acceptance of SCAN or TEST_PAIR: the writes the two rules share (42_scanner_commands.md R259, R265). They list no write of RES_CLK,
RES_DATA, RES_MATCHED or RES_RAW, and 10_state.md R55 promises the old result only until here: that these four then keep their old values
until the next publish is DEDUCED, the model's choice (log 22). -/
def State.acceptRun (s : State) (kind : CmdKind) (pos : ScanPos) : State :=
  { s with
    status :=
      { busy := true, rvalid := false, matchedAny := false, cancelPending := false, endCode := .none, err := .ok },
    result.count := 0,
    seq.cmdKind := kind,
    seq.pos := pos }

/-- `end(code)` (42_scanner_commands.md R270). -/
def State.endCommand (s : State) (code : EndCode) : State :=
  { s with
    status.endCode := code,
    status.busy := false,
    status.cancelPending := false,
    seq.cmdKind := .none,
    seq.pos := .idle,
    history := s.history ++ [.ended code] }

/-- The result of an attempt that has ended (41_protocol_sequencer.md R233). -/
def State.attemptResult (s : State) : ScanResult := ⟨s.cur.clk, s.cur.data, s.seq.rawReg, s.seq.matchReg⟩

/-- `publish(res)` (10_state.md R56); the command then waits for POP (42_scanner_commands.md R261). -/
def State.publish (s : State) (res : ScanResult) : State :=
  { s with
    result := ⟨res.clk, res.data, res.matched, res.raw, s.result.count + 1⟩,
    status.rvalid := true,
    status.matchedAny := s.status.matchedAny || res.matched,
    seq.pos := .waitPop,
    history := s.history ++ [.publish res] }

/-- STATUS (10_state.md R47). -/
def State.statusWord (s : State) : Word :=
  bit s.status.busy ||| bit s.status.rvalid <<< 1 ||| bit s.status.matchedAny <<< 2 |||
    bit s.status.cancelPending <<< 3 ||| (endBits s.status.endCode).setWidth 32 <<< 4 |||
    (errBits s.status.err).setWidth 32 <<< 8 ||| s.phase.setWidth 32 <<< 12

/-- CFG (10_state.md R36). -/
def State.cfgWord (s : State) : Word :=
  bit s.config.breakOnHit ||| s.config.verbosity.bits.setWidth 32 <<< 1 |||
    bit s.config.dormantWake <<< 3 ||| bit s.config.idleSel <<< 4 ||| s.config.maxPin.setWidth 32 <<< 8

/-- RES_PINS (10_state.md R57). -/
def State.resPinsWord (s : State) : Word :=
  s.result.clk.setWidth 32 ||| s.result.data.setWidth 32 <<< 8 ||| bit s.result.matched <<< 16

/-- RES_FIELDS (10_state.md R57). -/
def State.resFieldsWord (s : State) : Word :=
  (ackOf s.result.raw).setWidth 32 ||| (manufacturerOf s.result.raw).setWidth 32 <<< 4 |||
    (partNumberOf s.result.raw).setWidth 32 <<< 15 ||| bit (parityOf s.result.raw) <<< 31

/-- CUR_PAIR (10_state.md R58). -/
def State.curPairWord (s : State) : Word :=
  s.cur.clk.setWidth 32 ||| s.cur.data.setWidth 32 <<< 8 ||| bit s.cur.active <<< 16 |||
    (stageBits s.cur.stage).setWidth 32 <<< 17

/-- What a read of a byte offset of the window returns (20_memory.md R100, R103; 10_state.md R46). -/
def State.readWord (s : State) (offset : Nat) : Word :=
  match offset with
  | 0x04 => s.statusWord
  | 0x08 => s.staging.argMaskLo
  | 0x0C => s.staging.argMaskHi
  | 0x10 => s.cfgWord
  | 0x14 => s.config.mask.extractLsb' 0 32
  | 0x18 => s.config.mask.extractLsb' 32 32
  | 0x1C => s.resPinsWord
  | 0x20 => s.result.raw.extractLsb' 0 32
  | 0x24 => (s.result.raw.extractLsb' 32 4).setWidth 32
  | 0x28 => s.resFieldsWord
  | 0x2C => s.result.count
  | 0x30 => s.curPairWord
  | _ => 0

/-- pad_oe[p] (20_memory.md R90). -/
def State.padOe (s : State) (p : Pin) : Bool := decide ((s.pads[p.toNat]?).map (·.dir) = some .output)

/-- pad_o[p] (20_memory.md R90). -/
def State.padO (s : State) (p : Pin) : Bool := decide ((s.pads[p.toNat]?).map (·.out) = some .high)

/-- The trace record of an event, if it is one (10_state.md R60). -/
def Event.traceRec? : Event → Option TraceRec
  | .trace r => some r
  | .setDir _ _ => none
  | .wrLvl _ _ => none
  | .rdLvl _ _ => none
  | .sleep _ => none
  | .publish _ => none
  | .ended _ => none

/-- trace_kind: 0 = TX, 1 = RX (20_memory.md R90). -/
def TraceKind.bit : TraceKind → BitVec 1
  | .tx => 0
  | .rx => 1

/-- trace_valid in the cycle of an event: it is 1 exactly when the event emits a trace record (20_memory.md R90; 10_state.md R60). -/
def Event.traceValid (e : Event) : Bool := e.traceRec?.isSome

/-- trace_kind, trace_n and trace_bits in a cycle of trace_valid: those of its record (20_memory.md R90). Of the other cycles the spec
gives no value, so there is none here. -/
def Event.tracePort? (e : Event) : Option (BitVec 1 × BitVec 7 × BitVec 64) :=
  e.traceRec?.map fun r => (r.kind.bit, r.n, r.bits)

/-- The trace output: the trace records in the order they were emitted (10_state.md R60). -/
def State.traceOutput (s : State) : List TraceRec := s.history.filterMap Event.traceRec?

end Sys2Proof.Machine
end

