-- ==== Sys2Proof/Machine/Commands.lean ====
section
/-! DEFINITION. Commands.lean: the five host commands (42_scanner_commands.md). A command word is evaluated in one atomic step
(R250); its checks run in the order of 60_exceptions.md R303. What a running SCAN or TEST_PAIR then does is Machine/Scan.lean. -/

namespace Sys2Proof.Machine

/-- CONFIGURE (42_scanner_commands.md R255, R257). -/
def execConfigure (boh : Bool) (verb : Verbosity) (dorm idle : Bool) (s : State) : Result :=
  if s.status.busy then .next (s.reject .busy)
  else if maskOutOfRange s (argMask s) then .next (s.reject .badMask)
  else
    .next
      { s with
        config := ⟨argMask s, maxPinOf (argMask s), boh, verb, dorm, idle⟩,
        status.err := .ok }

/-- SCAN (42_scanner_commands.md R259): the acceptance; the loop of R261 runs as block steps. -/
def execScan (s : State) : Result :=
  if s.status.busy then .next (s.reject .busy) else .next (s.acceptRun .scan .first)

/-- TEST_PAIR (42_scanner_commands.md R265, R266): the acceptance; the attempt runs as block steps. -/
def execTestPair (clk data : Pin) (s : State) : Result :=
  if s.status.busy then .next (s.reject .busy)
  else if clk = data then .next (s.reject .badPinSame)
  else if !(pinInRange s clk && pinInRange s data) then .next (s.reject .badPinRange)
  else .next (s.acceptRun .testPair (.begin clk data))

/-- POP (42_scanner_commands.md R267). -/
def execPop (s : State) : Result :=
  if s.status.rvalid then .next { s with status.rvalid := false, status.err := .ok } else .next (s.reject .noResult)

/-- CANCEL (42_scanner_commands.md R268). -/
def execCancel (s : State) : Result :=
  .next { s with status.err := .ok, status.cancelPending := s.status.cancelPending || s.status.busy }

/-- A decoded command word on the CMD register: the meaning of its command. -/
def hostCommand (i : Instr) (s : State) : Result :=
  match i with
  | .configure boh verb dorm idle => execConfigure boh verb dorm idle s
  | .scan => execScan s
  | .testPair clk data => execTestPair clk data s
  | .pop => execPop s
  | .cancel => execCancel s
  | .pulse => .refused .microOpFromHost
  | .drive _ => .refused .microOpFromHost
  | .release => .refused .microOpFromHost
  | .wbit _ => .refused .microOpFromHost
  | .wbits _ _ => .refused .microOpFromHost
  | .rbits _ => .refused .microOpFromHost
  | .turn => .refused .microOpFromHost
  | .lreset => .refused .microOpFromHost
  | .enter => .refused .microOpFromHost
  | .exit => .refused .microOpFromHost
  | .decode => .refused .microOpFromHost

/-- A write of a word to CMD (42_scanner_commands.md R250; 60_exceptions.md R303): checks 1 and 2 are the decoder's. -/
def writeCmd (w : Word) (s : State) : Result :=
  match decodeHost w with
  | .error .illegalCmd => .next (s.reject .illegalCmd)
  | .error .badField => .next (s.reject .badField)
  | .ok i => hostCommand i s

/-- A 32-bit write at an offset of the window (20_memory.md R100, R103, R104). -/
def writeWord (offset : Nat) (w : Word) (s : State) : Result :=
  match offset with
  | 0x00 => writeCmd w s
  | 0x08 => .next { s with staging.argMaskLo := w }
  | 0x0C => .next { s with staging.argMaskHi := w }
  | _ => .next s

/-- Why the window does not serve an access of this width at this offset, if it does not (20_memory.md R100, R101). -/
def accessRefusal (offset width : Nat) : Option Refusal :=
  if width ≠ 4 then some .accessWidth
  else if offset % 4 ≠ 0 then some .accessMisaligned
  else if 0x40 ≤ offset then some .accessOutsideWindow
  else none

/-- What the register port sees of a host access at a byte address of the host's address space, the window being at `base`: the same
access at its byte address within the window, and nothing if the address is not one of the window (20_memory.md R90, R100, R106). -/
def Access.onPort (base : Nat) : Access → Option Access
  | .read a width => if base ≤ a ∧ a < base + 0x40 then some (.read (a - base) width) else none
  | .write a lanes => if base ≤ a ∧ a < base + 0x40 then some (.write (a - base) lanes) else none

/-- RegRead(a) (00_scope.md R12): a host's read of the 32-bit register at byte address a, as the register port sees it. -/
def regRead (a : Nat) : Option Access := Access.onPort Config.regBase (.read a 4)

/-- RegWrite(a, v) (00_scope.md R12): a host's write of the 32-bit register at byte address a, as the register port sees it. -/
def regWrite (a : Nat) (v : Word) : Option Access := Access.onPort Config.regBase (.write a (lanesOfWord v))

/-- One host access, atomic with respect to block steps (20_memory.md R101 to R105). -/
def hostAccess (a : Access) (s : State) : Result :=
  match a with
  | .read offset width =>
    match accessRefusal offset width with
    | some r => .refused r
    | none => .next { s with reads := s.reads ++ [lanesOfWord (s.readWord offset)] }
  | .write offset lanes =>
    match accessRefusal offset lanes.length with
    | some r => .refused r
    | none => writeWord offset (wordOfLanes lanes) s

/-- Host accesses in issue order (20_memory.md R109). -/
def serve : List Access → State → Result
  | [], s => .next s
  | a :: more, s =>
    match hostAccess a s with
    | .next s' => serve more s'
    | .fault f => .fault f
    | .refused r => .refused r

end Sys2Proof.Machine
end

