-- ==== Sys2Proof/Machine/Ops.lean ====
section
/-! DEFINITION. Ops.lean: what one block step is (the input ports, 20_memory.md R90, R109; 60_exceptions.md R305; reset, R340 to
R342), the four pad primitives (20_memory.md R91 to R95), and the entry of the pad fault (60_exceptions.md R306 to R308). -/

namespace Sys2Proof.Machine

/-- The progress of a micro-operation: it goes on with a value and a state, or it has ended early (a reset, the fault entry, a
refused access). -/
inductive Flow (α : Type) where
  | go (a : α) (s : State)
  | stop (r : Result)

/-- Go on with `k`, unless the micro-operation has ended. -/
def Flow.andThen {α β : Type} (f : Flow α) (k : α → State → Flow β) : Flow β :=
  match f with
  | .go a s => k a s
  | .stop r => .stop r

/-- A reset pulse in state `s` (70_reset_and_hazards.md R340, R341): every state element takes its reset value, no event is appended,
and what is not the block's state (the inputs to come, the observations, the counter of free values) stays (log 8). -/
def State.afterReset (s : State) : State :=
  { State.resetWith s.pinCount with
    env := s.env, history := s.history, attempts := s.attempts, reads := s.reads, draws := s.draws }

/-- Host accesses while rst is 1: "host writes are ignored and host reads return the reset values" (70_reset_and_hazards.md R342). -/
def serveInReset : List Access → State → Result
  | [], s => .next s
  | .read offset width :: more, s =>
    match hostAccess (.read offset width) s with
    | .next s' => serveInReset more s'
    | .fault f => .fault f
    | .refused r => .refused r
  | .write offset lanes :: more, s =>
    match accessRefusal offset lanes.length with
    | some r => .refused r
    | none => serveInReset more s

/-- The ports of one block step (20_memory.md R90; 60_exceptions.md R305): reset overrides everything; else the host accesses of the
step are evaluated before the block's own part of it. When no sample is left the ports are at rest (log 1). -/
def tick (s : State) : Flow Ports :=
  match s.env with
  | [] => .go Ports.quiet s
  | p :: rest =>
    if p.rst then .stop (serveInReset p.host (State.afterReset { s with env := rest }))
    else
      match serve p.host { s with env := rest } with
      | .next s' => .go p s'
      | .fault f => .stop (.fault f)
      | .refused r => .stop (.refused r)

/-- Replace one pad. -/
def State.mapPad (s : State) (p : Pin) (f : Pad → Pad) : State := { s with pads := s.pads.modify p.toNat f }

/-- DIR[p] <- d (20_memory.md R92). -/
def State.withDir (s : State) (p : Pin) (d : Dir) : State := s.mapPad p fun pad => { pad with dir := d }

/-- OUT[p] <- l (20_memory.md R92). -/
def State.withOut (s : State) (p : Pin) (l : Level) : State := s.mapPad p fun pad => { pad with out := l }

/-- After a failed primitive, DIR and OUT of the pad it addressed are any value (60_exceptions.md R306; log 6). -/
def State.scramble (s : State) (p : Pin) : State :=
  { s.mapPad p fun _ => ⟨Config.freeDir s.draws, Config.freeLevel s.draws⟩ with draws := s.draws + 1 }

/-- One best-effort SetDir(p, Input) of the fault entry: a failure is ignored (60_exceptions.md R307, R308). A failed one appends no event,
as the last row of the table in 95_test_vectors.md section 2.6 lists (log 6). -/
def bestEffortRelease (p : Pin) (s : State) : Flow Unit :=
  (tick s).andThen fun ports s =>
    if !pinInRange s p then .stop (.fault .padOutsidePinSpace)
    else if ports.pinFault then .go () (s.scramble p)
    else .go () ((s.withDir p .input).emit (.setDir p .input))

/-- TAKING THE EXCEPTION: the fault entry on the attempt's pair (60_exceptions.md R307). STAGE, CUR_CLK, CUR_DATA, RES_COUNT and the
program position stay. There is no handler and no return operation (R309). -/
def faultEntry (s : State) : Result :=
  match (bestEffortRelease s.cur.data s).andThen fun _ s1 => bestEffortRelease s.cur.clk s1 with
  | .go _ s2 => .next (State.endCommand { s2 with cur.active := false, status.err := .hliFault } .fault)
  | .stop r => r

/-- One pad primitive: the ports of its step, then its effect, or, if `pin_fault` is asserted for it, the effect of its failure and
the fault entry (60_exceptions.md R306, R307). -/
def primitive {α : Type} (pad : Option Pin) (effect : Ports → State → α × State) (failed : State → State) (s : State) : Flow α :=
  (tick s).andThen fun ports s =>
    if pad.any fun p => !pinInRange s p then .stop (.fault .padOutsidePinSpace)
    else if ports.pinFault then .stop (faultEntry (failed s))
    else .go (effect ports s).1 (effect ports s).2

/-- SetDir(p, d) (20_memory.md R92). A failed one still appends its event (log 6). -/
def setDir (p : Pin) (d : Dir) (s : State) : Flow Unit :=
  primitive (some p) (fun _ s => ((), (s.withDir p d).emit (.setDir p d))) (fun s => (s.scramble p).emit (.setDir p d)) s

/-- The SetDir(p, Output) of a drive, whose WrLvl(p, l) follows: the level is put in the pad's output register first, and the direction
in the same cycle, so the pin never drives the old OUT (20_memory.md R96). Its event is that of SetDir. A failed one is a failed SetDir
(log 19). -/
def setDirDriving (p : Pin) (l : Level) (s : State) : Flow Unit :=
  primitive (some p) (fun _ s => ((), ((s.withOut p l).withDir p .output).emit (.setDir p .output)))
    (fun s => (s.scramble p).emit (.setDir p .output)) s

/-- WrLvl(p, l) (20_memory.md R92). -/
def wrLvl (p : Pin) (l : Level) (s : State) : Flow Unit :=
  primitive (some p) (fun _ s => ((), (s.withOut p l).emit (.wrLvl p l))) (fun s => (s.scramble p).emit (.wrLvl p l)) s

/-- Sleep(T_HALF_US) (20_memory.md R94): TIMER counts T_HALF_CYCLES down to 0, and stands at any count of that range if the Sleep
fails (60_exceptions.md R306, R318; logs 6 and 7). -/
def sleepHalf (s : State) : Flow Unit :=
  primitive none (fun _ s => ((), State.emit { s with seq.timer := 0 } (.sleep Config.tHalfUs)))
    (fun s =>
      State.emit { s with seq.timer := Config.freeCount s.draws % (Config.tHalfCycles + 1), draws := s.draws + 1 }
        (.sleep Config.tHalfUs))
    s

/-- driveLine (40_link_driver.md R173), and ENTER's drive of the clock pad (41_protocol_sequencer.md R212): SetDir(p, Output) and then
WrLvl(p, l), two events and two block steps; the pin drives l from the first on (20_memory.md R91, R96). -/
def driveLine (p : Pin) (l : Level) (s : State) : Flow Unit :=
  (setDirDriving p l s).andThen fun _ s => wrLvl p l s

/-- The level a sampled pad shows, and the state after the draw: the level the environment drives, or that of an undriven pad
(20_memory.md R93; log 5). -/
def sampleLevel (p : Pin) (ports : Ports) (s : State) : Level × State :=
  match ports.padI p with
  | some l => (l, s)
  | none => (Config.undriven s.draws, { s with draws := s.draws + 1 })

/-- RdLvl(p) (20_memory.md R93). The level of a failed one is any value (60_exceptions.md R306). -/
def rdLvl (p : Pin) (s : State) : Flow Level :=
  primitive (some p)
    (fun ports s => ((sampleLevel p ports s).1, (sampleLevel p ports s).2.emit (.rdLvl p (sampleLevel p ports s).1)))
    (fun s => (State.scramble { s with draws := s.draws + 1 } p).emit (.rdLvl p (Config.freeLevel s.draws)))
    s

/-- The end of a micro-operation: upc advances by one (10_state.md R59; 41_protocol_sequencer.md R231), unless the micro-operation
has ended early. -/
def finish (f : Flow Unit) : Result :=
  match f with
  | .go _ s => .next { s with seq.upc := s.seq.upc + 1 }
  | .stop r => r

end Sys2Proof.Machine
end

