-- ==== Sys2Proof/Machine/LinkDriver.lean ====
section
/-! DEFINITION. LinkDriver.lean: the eight micro-operations of the bit-banged transactor (40_link_driver.md). In each, `clk` is CUR_CLK
and `data` is CUR_DATA (R170). -/

namespace Sys2Proof.Machine

/-- The four primitives of one pulse (40_link_driver.md R171). -/
def pulseClock (clk : Pin) (s : State) : Flow Unit :=
  (wrLvl clk .low s).andThen fun _ s =>
    (sleepHalf s).andThen fun _ s =>
      (wrLvl clk .high s).andThen fun _ s => sleepHalf s

/-- releaseLine (40_link_driver.md R175). -/
def releaseLine (data : Pin) (s : State) : Flow Unit := setDir data .input s

/-- writeBit (40_link_driver.md R177). -/
def writeBit (clk data : Pin) (b : Level) (s : State) : Flow Unit :=
  (driveLine data b s).andThen fun _ s => pulseClock clk s

/-- The loop of writeBits (40_link_driver.md R179): bits i, i+1, ... of `v`, `k` of them; BITCNT counts the bits done (log 7). -/
def writeLoop (clk data : Pin) (v : BitVec 64) : Nat → Nat → State → Flow Unit
  | 0, _, s => .go () s
  | k + 1, i, s =>
    (writeBit clk data (bitLevel v i) s).andThen fun _ s =>
      writeLoop clk data v k (i + 1) { s with seq.bitCnt := BitVec.ofNat 7 (i + 1) }

/-- The loop of readBits (40_link_driver.md R182): samples i, i+1, ... into `r`, `k` of them, each followed by one pulse. -/
def readLoop (clk data : Pin) : Nat → Nat → BitVec 64 → State → Flow (BitVec 64)
  | 0, _, r, s => .go r s
  | k + 1, i, r, s =>
    (rdLvl data s).andThen fun l s =>
      (pulseClock clk s).andThen fun _ s =>
        readLoop clk data k (i + 1) (putBit r i l) { s with seq.bitCnt := BitVec.ofNat 7 (i + 1) }

/-- The pulses of resetLine (40_link_driver.md R188): `k` of them, `i` done; PCNT counts them. -/
def pulseLoop (clk : Pin) : Nat → Nat → State → Flow Unit
  | 0, _, s => .go () s
  | k + 1, i, s =>
    (pulseClock clk s).andThen fun _ s => pulseLoop clk k (i + 1) { s with seq.pcnt := BitVec.ofNat 7 (i + 1) }

/-- The trace record of a WBITS or RBITS, emitted only when VERBOSITY = 2 (10_state.md R60). -/
def State.emitTrace (s : State) (kind : TraceKind) (n : BitVec 7) (bits : BitVec 64) : State :=
  if s.config.verbosity = .verbose then s.emit (.trace ⟨kind, n, bits⟩) else s

/-- writeBits (40_link_driver.md R179). -/
def writeBits (n : BitVec 7) (v : BitVec 64) (s : State) : Flow Unit :=
  (writeLoop s.cur.clk s.cur.data v n.toNat 0 { s with seq.sr := lowBits n.toNat v, seq.bitCnt := 0 }).andThen fun _ s =>
    .go () (s.emitTrace .tx n (lowBits n.toNat v))

/-- readBits (40_link_driver.md R182). -/
def readBits (n : BitVec 7) (s : State) : Flow Unit :=
  (releaseLine s.cur.data { s with seq.bitCnt := 0 }).andThen fun _ s1 =>
    (readLoop s.cur.clk s.cur.data n.toNat 0 0 s1).andThen fun r s2 =>
      (driveLine s.cur.data .high s2).andThen fun _ s3 =>
        .go () (State.emitTrace { s3 with seq.sr := r, seq.rawReg := r.setWidth 36 } .rx n r)

/-- turnaround (40_link_driver.md R185; 90_conflicts.md C2). -/
def turnaround (s : State) : Flow Unit :=
  (releaseLine s.cur.data s).andThen fun _ s1 => pulseClock s.cur.clk s1

/-- resetLine (40_link_driver.md R188). -/
def resetLine (s : State) : Flow Unit :=
  (driveLine s.cur.data .high { s with seq.pcnt := 0 }).andThen fun _ s1 =>
    pulseLoop s.cur.clk Config.resetPulses 0 s1

/-- PULSE (40_link_driver.md R171). -/
def execPulse (s : State) : Result := finish (pulseClock s.cur.clk s)

/-- DRIVE b (40_link_driver.md R173). -/
def execDrive (b : Level) (s : State) : Result := finish (driveLine s.cur.data b s)

/-- RELEASE (40_link_driver.md R175). -/
def execRelease (s : State) : Result := finish (releaseLine s.cur.data s)

/-- WBIT b (40_link_driver.md R177). -/
def execWbit (b : Level) (s : State) : Result := finish (writeBit s.cur.clk s.cur.data b s)

/-- WBITS n, V (40_link_driver.md R179). N > 64 is an illegal micro-operation, which is not executed (30_encoding.md R143, R144). -/
def execWbits (n : BitVec 7) (v : BitVec 64) (s : State) : Result :=
  if bitCountOk n then finish (writeBits n v s) else .refused .illegalMicroOp

/-- RBITS n (40_link_driver.md R182). N > 64 is an illegal micro-operation, which is not executed (30_encoding.md R143, R144). -/
def execRbits (n : BitVec 7) (s : State) : Result :=
  if bitCountOk n then finish (readBits n s) else .refused .illegalMicroOp

/-- TURN (40_link_driver.md R185). -/
def execTurn (s : State) : Result := finish (turnaround s)

/-- LRESET (40_link_driver.md R188). -/
def execLreset (s : State) : Result := finish (resetLine s)

end Sys2Proof.Machine
end

