-- ==== Sys2Proof/Machine/Sequencer.lean ====
section
/-! DEFINITION. Sequencer.lean: the sequencer's own micro-operations ENTER, EXIT and DECODE, the program of an attempt, and its start
(41_protocol_sequencer.md). -/

namespace Sys2Proof.Machine

/-- ENTER (41_protocol_sequencer.md R212). -/
def execEnter (s : State) : Result :=
  finish (driveLine s.cur.clk .high { s with cur.active := true, cur.stage := .lineReset })

/-- EXIT (41_protocol_sequencer.md R214). -/
def execExit (s : State) : Result :=
  finish
    ((setDir s.cur.data .input { s with cur.stage := .exit }).andThen fun _ s1 =>
      (setDir s.cur.clk .input s1).andThen fun _ s2 => .go () { s2 with cur.active := false, cur.stage := .none })

/-- DECODE (41_protocol_sequencer.md R216): one bookkeeping step (70_reset_and_hazards.md R361). -/
def execDecode (s : State) : Result :=
  finish
    ((tick { s with cur.stage := .decodeMatch }).andThen fun _ s1 =>
      .go () { s1 with seq.matchReg := matchOf s1.seq.rawReg })

/-- LINE_RESET (41_protocol_sequencer.md R220). -/
def lineResetRows : List ProgRow := [⟨.lineReset, [0x00000008]⟩]

/-- SWITCH k, with k = 8 if `idleSel` and k = 4 if not (41_protocol_sequencer.md R221). -/
def switchRows (idleSel : Bool) : List ProgRow :=
  [⟨.jtagToSwdSwitch, [0x00001005, 0x0000E79E, 0x00000000]⟩,
   ⟨.jtagToSwdSwitch, [0x00000008]⟩,
   ⟨.jtagToSwdSwitch, [bif idleSel then 0x00000805 else 0x00000405, 0x00000000, 0x00000000]⟩]

/-- DORMANT (41_protocol_sequencer.md R222). -/
def dormantRows : List ProgRow :=
  [⟨.dormantWake, [0x00000805, 0x000000FF, 0x00000000]⟩,
   ⟨.dormantWake, [0x00002005, 0x6209F392, 0x00000000]⟩,
   ⟨.dormantWake, [0x00002005, 0x86852D95, 0x00000000]⟩,
   ⟨.dormantWake, [0x00002005, 0xE3DDAFE9, 0x00000000]⟩,
   ⟨.dormantWake, [0x00002005, 0x19BC0EA2, 0x00000000]⟩,
   ⟨.dormantWake, [0x00000405, 0x00000000, 0x00000000]⟩,
   ⟨.dormantWake, [0x00000805, 0x0000001A, 0x00000000]⟩,
   ⟨.dormantWake, [0x00000008]⟩,
   ⟨.dormantWake, [0x00000805, 0x00000000, 0x00000000]⟩]

/-- IDCODE (41_protocol_sequencer.md R223). -/
def idCodeRows : List ProgRow :=
  [⟨.idCodeRequest, [0x00000805, 0x000000A5, 0x00000000]⟩,
   ⟨.idCodeRequest, [0x00000007]⟩,
   ⟨.idCodeRequest, [0x00002406]⟩,
   ⟨.idCodeRequest, [0x00000007]⟩,
   ⟨.idCodeRequest, [0x00000805, 0x00000000, 0x00000000]⟩]

/-- PROG(k, dorm): ENTER; LINE_RESET; SWITCH k; [DORMANT;] IDCODE; DECODE; EXIT (41_protocol_sequencer.md R230). -/
def program (idleSel dormantWake : Bool) : List ProgRow :=
  [⟨.lineReset, [0x00000009]⟩] ++ lineResetRows ++ switchRows idleSel ++ (bif dormantWake then dormantRows else []) ++
    idCodeRows ++ [⟨.decodeMatch, [0x0000000B]⟩, ⟨.exit, [0x0000000A]⟩]

/-- The mark of an attempt on (c, d) that starts now (20_memory.md R97). -/
def State.attemptMark (s : State) (c d : Pin) : AttemptMark :=
  ⟨c, d, (s.pads[d.toNat]?).getD Pad.reset, s.history.length⟩

/-- Starting an attempt on (c, d), in one step before its first micro-operation (41_protocol_sequencer.md R231). The event history is marked
there: it holds no pairs, and the wire view of R97 is of one pair at a time (log 17). -/
def State.startAttempt (s : State) (c d : Pin) : State :=
  { s with
    cur.clk := c,
    cur.data := d,
    seq.prog := program s.config.idleSel s.config.dormantWake,
    seq.upc := 0,
    seq.rawReg := 0,
    seq.matchReg := false,
    seq.pos := .attempt,
    attempts := s.attemptMark c d :: s.attempts }

end Sys2Proof.Machine
end

