-- ==== Sys2Proof/Machine/Scan.lean ====
section
/-! DEFINITION. Scan.lean: the bookkeeping steps of a running SCAN or TEST_PAIR: the scan loop (42_scanner_commands.md R261), the
attempt of TEST_PAIR (R265), the publish and the wait for POP, and the program a fetch word stands for. -/

namespace Sys2Proof.Machine

/-- The head of the scan loop (42_scanner_commands.md R261, R262): take the next pair, or end(COMPLETE); a pending cancel ends the scan
before that pair's attempt starts. -/
def State.takePair (s : State) : State :=
  match nextPair s with
  | none => s.endCommand .complete
  | some (c, d) =>
    let s1 := { s with seq.iterClk := c, seq.iterData := d }
    if s1.status.cancelPending then s1.endCommand .cancelled else { s1 with seq.pos := .begin c d }

/-- The wait for POP and what follows it (42_scanner_commands.md R261, R263, R265). While RVALID = 1 nothing changes
(70_reset_and_hazards.md R351). -/
def State.waitForPop (s : State) : State :=
  if s.status.rvalid then s
  else
    match s.seq.cmdKind with
    | .scan =>
      if s.result.matched && s.config.breakOnHit then s.endCommand .hit else { s with seq.pos := .advance }
    | .testPair => s.endCommand .complete
    | .none => s.endCommand .complete

/-- One bookkeeping step of the block: the ports of the step, then `f`. -/
def bookkeeping (f : State → State) (s : State) : Result :=
  match tick s with
  | .go _ s1 => .next (f s1)
  | .stop r => r

/-- The program row a fetch word stands for: its encoded words, under the first stage (log 10). -/
def fetchRow (i : Instr) : ProgRow := ⟨.lineReset, encode i⟩

end Sys2Proof.Machine
end

