-- ==== Sys2Proof/Machine/Dispatch.lean ====
section
/-! DEFINITION. Dispatch.lean: one arm per instruction. -/

namespace Sys2Proof.Machine

def exec (i : Instr) (s : State) : Host.Outcome State Fault Refusal :=
  match i with
  -- host commands (42_scanner_commands.md)
  | .configure boh verb dorm idle => Sys2Proof.Machine.execConfigure boh verb dorm idle s
  | .scan => Sys2Proof.Machine.execScan s
  | .testPair clk data => Sys2Proof.Machine.execTestPair clk data s
  | .pop => Sys2Proof.Machine.execPop s
  | .cancel => Sys2Proof.Machine.execCancel s
  -- link driver (40_link_driver.md)
  | .pulse => Sys2Proof.Machine.execPulse s
  | .drive b => Sys2Proof.Machine.execDrive b s
  | .release => Sys2Proof.Machine.execRelease s
  | .wbit b => Sys2Proof.Machine.execWbit b s
  | .wbits n v => Sys2Proof.Machine.execWbits n v s
  | .rbits n => Sys2Proof.Machine.execRbits n s
  | .turn => Sys2Proof.Machine.execTurn s
  | .lreset => Sys2Proof.Machine.execLreset s
  -- protocol sequencer (41_protocol_sequencer.md)
  | .enter => Sys2Proof.Machine.execEnter s
  | .exit => Sys2Proof.Machine.execExit s
  | .decode => Sys2Proof.Machine.execDecode s

end Sys2Proof.Machine
end

