-- ==== Sys2Proof/Machine/Step.lean ====
section
/-! DEFINITION. Step.lean: one step of the machine: a reset, one host access, or one step of the block. -/

namespace Sys2Proof.Machine

/-- The block's attempt: the micro-operation at upc, with STAGE at its row's value, or, once upc has reached the length of PROG, the
publish of the result (41_protocol_sequencer.md R230, R231, R233). A word that is no micro-operation is refused (30_encoding.md R144). -/
def attemptStep (s : State) : Host.Outcome State Fault Refusal :=
  match s.seq.prog[s.seq.upc.toNat]? with
  | none => bookkeeping (fun s1 => s1.publish s1.attemptResult) s
  | some row =>
    match decodeUop row.words with
    | .ok (i, []) => exec i { s with cur.stage := row.stage }
    | .ok (_, _ :: _) => .refused .illegalMicroOp
    | .error _ => .refused .illegalMicroOp

/-- One step of the block, by the position of the running command (42_scanner_commands.md R261, R265). -/
def blockStep (s : State) : Host.Outcome State Fault Refusal :=
  match s.seq.pos with
  | .idle => bookkeeping id s
  | .first => bookkeeping State.takePair s
  | .advance => bookkeeping State.takePair s
  | .begin c d => bookkeeping (fun s1 => s1.startAttempt c d) s
  | .attempt => attemptStep s
  | .waitPop => bookkeeping State.waitForPop s

/-- One step: a reset pulse overrides everything; then the first host access that is due; else the block's own step
(60_exceptions.md R305; 20_memory.md R109). -/
def step (s : State) : Host.Outcome State Fault Refusal :=
  match s.env with
  | [] => blockStep s
  | p :: rest =>
    if p.rst then bookkeeping id s
    else
      match p.host with
      | [] => blockStep s
      | a :: more => hostAccess a { s with env := { p with host := more } :: rest }

/-- `s` with an opcode-table word where the next step finds its instruction: a host command is written to CMD by the host access that
is due; a micro-operation stands as the one row of PROG, with the attempt at it (log 10). -/
def State.withFetchWord (s : State) (nbits w : Nat) : State :=
  match decodeTableWord nbits w with
  | some i =>
    if i.isHost then
      { s with env := ⟨false, [.write 0 (lanesOfWord (BitVec.ofNat 32 w))], false, []⟩ :: s.env }
    else
      { s with
        env := Ports.quiet :: s.env,
        status.busy := true,
        seq.cmdKind := .testPair,
        seq.prog := [fetchRow i],
        seq.upc := 0,
        seq.pos := .attempt }
  | none => { s with env := ⟨false, [.write 0 (lanesOfWord (BitVec.ofNat 32 w))], false, []⟩ :: s.env }

end Sys2Proof.Machine
end

