-- ==== Sys2Proof/Machine/Wire.lean ====
section
/-! DEFINITION. Wire.lean: the event lists that the micro-operations' rules give, and the wire view of an event history: one record per
clock pulse (20_memory.md R97). Observations only: no step of the machine reads them. -/

namespace Sys2Proof.Machine

/-- The events of one PULSE (40_link_driver.md R171). -/
def pulseEvents (clk : Pin) : List Event :=
  [.wrLvl clk .low, .sleep Config.tHalfUs, .wrLvl clk .high, .sleep Config.tHalfUs]

/-- The events of DRIVE b (40_link_driver.md R173). -/
def driveEvents (data : Pin) (b : Level) : List Event := [.setDir data .output, .wrLvl data b]

/-- The events of WBIT b (40_link_driver.md R177). -/
def writeBitEvents (clk data : Pin) (b : Level) : List Event := driveEvents data b ++ pulseEvents clk

/-- The events of the `k` bits i, i+1, ... of a WBITS (40_link_driver.md R179). -/
def writeLoopEvents (clk data : Pin) (v : BitVec 64) : Nat → Nat → List Event
  | 0, _ => []
  | k + 1, i => writeBitEvents clk data (bitLevel v i) ++ writeLoopEvents clk data v k (i + 1)

/-- The pad events of WBITS n, V (40_link_driver.md R179). -/
def writeBitsEvents (clk data : Pin) (n : Nat) (v : BitVec 64) : List Event := writeLoopEvents clk data v n 0

/-- The events of the samples of an RBITS that drew these levels (40_link_driver.md R182). -/
def readLoopEvents (clk data : Pin) (levels : List Level) : List Event :=
  levels.flatMap fun l => .rdLvl data l :: pulseEvents clk

/-- The pad events of an RBITS that drew these levels (40_link_driver.md R182). -/
def readBitsEvents (clk data : Pin) (levels : List Level) : List Event :=
  .setDir data .input :: (readLoopEvents clk data levels ++ driveEvents data .high)

/-- The levels that `k` samples of an RBITS draw, and the counter of free values after them: a sample is five block steps after the one
before it, and shows the level that something drives there, or that of an undriven pad (40_link_driver.md R182; 20_memory.md R93). -/
def drawLevels (data : Pin) : Nat → List Ports → Nat → List Level × Nat
  | 0, _, draws => ([], draws)
  | k + 1, env, draws =>
    match (env.headD Ports.quiet).padI data with
    | some l => (l :: (drawLevels data k (env.drop 5) draws).1, (drawLevels data k (env.drop 5) draws).2)
    | none =>
      (Config.undriven draws :: (drawLevels data k (env.drop 5) (draws + 1)).1, (drawLevels data k (env.drop 5) (draws + 1)).2)

/-- The events of `k` pulses. -/
def pulsesEvents (clk : Pin) : Nat → List Event
  | 0 => []
  | k + 1 => pulseEvents clk ++ pulsesEvents clk k

/-- The events of LRESET (40_link_driver.md R188). -/
def resetLineEvents (clk data : Pin) : List Event := driveEvents data .high ++ pulsesEvents clk Config.resetPulses

/-- The value whose bit i is the i-th of these levels (40_link_driver.md R182; 20_memory.md R99). -/
def valueOfLevels : List Level → BitVec 64
  | [] => 0
  | l :: ls => (BitVec.ofBool l.toBool).setWidth 64 ||| valueOfLevels ls <<< 1

/-- The trace events of a WBITS or RBITS: one record if VERBOSITY = 2, else none (10_state.md R60). -/
def traceEvents (v : Verbosity) (kind : TraceKind) (n : BitVec 7) (bits : BitVec 64) : List Event :=
  if v = .verbose then [.trace ⟨kind, n, bits⟩] else []

/-- The events of a WBITS of the program: its pad events, then its trace record (40_link_driver.md R179). -/
def sendEvents (clk data : Pin) (verb : Verbosity) (n : BitVec 7) (v : BitVec 64) : List Event :=
  writeBitsEvents clk data n.toNat v ++ traceEvents verb .tx n (lowBits n.toNat v)

/-- The events of TURN (40_link_driver.md R185). -/
def turnEvents (clk data : Pin) : List Event := .setDir data .input :: pulseEvents clk

/-- The events of the SWITCH stage (41_protocol_sequencer.md R221). -/
def switchEvents (clk data : Pin) (verb : Verbosity) (idleSel : Bool) : List Event :=
  sendEvents clk data verb 16 0xE79E ++ resetLineEvents clk data ++
    sendEvents clk data verb (bif idleSel then 8 else 4) 0

/-- The events of the DormantWake stage (41_protocol_sequencer.md R222). -/
def dormantEvents (clk data : Pin) (verb : Verbosity) : List Event :=
  sendEvents clk data verb 8 0xFF ++ sendEvents clk data verb 32 0x6209F392 ++ sendEvents clk data verb 32 0x86852D95 ++
    sendEvents clk data verb 32 0xE3DDAFE9 ++ sendEvents clk data verb 32 0x19BC0EA2 ++ sendEvents clk data verb 4 0 ++
    sendEvents clk data verb 8 0x1A ++ resetLineEvents clk data ++ sendEvents clk data verb 8 0

/-- The events of the IdCodeRequest stage whose samples drew these levels (41_protocol_sequencer.md R223). -/
def idCodeEvents (clk data : Pin) (verb : Verbosity) (levels : List Level) : List Event :=
  sendEvents clk data verb 8 0xA5 ++ turnEvents clk data ++ readBitsEvents clk data levels ++
    traceEvents verb .rx 36 (valueOfLevels levels) ++ turnEvents clk data ++ sendEvents clk data verb 8 0

/-- The events of an attempt whose samples drew these levels (41_protocol_sequencer.md R230). -/
def attemptEvents (clk data : Pin) (verb : Verbosity) (idleSel dormantWake : Bool) (levels : List Level) : List Event :=
  [.setDir clk .output, .wrLvl clk .high] ++ resetLineEvents clk data ++ switchEvents clk data verb idleSel ++
    (bif dormantWake then dormantEvents clk data verb else []) ++ idCodeEvents clk data verb levels ++
    [.setDir data .input, .setDir clk .input]

/-- The trace records of an attempt in verbose mode (41_protocol_sequencer.md R236; 10_state.md R60). -/
def attemptTrace (idleSel dormantWake : Bool) (levels : List Level) : List TraceRec :=
  [⟨.tx, 16, 0xE79E⟩, ⟨.tx, bif idleSel then 8 else 4, 0⟩] ++
    (bif dormantWake then
      [⟨.tx, 8, 0xFF⟩, ⟨.tx, 32, 0x6209F392⟩, ⟨.tx, 32, 0x86852D95⟩, ⟨.tx, 32, 0xE3DDAFE9⟩, ⟨.tx, 32, 0x19BC0EA2⟩, ⟨.tx, 4, 0⟩,
        ⟨.tx, 8, 0x1A⟩, ⟨.tx, 8, 0⟩]
    else []) ++
    [⟨.tx, 8, 0xA5⟩, ⟨.rx, 36, valueOfLevels levels⟩, ⟨.tx, 8, 0⟩]

/-- One cycle record of the wire view: the level the block drives at the rising edge, `none` if it has released the line, and the
sample taken before the pulse, if there is one (20_memory.md R97). -/
structure Cycle where
  drive : Option Level
  sample : Option Level
  deriving DecidableEq, Repr, Inhabited

/-- How much of the event run of a pulse has been seen: nothing, the falling edge, the low half-period, and the rising edge with what
the block drove at it (20_memory.md R97). -/
inductive PulsePhase where
  | none
  | fell
  | low
  | rose (drive : Option Level)
  deriving DecidableEq, Repr, Inhabited

/-- What the wire view carries from event to event: the data pad, the sample since the last pulse, the pulse in progress, and the
cycle records so far. -/
structure Wire where
  dir : Dir
  out : Level
  sample : Option Level
  phase : PulsePhase
  cycles : List Cycle
  deriving DecidableEq, Repr, Inhabited

/-- One event of the history on the wire of the pair (clk, data) (20_memory.md R97). In an attempt only ENTER makes clk Output, and no
sample from before it belongs to a pulse after it. -/
def Wire.next (clk data : Pin) (w : Wire) (e : Event) : Wire :=
  match e with
  | .setDir p d =>
    { w with
      dir := if p = data then d else w.dir,
      sample := if p = clk ∧ d = .output then none else w.sample,
      phase := .none }
  | .wrLvl p l =>
    if p = clk then
      match l, w.phase with
      | .low, _ => { w with phase := .fell }
      | .high, .low => { w with phase := .rose (if w.dir = .output then some w.out else none) }
      | .high, _ => { w with phase := .none }
    else { w with out := if p = data then l else w.out, phase := .none }
  | .rdLvl p l => { w with sample := if p = data then some l else w.sample, phase := .none }
  | .sleep _ =>
    match w.phase with
    | .fell => { w with phase := .low }
    | .rose drive => { w with cycles := w.cycles ++ [⟨drive, w.sample⟩], sample := none, phase := .none }
    | _ => { w with phase := .none }
  | .trace _ => w
  | .publish _ => w
  | .ended _ => w

/-- The wire after a run of events. -/
def Wire.run (clk data : Pin) (w : Wire) (events : List Event) : Wire := events.foldl (Wire.next clk data) w

/-- The wire of a data pad before any pulse. -/
def Wire.start (pad : Pad) : Wire := ⟨pad.dir, pad.out, none, .none, []⟩

/-- The wire view of a run of events: its clock pulses, in order (20_memory.md R97). -/
def wireView (clk data : Pin) (pad : Pad) (events : List Event) : List Cycle :=
  (Wire.run clk data (Wire.start pad) events).cycles

/-- The event history cut at the starts of its attempts (given newest first): each attempt's mark with its own events, oldest first. -/
def attemptSegments : List AttemptMark → List Event → List (AttemptMark × List Event)
  | [], _ => []
  | m :: older, history => attemptSegments older (history.take m.start) ++ [(m, history.drop m.start)]

/-- The wire view of each attempt of the history, on its own pair and with its pulses counted from 0 (20_memory.md R97). -/
def State.attemptViews (s : State) : List (AttemptMark × List Cycle) :=
  (attemptSegments s.attempts s.history).map fun (m, events) => (m, wireView m.clk m.data m.pad events)

/-- The wire view of the whole event history: its clock pulses, attempt by attempt (20_memory.md R97). -/
def State.wireView (s : State) : List Cycle := s.attemptViews.flatMap fun v => v.2

/-- Cycles in which the block drives the bits of a value, least-significant first (20_memory.md R99). -/
def driveCycles (v : BitVec 64) (n : Nat) : List Cycle := (List.range n).map fun i => ⟨some (bitLevel v i), none⟩

/-- Cycles in which the block samples these levels on a released line. -/
def sampleCycles (levels : List Level) : List Cycle := levels.map fun l => ⟨none, some l⟩

/-- A cycle on a released line without a sample. -/
def idleCycle : Cycle := ⟨none, none⟩

/-- The cycles of a line reset: High for RESET_PULSES pulses (40_link_driver.md R188). -/
def resetCycles : List Cycle := List.replicate Config.resetPulses ⟨some .high, none⟩

/-- The cycles of the DormantWake stage (41_protocol_sequencer.md R222, R235; 30_encoding.md R150). -/
def dormantCycles : List Cycle :=
  driveCycles 0xFF 8 ++ driveCycles 0x6209F392 32 ++ driveCycles 0x86852D95 32 ++ driveCycles 0xE3DDAFE9 32 ++
    driveCycles 0x19BC0EA2 32 ++ driveCycles 0 4 ++ driveCycles 0x1A 8 ++ resetCycles ++ driveCycles 0 8

/-- The wire view of an attempt that drew these 36 levels (41_protocol_sequencer.md R235). -/
def attemptCycles (idleSel dormantWake : Bool) (levels : List Level) : List Cycle :=
  resetCycles ++ driveCycles 0xE79E 16 ++ resetCycles ++ driveCycles 0 (idleBits idleSel) ++
    (bif dormantWake then dormantCycles else []) ++
    driveCycles 0xA5 8 ++ [idleCycle] ++ sampleCycles levels ++ [idleCycle] ++ driveCycles 0 8

end Sys2Proof.Machine
end

