-- ==== Sys2Proof/Safety.lean ====
section
/-! DEFINITION. Safety.lean: the terms of the claims: quiet inputs, the pair of an attempt, and the invariants of the machine. -/

namespace Sys2Proof.Machine

/-- No reset, no host access and no pad fault is to come; the levels of the samples are free. -/
def Quiet (env : List Ports) : Prop := ∀ p ∈ env, p.rst = false ∧ p.host = [] ∧ p.pinFault = false

/-- No reset pulse is to come. -/
def NoReset (env : List Ports) : Prop := ∀ p ∈ env, p.rst = false

/-- No host access is to come. -/
def NoHost (env : List Ports) : Prop := ∀ p ∈ env, p.host = []

/-- No pad fault is to come. -/
def NoPinFault (env : List Ports) : Prop := ∀ p ∈ env, p.pinFault = false

/-- Every host access to come is one that the window serves: 32 bits wide, aligned, inside the window (20_memory.md R101). -/
def ServedAccess : Access → Prop
  | .read offset width => accessRefusal offset width = none
  | .write offset lanes => accessRefusal offset lanes.length = none

/-- Every host access to come is served. -/
def ServedHost (env : List Ports) : Prop := ∀ p ∈ env, ∀ a ∈ p.host, ServedAccess a

/-- Both pins of the attempt's pair are pads of the block (20_memory.md R98). -/
def PairInRange (s : State) : Prop := s.cur.clk.toNat < s.pinCount ∧ s.cur.data.toNat < s.pinCount

/-- A port sample is to come, and it shows no reset. -/
def Ready (s : State) : Prop := ∃ p rest, s.env = p :: rest ∧ p.rst = false

/-- `s` with one more host access due, before those that are due already (20_memory.md R109). -/
def State.withAccess (s : State) (a : Access) : State :=
  match s.env with
  | [] => { s with env := [{ Ports.quiet with host := [a] }] }
  | p :: rest => { s with env := { p with host := a :: p.host } :: rest }

/-- A 32-bit write of a word to CMD (30_encoding.md R130). -/
def cmdWrite (w : Word) : Access := .write 0x00 (lanesOfWord w)

/-- Neither a reset nor a host access is due: the next step is the block's own. -/
def BlockTurn (s : State) : Prop := ∀ p ∈ s.env.head?, p.rst = false ∧ p.host = []

/-- Whether a command requires bit i of its word to be 0, by OP: RSV0 and RSV1 always; of A, CONFIGURE has five flag bits and TEST_PAIR a
pin; of B, TEST_PAIR has a pin (30_encoding.md R130 to R135). -/
def mustBeZero (op i : Nat) : Bool :=
  decide (4 ≤ i ∧ i ≤ 7) || decide (24 ≤ i) || (decide (op = 1) && decide (13 ≤ i)) ||
    (decide (op ≠ 1 ∧ op ≠ 3) && decide (8 ≤ i))

/-- The code of the first check of a CMD write that fails, `ok` if none does (60_exceptions.md R303), on the bits of the word. -/
def firstFailing (w : Word) (s : State) : ErrCode :=
  let op := (w.extractLsb' 0 4).toNat
  let a := w.extractLsb' 8 8
  let b := w.extractLsb' 16 8
  if op = 0 ∨ 6 ≤ op then .illegalCmd
  else if ((List.range 32).any fun i => mustBeZero op i && w.getLsbD i) ∨ (op = 1 ∧ w.extractLsb' 9 2 = 3) then .badField
  else if op ≤ 3 ∧ s.status.busy = true then .busy
  else if op = 1 ∧ ((List.range 64).any fun i => decide (s.pinCount ≤ i) && (argMask s).getLsbD i) then .badMask
  else if op = 3 ∧ a = b then .badPinSame
  else if op = 3 ∧ (s.pinCount ≤ a.toNat ∨ s.pinCount ≤ b.toNat) then .badPinRange
  else if op = 4 ∧ s.status.rvalid = false then .noResult
  else .ok

/-- Every WrLvl of a run of events is on a pad that is then Output, and every RdLvl on one that is then Input (40_link_driver.md R192). -/
def DirectionValid : List Pad → List Event → Prop
  | _, [] => True
  | pads, .setDir p d :: es => DirectionValid (pads.modify p.toNat fun pad => { pad with dir := d }) es
  | pads, .wrLvl p _ :: es => (pads[p.toNat]?).map (·.dir) = some .output ∧ DirectionValid pads es
  | pads, .rdLvl p _ :: es => (pads[p.toNat]?).map (·.dir) = some .input ∧ DirectionValid pads es
  | pads, .sleep _ :: es => DirectionValid pads es
  | pads, .trace _ :: es => DirectionValid pads es
  | pads, .publish _ :: es => DirectionValid pads es
  | pads, .ended _ :: es => DirectionValid pads es

/-- What the position of the running command says of the rest of the state (42_scanner_commands.md R261, R265;
41_protocol_sequencer.md R210, R230, R231). -/
def PosInv (s : State) : Prop :=
  match s.seq.pos with
  | .idle => s.status.busy = false ∧ s.seq.cmdKind = .none ∧ s.cur.active = false ∧ s.status.rvalid = false
  | .first => s.status.busy = true ∧ s.seq.cmdKind = .scan ∧ s.cur.active = false ∧ s.status.rvalid = false
  | .advance => s.status.busy = true ∧ s.seq.cmdKind = .scan ∧ s.cur.active = false ∧ s.status.rvalid = false
  | .begin c d =>
    s.status.busy = true ∧ s.seq.cmdKind ≠ .none ∧ s.cur.active = false ∧ s.status.rvalid = false ∧
      c ≠ d ∧ c.toNat < s.pinCount ∧ d.toNat < s.pinCount
  | .attempt =>
    s.status.busy = true ∧ s.seq.cmdKind ≠ .none ∧ s.status.rvalid = false ∧
      s.cur.clk ≠ s.cur.data ∧ PairInRange s ∧
      s.seq.prog = program s.config.idleSel s.config.dormantWake ∧
      s.seq.upc.toNat ≤ s.seq.prog.length ∧
      (s.cur.active = true ↔ 0 < s.seq.upc.toNat ∧ s.seq.upc.toNat < s.seq.prog.length)
  | .waitPop => s.status.busy = true ∧ s.seq.cmdKind ≠ .none ∧ s.cur.active = false

/-- The invariant of the machine: PIN_COUNT is legal (00_scope.md R9), the configuration is consistent (10_state.md R42, R43), a pending
cancel and END = NONE go with a running command (R51, R52), the bit and pulse counts stay in their ranges (R59), and the position of the
running command agrees with BUSY, RVALID, CMDKIND, ACTIVE, PROG and the pair (10_state.md R48, R49; 42_scanner_commands.md R271). -/
structure Inv (s : State) : Prop where
  pinCount : 2 ≤ s.pinCount ∧ s.pinCount ≤ 64
  maskInRange : ∀ i, s.pinCount ≤ i → s.config.mask.getLsbD i = false
  maxPin : s.config.maxPin = maxPinOf s.config.mask
  cancel : s.status.cancelPending = true → s.status.busy = true
  running : s.status.busy = true → s.status.endCode = .none
  bitCnt : s.seq.bitCnt.toNat ≤ Config.srWidth
  pcnt : s.seq.pcnt.toNat ≤ Config.resetPulses
  pos : PosInv s

/-- The pads between two steps of a run without pad faults: outside an attempt every pad is Input; inside one, every pad but the pair
is Input, and the clock pad is driven and rests High (10_state.md R34; 40_link_driver.md R172). -/
structure PadInv (s : State) : Prop where
  noPinFault : NoPinFault s.env
  released : s.cur.active = false → ∀ (i : Nat) (pad : Pad), s.pads[i]? = some pad → pad.dir = .input
  others :
    ∀ (i : Nat) (pad : Pad), s.pads[i]? = some pad → i ≠ s.cur.clk.toNat → i ≠ s.cur.data.toNat → pad.dir = .input
  clock : s.cur.active = true → s.pads[s.cur.clk.toNat]? = some ⟨.output, .high⟩

end Sys2Proof.Machine
end

