-- ==== Sys2Proof/Certificates/Slice0/Obligations.lean ====
section
/-! DEFINITION. Obligations.lean: the statements for the provers. Each docstring names the rule of spec/ that its statement formalises. -/

open Sys2Proof Sys2Proof.Machine

/-! ## Encoding and decoding -/

/-- 30_encoding.md R130 to R137: the word of every host command decodes to that command. -/
def Obligations.HostCommandsDecodeToThemselves : Prop :=
  ∀ i : Instr, i.isHost = true → ∃ w, encode i = [w] ∧ decodeHost w = .ok i

/-- 30_encoding.md R140 to R146: the words of every legal micro-operation, whatever words follow them, decode to that micro-operation and
leave the words that follow. -/
def Obligations.MicroOpsDecodeToThemselves : Prop :=
  ∀ (i : Instr) (after : List Word), i.isHost = false → i.wellFormed = true → decodeUop (encode i ++ after) = .ok (i, after)

/-- 30_encoding.md R132, R135, R143: no bit is dropped: what a decoder accepts is the encoding of what it answers, and is legal. -/
def Obligations.DecodedWordsEncodeBack : Prop :=
  (∀ (w : Word) (i : Instr), decodeHost w = .ok i → i.isHost = true ∧ encode i = [w]) ∧
    ∀ (ws after : List Word) (i : Instr),
      decodeUop ws = .ok (i, after) → i.isHost = false ∧ i.wellFormed = true ∧ ws = encode i ++ after

/-- 30_encoding.md R137, R145: words written out from the encoding tables decode to the instructions they stand for. -/
def Obligations.WrittenOutWordsDecode : Prop :=
  decodeHost 0x00001501 = .ok (.configure true .verbose false true) ∧
    decodeHost 0x00030203 = .ok (.testPair 2 3) ∧
    decodeHost 0x00000012 = .error .badField ∧
    decodeHost 0x00000006 = .error .illegalCmd ∧
    decodeUop [0x00001005, 0x0000E79E, 0x00000000] = .ok (.wbits 16 0xE79E, []) ∧
    decodeUop [0x00002406] = .ok (.rbits 36, []) ∧
    decodeUop [0x00000012] = .ok (.drive .high, []) ∧
    decodeUop [0x0000000C] = .error .reservedUop

/-- 30_encoding.md R144: words with a reserved UOP, or with a bit outside R143, are no micro-operation. -/
def Obligations.IllegalMicroOpWordsAreInvalid : Prop :=
  ∀ (w : Word) (after : List Word),
    ((w.extractLsb' 0 4).toNat = 0 ∨ 12 ≤ (w.extractLsb' 0 4).toNat ∨ (∃ i, 5 ≤ i ∧ i ≤ 7 ∧ w.getLsbD i = true) ∨
        (∃ i, 15 ≤ i ∧ i < 32 ∧ w.getLsbD i = true) ∨
        (((w.extractLsb' 0 4).toNat ≠ 2 ∧ (w.extractLsb' 0 4).toNat ≠ 4) ∧ w.getLsbD 4 = true) ∨
        (((w.extractLsb' 0 4).toNat ≠ 5 ∧ (w.extractLsb' 0 4).toNat ≠ 6) ∧ w.extractLsb' 8 7 ≠ 0) ∨
        64 < (w.extractLsb' 8 7).toNat) →
      ∃ e, decodeUop (w :: after) = .error e

/-! ## The step -/

/-- 42_scanner_commands.md R250 and 41_protocol_sequencer.md R230, R231: a step runs the instruction that the decoder reads: a host
command from the word written to CMD, by the host access that is due; a micro-operation from the row of PROG at upc, with STAGE at the
row's value, when the block has its turn in an attempt.
The port samples and the position of the command are the model's (logs 1 and 3). -/
def Obligations.StepRunsTheDecodedInstruction : Prop :=
  (∀ (s : State) (w : Word) (i : Instr),
      Ready s → decodeHost w = .ok i → step (s.withAccess (cmdWrite w)) = exec i s) ∧
    ∀ (s : State) (row : ProgRow) (i : Instr),
      BlockTurn s → s.seq.pos = .attempt → s.seq.prog[s.seq.upc.toNat]? = some row → decodeUop row.words = .ok (i, []) →
        step s = exec i { s with cur.stage := row.stage }

/-- 30_encoding.md R144: "the model must refuse (not execute) an invalid word": a row of PROG whose words are no micro-operation is
refused, and so is a WBITS or RBITS with N above 64. -/
def Obligations.InvalidMicroOpsAreRefused : Prop :=
  (∀ (s : State) (row : ProgRow) (e : UopError),
      BlockTurn s → s.seq.pos = .attempt → s.seq.prog[s.seq.upc.toNat]? = some row → decodeUop row.words = .error e →
        step s = .refused .illegalMicroOp) ∧
    ∀ (s : State) (n : BitVec 7) (v : BitVec 64),
      64 < n.toNat → exec (.wbits n v) s = .refused .illegalMicroOp ∧ exec (.rbits n) s = .refused .illegalMicroOp

/-! ## Reset -/

/-- 70_reset_and_hazards.md R340, R341: a reset pulse in any state gives every state element its reset value, releases every pad
without an event, and publishes and ends nothing. (That the inputs to come and the observations stay is log 8, the model's.) -/
def Obligations.ResetPulseFromAnyState : Prop :=
  ∀ (s : State) (p : Ports) (rest : List Ports),
    s.env = p :: rest → p.rst = true → p.host = [] →
      ∃ t, step s = .next t ∧
        t.pads = List.replicate s.pinCount ⟨.input, .high⟩ ∧
        t.config = { mask := 0, maxPin := 0, breakOnHit := false, verbosity := .normal, dormantWake := false, idleSel := true } ∧
        t.staging = { argMaskLo := 0, argMaskHi := 0 } ∧
        t.status =
          { busy := false, rvalid := false, matchedAny := false, cancelPending := false, endCode := .none, err := .ok } ∧
        t.result = { clk := 0, data := 0, matched := false, raw := 0, count := 0 } ∧
        t.cur = { clk := 0, data := 0, active := false, stage := .none } ∧
        t.seq =
          { cmdKind := .none, iterClk := 0, iterData := 0, upc := 0, prog := [], sr := 0, bitCnt := 0, pcnt := 0, timer := 0,
            rawReg := 0, matchReg := false, pos := .idle } ∧
        t.phase = 0 ∧ t.history = s.history ∧ t.attempts = s.attempts ∧ t.reads = s.reads ∧ t.env = rest

/-- 70_reset_and_hazards.md R341: a reset at the k-th block step of a line reset stops the running command at once: the pad events
before it stand, and none follows: no SetDir, no trace record, no result, no End. -/
def Obligations.ResetStopsALineReset : Prop :=
  ∀ (s : State) (k : Nat) (p : Ports) (rest : List Ports),
    Quiet (s.env.take k) → s.env.drop k = p :: rest → p.rst = true → p.host = [] → PairInRange s → k < 258 →
      ∃ t, exec .lreset s = .next t ∧
        t.pads = List.replicate s.pinCount ⟨.input, .high⟩ ∧ t.status = Status.reset ∧ t.config = ScanConfig.reset ∧
        t.cur = Current.reset ∧ t.seq = Sequencer.reset ∧ t.result = ResultBuffer.reset ∧ t.staging = Staging.reset ∧
        t.history = s.history ++ (resetLineEvents s.cur.clk s.cur.data).take k

/-- 70_reset_and_hazards.md R342: while rst is 1 host writes are ignored and host reads return the reset values.
`reads` is the model's record of the read data; that it and the history outlive a reset is log 8. -/
def Obligations.AccessesDuringReset : Prop :=
  ∀ (s : State) (p : Ports) (rest : List Ports) (writeOffset readOffset : Nat) (b0 b1 b2 b3 : Byte),
    s.env = p :: rest → p.rst = true → p.host = [.write writeOffset [b0, b1, b2, b3], .read readOffset 4] →
      writeOffset % 4 = 0 → writeOffset < 64 → readOffset % 4 = 0 → readOffset < 64 →
        ∃ t, step s = .next t ∧
          t.reads = s.reads ++ [lanesOfWord (if readOffset = 0x10 then 0x12 else 0)] ∧
          t.staging = Staging.reset ∧ t.status = Status.reset ∧ t.config = ScanConfig.reset ∧ t.seq = Sequencer.reset ∧
          t.cur = Current.reset ∧ t.result = ResultBuffer.reset ∧
          t.pads = List.replicate s.pinCount ⟨.input, .high⟩ ∧ t.history = s.history

/-- 70_reset_and_hazards.md R343: after reset, and whenever no command runs, the block does nothing of its own.
The position `idle` and the passing of a port sample are the model's (logs 3 and 1). -/
def Obligations.IdleBlockDoesNothing : Prop :=
  State.reset.seq.pos = .idle ∧
    ∀ s : State, BlockTurn s → s.seq.pos = .idle → step s = .next { s with env := s.env.drop 1 }

/-! ## The register window -/

/-- 20_memory.md R100, R104: an aligned 32-bit read of the window, which a host does at the byte address REG_BASE + offset (00_scope.md R9,
R12), returns the word of its offset and has no other effect.
`reads` is the model's record of the read data (log 1). -/
def Obligations.ReadsHaveNoSideEffect : Prop :=
  ∀ (s : State) (offset : Nat),
    Ready s → offset % 4 = 0 → offset < 64 →
      regRead (Config.regBase + offset) = some (.read offset 4) ∧
        step (s.withAccess (.read offset 4)) = .next { s with reads := s.reads ++ [lanesOfWord (s.readWord offset)] }

/-- 20_memory.md R102: the byte lanes of a returned word: lane j carries bits 8j+7 to 8j. -/
def Obligations.ByteLanesAreLittleEndian : Prop :=
  ∀ (w : Word) (b0 b1 b2 b3 : Byte) (k : Nat), k < 8 →
    (wordOfLanes [b0, b1, b2, b3]).getLsbD k = b0.getLsbD k ∧
      (wordOfLanes [b0, b1, b2, b3]).getLsbD (8 + k) = b1.getLsbD k ∧
      (wordOfLanes [b0, b1, b2, b3]).getLsbD (16 + k) = b2.getLsbD k ∧
      (wordOfLanes [b0, b1, b2, b3]).getLsbD (24 + k) = b3.getLsbD k ∧
      wordOfLanes (lanesOfWord w) = w

/-- 20_memory.md R101 and 93_implementation_defined.md item 16: an access that is not 32 bits wide, or not at a multiple of 4, is
refused. -/
def Obligations.UnservedAccessesAreRefused : Prop :=
  ∀ (s : State) (offset width : Nat) (lanes : List Byte),
    Ready s → width ≠ 4 ∨ offset % 4 ≠ 0 → lanes.length = width →
      (∃ r, step (s.withAccess (.read offset width)) = .refused r) ∧ ∃ r, step (s.withAccess (.write offset lanes)) = .refused r

/-- 20_memory.md R103, R104: a write to a read-only register or a reserved offset changes no state (it does not write ERR). -/
def Obligations.ReadOnlyWritesAreIgnored : Prop :=
  ∀ (s : State) (offset : Nat) (b0 b1 b2 b3 : Byte),
    Ready s → offset % 4 = 0 → offset < 64 → offset ≠ 0 → offset ≠ 0x08 → offset ≠ 0x0C →
      step (s.withAccess (.write offset [b0, b1, b2, b3])) = .next s

/-- 10_state.md R45: ARG_MASK_LO and ARG_MASK_HI are written as given, at the byte addresses REG_BASE + 0x08 and REG_BASE + 0x0C
(20_memory.md R100), and read back as written, whether or not a command runs, and nothing else changes. -/
def Obligations.StagingRegistersHoldWhatIsWritten : Prop :=
  ∀ (s : State) (w : Word), Ready s →
    regWrite (Config.regBase + 0x08) w = some (.write 0x08 (lanesOfWord w)) ∧
      regWrite (Config.regBase + 0x0C) w = some (.write 0x0C (lanesOfWord w)) ∧
      (∃ t, step (s.withAccess (.write 0x08 (lanesOfWord w))) = .next t ∧ t.readWord 0x08 = w ∧
        t = { s with staging := { s.staging with argMaskLo := w } }) ∧
      ∃ t, step (s.withAccess (.write 0x0C (lanesOfWord w))) = .next t ∧ t.readWord 0x0C = w ∧
        t = { s with staging := { s.staging with argMaskHi := w } }

/-- 10_state.md R47, R52 to R54: the fields of STATUS. -/
def Obligations.StatusRegisterFields : Prop :=
  ∀ s : State,
    (s.readWord 0x04).getLsbD 0 = s.status.busy ∧
      (s.readWord 0x04).getLsbD 1 = s.status.rvalid ∧
      (s.readWord 0x04).getLsbD 2 = s.status.matchedAny ∧
      (s.readWord 0x04).getLsbD 3 = s.status.cancelPending ∧
      (s.readWord 0x04).extractLsb' 4 3 =
        (match s.status.endCode with
          | .none => 0
          | .complete => 1
          | .hit => 2
          | .cancelled => 3
          | .fault => 4) ∧
      (s.readWord 0x04).getLsbD 7 = false ∧
      (s.readWord 0x04).extractLsb' 8 4 =
        (match s.status.err with
          | .ok => 0
          | .illegalCmd => 1
          | .badField => 2
          | .busy => 3
          | .noResult => 4
          | .badMask => 5
          | .badPinSame => 6
          | .badPinRange => 7
          | .hliFault => 8) ∧
      (s.readWord 0x04).extractLsb' 12 2 =
        (if s.cur.active = true then 1 else if s.status.busy = true ∧ s.status.rvalid = true then 2 else 0) ∧
      (s.readWord 0x04).extractLsb' 14 18 = 0

/-- 10_state.md R36, R42: the fields of CFG, CFG_MASK_LO and CFG_MASK_HI. -/
def Obligations.ConfigurationRegisterFields : Prop :=
  ∀ s : State,
    (s.readWord 0x10).getLsbD 0 = s.config.breakOnHit ∧
      (s.readWord 0x10).extractLsb' 1 2 =
        (match s.config.verbosity with
          | .quiet => 0
          | .normal => 1
          | .verbose => 2) ∧
      (s.readWord 0x10).getLsbD 3 = s.config.dormantWake ∧
      (s.readWord 0x10).getLsbD 4 = s.config.idleSel ∧
      (s.readWord 0x10).extractLsb' 5 3 = 0 ∧
      (s.readWord 0x10).extractLsb' 8 8 = s.config.maxPin ∧
      (s.readWord 0x10).extractLsb' 16 16 = 0 ∧
      s.readWord 0x18 ++ s.readWord 0x14 = s.config.mask

/-- 10_state.md R57 and 30_encoding.md R155: the fields of the result registers. -/
def Obligations.ResultRegisterFields : Prop :=
  ∀ s : State,
    (s.readWord 0x1C).extractLsb' 0 8 = s.result.clk ∧
      (s.readWord 0x1C).extractLsb' 8 8 = s.result.data ∧
      (s.readWord 0x1C).getLsbD 16 = s.result.matched ∧
      (s.readWord 0x1C).extractLsb' 17 15 = 0 ∧
      s.readWord 0x20 = s.result.raw.extractLsb' 0 32 ∧
      (s.readWord 0x24).extractLsb' 0 4 = s.result.raw.extractLsb' 32 4 ∧
      (s.readWord 0x24).extractLsb' 4 28 = 0 ∧
      ((s.readWord 0x28).extractLsb' 0 3).toNat = s.result.raw.toNat % 8 ∧
      (s.readWord 0x28).getLsbD 3 = false ∧
      ((s.readWord 0x28).extractLsb' 4 11).toNat = s.result.raw.toNat / 16 % 0x800 ∧
      ((s.readWord 0x28).extractLsb' 15 16).toNat = s.result.raw.toNat / 0x8000 % 0x10000 ∧
      (s.readWord 0x28).getLsbD 31 = s.result.raw.getLsbD 35 ∧
      s.readWord 0x2C = s.result.count

/-- 10_state.md R58, R46 and 20_memory.md R103: the fields of CUR_PAIR; CMD and the reserved offsets read 0. -/
def Obligations.CurrentPairRegisterFields : Prop :=
  ∀ s : State,
    (s.readWord 0x30).extractLsb' 0 8 = s.cur.clk ∧
      (s.readWord 0x30).extractLsb' 8 8 = s.cur.data ∧
      (s.readWord 0x30).getLsbD 16 = s.cur.active ∧
      (s.readWord 0x30).extractLsb' 17 3 =
        (match s.cur.stage with
          | .none => 0
          | .lineReset => 1
          | .jtagToSwdSwitch => 2
          | .dormantWake => 3
          | .idCodeRequest => 4
          | .decodeMatch => 5
          | .exit => 6) ∧
      (s.readWord 0x30).extractLsb' 20 12 = 0 ∧
      s.readWord 0x00 = 0 ∧ s.readWord 0x34 = 0 ∧ s.readWord 0x38 = 0 ∧ s.readWord 0x3C = 0

/-! ## Host commands -/

/-- 60_exceptions.md R303, R301 and 42_scanner_commands.md R250: a CMD write always completes in one step, sets ERR to the code of the
first check that fails, and, if one fails, changes nothing else. -/
def Obligations.CommandChecksRunInOrder : Prop :=
  ∀ (s : State) (w : Word), Ready s →
    ∃ t, step (s.withAccess (cmdWrite w)) = .next t ∧ t.status.err = firstFailing w s ∧
      (firstFailing w s ≠ .ok → t = { s with status := { s.status with err := firstFailing w s } })

/-- 42_scanner_commands.md R255, R257: an accepted CONFIGURE writes the configuration and ERR, and nothing else. -/
def Obligations.ConfigureWritesTheConfiguration : Prop :=
  ∀ (s : State) (boh dorm idle : Bool) (verb : Verbosity),
    s.status.busy = false → (∀ i, s.pinCount ≤ i → (argMask s).getLsbD i = false) →
      ∃ t, exec (.configure boh verb dorm idle) s = .next t ∧
        (∀ i, i < 32 → t.config.mask.getLsbD i = s.staging.argMaskLo.getLsbD i) ∧
        (∀ i, i < 32 → t.config.mask.getLsbD (32 + i) = s.staging.argMaskHi.getLsbD i) ∧
        (t.config.mask = 0 → t.config.maxPin = 0) ∧
        (∀ i, t.config.mask.getLsbD i = true → (∀ j, i < j → t.config.mask.getLsbD j = false) →
          t.config.maxPin.toNat = i + 1) ∧
        t.config.breakOnHit = boh ∧ t.config.verbosity = verb ∧ t.config.dormantWake = dorm ∧ t.config.idleSel = idle ∧
        t = { s with config := t.config, status := { s.status with err := .ok } }

/-- 42_scanner_commands.md R257 and 10_state.md R48: CONFIGURE is refused with BUSY while a command runs, else with BAD_MASK if the
staged mask has a bit at or above PIN_COUNT; either way the configuration is unchanged, and only ERR is written. -/
def Obligations.ConfigureIsRefused : Prop :=
  ∀ (s : State) (boh dorm idle : Bool) (verb : Verbosity),
    (s.status.busy = true →
        exec (.configure boh verb dorm idle) s = .next { s with status := { s.status with err := .busy } }) ∧
      (s.status.busy = false → (∃ i, s.pinCount ≤ i ∧ (argMask s).getLsbD i = true) →
        exec (.configure boh verb dorm idle) s = .next { s with status := { s.status with err := .badMask } })

/-- 42_scanner_commands.md R258: two accepted CONFIGURE commands with the same staged mask and the same word leave the same
configuration registers, whatever the states between them. -/
def Obligations.ConfigureIsIdempotent : Prop :=
  ∀ (s t u v : State) (boh dorm idle : Bool) (verb : Verbosity),
    exec (.configure boh verb dorm idle) s = .next t → t.status.err = .ok →
      u.staging = s.staging → exec (.configure boh verb dorm idle) u = .next v → v.status.err = .ok →
        s.status.busy = false → u.status.busy = false → u.pinCount = s.pinCount →
          v.readWord 0x10 = t.readWord 0x10 ∧ v.readWord 0x14 = t.readWord 0x14 ∧ v.readWord 0x18 = t.readWord 0x18

/-- 42_scanner_commands.md R259 and 10_state.md R48: SCAN is accepted while no command runs, and refused with BUSY while one does.
The position of the command, here `first`, is the model's (log 3), and so is that the old result stays readable (log 22). -/
def Obligations.ScanIsAcceptedOrBusy : Prop :=
  ∀ s : State,
    (s.status.busy = false →
        ∃ t, exec .scan s = .next t ∧
          t.status =
            { busy := true, rvalid := false, matchedAny := false, cancelPending := false, endCode := .none, err := .ok } ∧
          t.result = { s.result with count := 0 } ∧ t.seq = { s.seq with cmdKind := .scan, pos := t.seq.pos } ∧
          t.seq.pos = .first ∧ t.pads = s.pads ∧ t.config = s.config ∧ t.staging = s.staging ∧ t.cur = s.cur ∧
          t.env = s.env ∧ t.history = s.history ∧ t.attempts = s.attempts ∧ t.reads = s.reads ∧ t.draws = s.draws) ∧
      (s.status.busy = true → exec .scan s = .next { s with status := { s.status with err := .busy } })

/-- 42_scanner_commands.md R265, R266: TEST_PAIR is accepted on two different pins below PIN_COUNT while no command runs; its attempt
is then the next step; it is refused with BUSY, then BAD_PIN_SAME, then BAD_PIN_RANGE.
The position of the command, here `begin c d`, is the model's (log 3), and so is that the old result stays readable (log 22). -/
def Obligations.TestPairIsAcceptedOrRefused : Prop :=
  ∀ (s : State) (c d : Pin),
    (s.status.busy = false → c ≠ d → c.toNat < s.pinCount → d.toNat < s.pinCount →
        ∃ t, exec (.testPair c d) s = .next t ∧
          t.status =
            { busy := true, rvalid := false, matchedAny := false, cancelPending := false, endCode := .none, err := .ok } ∧
          t.result = { s.result with count := 0 } ∧ t.seq = { s.seq with cmdKind := .testPair, pos := t.seq.pos } ∧
          t.seq.pos = .begin c d ∧ t.pads = s.pads ∧ t.config = s.config ∧ t.staging = s.staging ∧ t.cur = s.cur ∧
          t.env = s.env ∧ t.history = s.history ∧ t.attempts = s.attempts ∧ t.reads = s.reads ∧ t.draws = s.draws) ∧
      (s.status.busy = true → exec (.testPair c d) s = .next { s with status := { s.status with err := .busy } }) ∧
      (s.status.busy = false → c = d →
        exec (.testPair c d) s = .next { s with status := { s.status with err := .badPinSame } }) ∧
      (s.status.busy = false → c ≠ d → s.pinCount ≤ c.toNat ∨ s.pinCount ≤ d.toNat →
        exec (.testPair c d) s = .next { s with status := { s.status with err := .badPinRange } })

/-- 42_scanner_commands.md R267: POP clears RVALID and nothing of the result, whether or not a command runs; without a result it is
refused with NO_RESULT. -/
def Obligations.PopAcknowledgesTheResult : Prop :=
  ∀ s : State,
    (s.status.rvalid = true →
        exec .pop s = .next { s with status := { s.status with rvalid := false, err := .ok } }) ∧
      (s.status.rvalid = false → exec .pop s = .next { s with status := { s.status with err := .noResult } })

/-- 42_scanner_commands.md R268: CANCEL is accepted always; it sets CANCEL_PENDING if a command runs, and has no effect if none does. -/
def Obligations.CancelMarksARunningCommand : Prop :=
  ∀ s : State,
    (s.status.busy = true →
        exec .cancel s = .next { s with status := { s.status with cancelPending := true, err := .ok } }) ∧
      (s.status.busy = false → exec .cancel s = .next { s with status := { s.status with err := .ok } })

/-- 10_state.md R43: maxPin(m) is 0 for m = 0, else 1 + the greatest index of a bit that is set. -/
def Obligations.MaxPinIsHighestBitPlusOne : Prop :=
  maxPinOf 0 = 0 ∧
    ∀ m : BitVec 64, m ≠ 0 →
      ∃ i, i < 64 ∧ m.getLsbD i = true ∧ (∀ j, i < j → m.getLsbD j = false) ∧ (maxPinOf m).toNat = i + 1

/-- 20_memory.md R109, 70_reset_and_hazards.md R350 and 60_exceptions.md R301: host accesses that land while an attempt runs change
nothing but ARG_MASK, ERR, CANCEL_PENDING and what the register port has returned.
`reads` is the model's record of the read data (log 1). -/
def Obligations.HostCannotDisturbAnAttempt : Prop :=
  ∀ (s t : State) (accesses : List Access),
    s.status.busy = true → s.status.rvalid = false → serve accesses s = .next t →
      t = { s with staging := t.staging, status := { s.status with err := t.status.err, cancelPending := t.status.cancelPending },
                   reads := t.reads }

/-! ## Micro-operations of the link driver -/

/-- 40_link_driver.md R171: PULSE.
The port samples are the model's (log 1), and so is TIMER = 0 after a Sleep (log 7). -/
def Obligations.PulseResult : Prop :=
  ∀ s : State, Quiet s.env → PairInRange s →
    exec .pulse s = .next
      { s with
        pads := s.pads.modify s.cur.clk.toNat fun pad => { pad with out := .high },
        seq := { s.seq with timer := 0, upc := s.seq.upc + 1 },
        env := s.env.drop 4,
        history := s.history ++
          [.wrLvl s.cur.clk .low, .sleep 250, .wrLvl s.cur.clk .high, .sleep 250] }

/-- 40_link_driver.md R173, R175: DRIVE b and RELEASE. 20_memory.md R96: from the SetDir event of a drive on, before its WrLvl, the pin drives
the new level.
The port samples are the model's (log 1). -/
def Obligations.DriveAndReleaseResults : Prop :=
  ∀ s : State, Quiet s.env → PairInRange s →
    (∀ b : Level, exec (.drive b) s = .next
      { s with
        pads := s.pads.modify s.cur.data.toNat fun _ => ⟨.output, b⟩,
        seq := { s.seq with upc := s.seq.upc + 1 },
        env := s.env.drop 2,
        history := s.history ++ [.setDir s.cur.data .output, .wrLvl s.cur.data b] }) ∧
      exec .release s = .next
        { s with
          pads := s.pads.modify s.cur.data.toNat fun pad => { pad with dir := .input },
          seq := { s.seq with upc := s.seq.upc + 1 },
          env := s.env.drop 1,
          history := s.history ++ [.setDir s.cur.data .input] } ∧
      ∀ (p : Pin) (l : Level), p.toNat < s.pinCount →
        ∃ t, setDirDriving p l s = .go () t ∧ driveLine p l s = wrLvl p l t ∧ t.history = s.history ++ [.setDir p .output] ∧
          t.padOe p = true ∧ t.padO p = decide (l = .high) ∧ ∀ j, j ≠ p.toNat → t.pads[j]? = s.pads[j]?

/-- 40_link_driver.md R177, R185: WBIT b and TURN.
The port samples are the model's (log 1), and so is TIMER = 0 after a Sleep (log 7). -/
def Obligations.WriteBitAndTurnResults : Prop :=
  ∀ s : State, Quiet s.env → PairInRange s →
    (∀ b : Level, exec (.wbit b) s = .next
      { s with
        pads :=
          (s.pads.modify s.cur.data.toNat fun _ => ⟨.output, b⟩).modify s.cur.clk.toNat fun pad => { pad with out := .high },
        seq := { s.seq with timer := 0, upc := s.seq.upc + 1 },
        env := s.env.drop 6,
        history := s.history ++ ([.setDir s.cur.data .output, .wrLvl s.cur.data b] ++ pulseEvents s.cur.clk) }) ∧
      exec .turn s = .next
        { s with
          pads :=
            (s.pads.modify s.cur.data.toNat fun pad => { pad with dir := .input }).modify s.cur.clk.toNat
              fun pad => { pad with out := .high },
          seq := { s.seq with timer := 0, upc := s.seq.upc + 1 },
          env := s.env.drop 5,
          history := s.history ++ (.setDir s.cur.data .input :: pulseEvents s.cur.clk) }

/-- 40_link_driver.md R179: WBITS n, V sends V[0], V[1], ..., V[n-1] in that order, one WBIT each, sets SR to those bits and nothing
above them, leaves the data pad Output at V[n-1] if n ≥ 1 and as it was if n = 0, and emits its trace record last, in verbose mode only.
(BITCNT is log 7, the model's.)
The port samples are the model's (logs 1 and 21), and so are BITCNT = n and TIMER = 0 at the end (log 7). -/
def Obligations.WriteBitsResult : Prop :=
  ∀ (s : State) (n : BitVec 7) (v : BitVec 64), Quiet s.env → PairInRange s → n.toNat ≤ 64 →
    ∃ t, exec (.wbits n v) s = .next t ∧
      t.history =
        s.history ++
          (List.range n.toNat).flatMap (fun i => writeBitEvents s.cur.clk s.cur.data (if v.getLsbD i then .high else .low)) ++
          (if s.config.verbosity = .verbose then [.trace ⟨.tx, n, t.seq.sr⟩] else []) ∧
      (∀ i, t.seq.sr.getLsbD i = (decide (i < n.toNat) && v.getLsbD i)) ∧
      t.pads =
        (if n = 0 then s.pads
        else
          (s.pads.modify s.cur.data.toNat fun _ => ⟨.output, if v.getLsbD (n.toNat - 1) then .high else .low⟩).modify
            s.cur.clk.toNat fun pad => { pad with out := .high }) ∧
      t.seq = { s.seq with sr := t.seq.sr, bitCnt := n, timer := if n = 0 then s.seq.timer else 0, upc := s.seq.upc + 1 } ∧
      t.env = s.env.drop (6 * n.toNat) ∧
      t.config = s.config ∧ t.staging = s.staging ∧ t.status = s.status ∧ t.result = s.result ∧ t.cur = s.cur ∧
      t.attempts = s.attempts ∧ t.reads = s.reads ∧ t.draws = s.draws

/-- 40_link_driver.md R182: RBITS n releases the line, samples it n times, each sample before its pulse, drives the line High again, and
puts the i-th sample into bit i of SR and RAWREG, for whatever levels the samples draw. (BITCNT is log 7, the model's.)
The port samples are the model's (log 1), and so are BITCNT = n and TIMER = 0 at the end (log 7). -/
def Obligations.ReadBitsResult : Prop :=
  ∀ (s : State) (n : BitVec 7), Quiet s.env → PairInRange s → n.toNat ≤ 64 →
    ∃ (t : State) (levels : List Level), exec (.rbits n) s = .next t ∧ levels.length = n.toNat ∧
      t.history =
        s.history ++ [.setDir s.cur.data .input] ++
          levels.flatMap (fun l => .rdLvl s.cur.data l :: pulseEvents s.cur.clk) ++
          [.setDir s.cur.data .output, .wrLvl s.cur.data .high] ++
          (if s.config.verbosity = .verbose then [.trace ⟨.rx, n, t.seq.sr⟩] else []) ∧
      (∀ i, t.seq.sr.getLsbD i = ((levels[i]?).map Level.toBool).getD false) ∧
      (∀ i, t.seq.rawReg.getLsbD i = (decide (i < 36) && t.seq.sr.getLsbD i)) ∧
      (∀ (i : Nat) (p : Ports) (l : Level), i < n.toNat → s.env[1 + 5 * i]? = some p → p.padI s.cur.data = some l → levels[i]? = some l) ∧
      t.pads =
        ((if n = 0 then s.pads else s.pads.modify s.cur.clk.toNat fun pad => { pad with out := .high }).modify
          s.cur.data.toNat fun _ => ⟨.output, .high⟩) ∧
      t.seq =
        { s.seq with
          sr := t.seq.sr, rawReg := t.seq.rawReg, bitCnt := n, timer := if n = 0 then s.seq.timer else 0,
          upc := s.seq.upc + 1 } ∧
      t.env = s.env.drop (3 + 5 * n.toNat) ∧
      t.config = s.config ∧ t.staging = s.staging ∧ t.status = s.status ∧ t.result = s.result ∧ t.cur = s.cur ∧
      t.attempts = s.attempts ∧ t.reads = s.reads

/-- 40_link_driver.md R188: LRESET drives the data line High and issues RESET_PULSES = 64 pulses; no primitive between the DRIVE and
the last pulse touches the data pad, and it emits no trace record.
The port samples are the model's (log 1), and so are PCNT = 64 and TIMER = 0 at the end (log 7). -/
def Obligations.LineResetResult : Prop :=
  ∀ s : State, Quiet s.env → PairInRange s →
    exec .lreset s = .next
      { s with
        pads :=
          (s.pads.modify s.cur.data.toNat fun _ => ⟨.output, .high⟩).modify s.cur.clk.toNat fun pad => { pad with out := .high },
        seq := { s.seq with pcnt := 64, timer := 0, upc := s.seq.upc + 1 },
        env := s.env.drop 258,
        history := s.history ++ ([.setDir s.cur.data .output, .wrLvl s.cur.data .high] ++
          (List.replicate 64 (pulseEvents s.cur.clk)).flatten) }

/-- 20_memory.md R93: the level of a sample is the one the environment drives; an undriven pad reads High if PULLUP is true, and a free
value if it is not.
The port samples are the model's (log 1); the numbering of the free values is log 6. -/
def Obligations.SampledLevel : Prop :=
  ∀ (s : State) (p : Pin), Quiet s.env → p.toNat < s.pinCount →
    ∃ (l : Level) (t : State), rdLvl p s = .go l t ∧ t.history = s.history ++ [.rdLvl p l] ∧ t.pads = s.pads ∧
      (∀ (x : Ports) (rest : List Ports) (driven : Level), s.env = x :: rest → x.padI p = some driven → l = driven) ∧
      ((∀ x ∈ s.env.head?, x.padI p = none) → l = if Config.pullup = true then .high else Config.freeLevel s.draws)

/-- 40_link_driver.md R191: writing v as n bits and reading them back through a loopback line yields exactly v: if the level that the
environment drives at the j-th sample of the RBITS is the level that the block drove at the rising edge of the j-th pulse of the WBITS
before it, then SR and RAWREG end at v.
That the j-th sample is the port sample at 1 + 5 × j, and that the loopback line drives it there, is the model's form of it (log 1). -/
def Obligations.LoopbackRoundTrip : Prop :=
  ∀ (s t : State) (n : BitVec 7) (v : BitVec 64) (pad : Pad) (events : List Event),
    Quiet s.env → PairInRange s → s.cur.clk ≠ s.cur.data → 1 ≤ n.toNat → n.toNat ≤ 36 → v.toNat < 2 ^ n.toNat →
      exec (.wbits n v) s = .next t → t.history = s.history ++ events →
        (∀ j, j < n.toNat → ∃ (p : Ports) (l : Level), t.env[1 + 5 * j]? = some p ∧ p.padI s.cur.data = some l ∧
          (wireView s.cur.clk s.cur.data pad events)[j]? = some ⟨some l, none⟩) →
          ∃ u, exec (.rbits n) t = .next u ∧ u.seq.sr = v ∧ u.seq.rawReg = v.setWidth 36

/-- 40_link_driver.md R190 and 20_memory.md R97: the wire view of each micro-operation of the link driver: what the block drives at the
rising edge of each of its pulses, and the sample taken before it; a sample from before an ENTER is no pulse's. -/
def Obligations.WireViewOfMicroOps : Prop :=
  ∀ (clk data : Pin) (pad : Pad), clk ≠ data →
    wireView clk data pad (pulseEvents clk) = [⟨if pad.dir = .output then some pad.out else none, none⟩] ∧
      (∀ b, wireView clk data pad (driveEvents data b) = []) ∧
      wireView clk data pad [.setDir data .input] = [] ∧
      (∀ b, wireView clk data pad (writeBitEvents clk data b) = [⟨some b, none⟩]) ∧
      (∀ n v, wireView clk data pad (writeBitsEvents clk data n v) = (List.range n).map fun i => ⟨some (bitLevel v i), none⟩) ∧
      (∀ levels, wireView clk data pad (readBitsEvents clk data levels) = levels.map fun l => ⟨none, some l⟩) ∧
      wireView clk data pad (turnEvents clk data) = [⟨none, none⟩] ∧
      wireView clk data pad (resetLineEvents clk data) = List.replicate 64 ⟨some .high, none⟩ ∧
      ∀ l, wireView clk data pad ([.rdLvl data l, .setDir clk .output, .wrLvl clk .high] ++ resetLineEvents clk data) =
        List.replicate 64 ⟨some .high, none⟩

/-- 10_state.md R61: "The trace never changes the pad events of a micro-operation": at any VERBOSITY every micro-operation has the same
events but for the trace records, and leaves the same pads and the same SR and RAWREG, whatever resets and pad faults come. -/
def Obligations.VerbosityChangesOnlyTheTrace : Prop :=
  ∀ (i : Instr) (s t u : State) (v : Verbosity),
    i.isHost = false → NoHost s.env →
      exec i s = .next t → exec i { s with config := { s.config with verbosity := v } } = .next u →
        u.history.filter (fun e => e.traceRec?.isNone) = t.history.filter (fun e => e.traceRec?.isNone) ∧
          u.pads = t.pads ∧ u.seq = t.seq ∧ u.cur = t.cur ∧ u.status = t.status ∧ u.result = t.result

/-! ## Micro-operations of the sequencer -/

/-- 41_protocol_sequencer.md R212, R214: ENTER drives the clock pad High and does not touch the data pad; EXIT releases data, then clk,
and keeps OUT of both pads.
The port samples are the model's (log 1). -/
def Obligations.EnterAndExitResults : Prop :=
  ∀ s : State, Quiet s.env → PairInRange s →
    exec .enter s = .next
      { s with
        pads := s.pads.modify s.cur.clk.toNat fun _ => ⟨.output, .high⟩,
        cur := { s.cur with active := true, stage := .lineReset },
        seq := { s.seq with upc := s.seq.upc + 1 },
        env := s.env.drop 2,
        history := s.history ++ [.setDir s.cur.clk .output, .wrLvl s.cur.clk .high] } ∧
      exec .exit s = .next
        { s with
          pads :=
            (s.pads.modify s.cur.data.toNat fun pad => { pad with dir := .input }).modify s.cur.clk.toNat
              fun pad => { pad with dir := .input },
          cur := { s.cur with active := false, stage := .none },
          seq := { s.seq with upc := s.seq.upc + 1 },
          env := s.env.drop 2,
          history := s.history ++ [.setDir s.cur.data .input, .setDir s.cur.clk .input] }

/-- 41_protocol_sequencer.md R216, R218: DECODE sets MATCHREG iff ack = 1 and manufacturer = 0x23B, independent of the part number and the
parity; it performs no pad primitive, so a pad fault has no effect on it.
That DECODE passes one port sample is log 21, the model's. -/
def Obligations.DecodeResult : Prop :=
  ∀ s : State, (∀ p ∈ s.env.head?, p.rst = false ∧ p.host = []) →
    ∃ t, exec .decode s = .next t ∧
      (t.seq.matchReg = true ↔ s.seq.rawReg.toNat % 8 = 1 ∧ s.seq.rawReg.toNat / 16 % 0x800 = 0x23B) ∧
      t = { s with
              cur := { s.cur with stage := .decodeMatch },
              seq := { s.seq with matchReg := t.seq.matchReg, upc := s.seq.upc + 1 },
              env := s.env.drop 1 }

/-- 41_protocol_sequencer.md R231: starting an attempt, in one step before its first micro-operation. (The other fields stay.)
The position of the command, the port sample and the mark in the history are the model's (logs 3, 1, 15 and 17). -/
def Obligations.AttemptStart : Prop :=
  ∀ (s : State) (c d : Pin), BlockTurn s → s.seq.pos = .begin c d →
    step s = .next
      { s with
        cur := { s.cur with clk := c, data := d },
        seq :=
          { s.seq with
            prog := program s.config.idleSel s.config.dormantWake, upc := 0, rawReg := 0, matchReg := false,
            pos := .attempt },
        env := s.env.drop 1,
        attempts := ⟨c, d, (s.pads[d.toNat]?).getD Pad.reset, s.history.length⟩ :: s.attempts }

/-- 41_protocol_sequencer.md R230 to R233: a whole attempt on quiet inputs: from its start, as many steps as its program has
micro-operations perform the events of the program in order, whatever levels the samples draw, and leave the raw response, its match
decision and the pair's pads released, with the publish next; 20_memory.md R97, R235: the wire view of the whole history gains the cycles of
this attempt and keeps those of the attempts before it, cut off or not, on whatever pairs.
The position of the command and the number of steps are the model's (logs 1, 3 and 15). -/
def Obligations.AttemptPerformsItsProgram : Prop :=
  ∀ (s : State) (c d : Pin),
    s.seq.pos = .begin c d → c ≠ d → c.toNat < s.pinCount → d.toNat < s.pinCount → Quiet s.env →
      ∃ (t : State) (levels : List Level),
        core.run (1 + (program s.config.idleSel s.config.dormantWake).length) s = .next t ∧ levels.length = 36 ∧
          t.history = s.history ++ attemptEvents c d s.config.verbosity s.config.idleSel s.config.dormantWake levels ∧
          t.cur = { clk := c, data := d, active := false, stage := .none } ∧
          t.seq.pos = .attempt ∧ t.seq.upc.toNat = t.seq.prog.length ∧
          t.seq.rawReg = (valueOfLevels levels).setWidth 36 ∧
          (t.seq.matchReg = true ↔ t.seq.rawReg.toNat % 8 = 1 ∧ t.seq.rawReg.toNat / 16 % 0x800 = 0x23B) ∧
          (∀ (i : Nat) (pad : Pad), t.pads[i]? = some pad → i = c.toNat ∨ i = d.toNat → pad.dir = .input) ∧
          (∀ i : Nat, i ≠ c.toNat → i ≠ d.toNat → t.pads[i]? = s.pads[i]?) ∧
          t.wireView = s.wireView ++ attemptCycles s.config.idleSel s.config.dormantWake levels ∧
          t.attempts.drop 1 = s.attempts ∧ t.config = s.config ∧ t.staging = s.staging ∧ t.status = s.status ∧ t.result = s.result ∧ t.reads = s.reads

/-- 41_protocol_sequencer.md R235: the wire view of an attempt, for every configuration and every 36 sampled levels, and its number of
pulses. -/
def Obligations.AttemptWireView : Prop :=
  ∀ (clk data : Pin) (pad : Pad) (verb : Verbosity) (idleSel dormantWake : Bool) (levels : List Level),
    clk ≠ data → levels.length = 36 →
      wireView clk data pad (attemptEvents clk data verb idleSel dormantWake levels) = attemptCycles idleSel dormantWake levels ∧
        (wireView clk data pad (attemptEvents clk data verb idleSel dormantWake levels)).length =
          198 + (if idleSel then 8 else 4) + (if dormantWake then 220 else 0)

/-- 40_link_driver.md R192 and 70_reset_and_hazards.md R348: in every attempt, whatever the pads before it, no WrLvl
is on an Input pad and no RdLvl on an Output pad. -/
def Obligations.AttemptRespectsDirections : Prop :=
  ∀ (pads : List Pad) (clk data : Pin) (verb : Verbosity) (idleSel dormantWake : Bool) (levels : List Level),
    clk ≠ data → clk.toNat < pads.length → data.toNat < pads.length →
      DirectionValid pads (attemptEvents clk data verb idleSel dormantWake levels)

/-- 41_protocol_sequencer.md R236 and 10_state.md R60: the trace records of an attempt: 4 + 8 × dorm TX records and one RX record in
verbose mode, in program order, and none otherwise. -/
def Obligations.AttemptTraceRecords : Prop :=
  ∀ (clk data : Pin) (verb : Verbosity) (idleSel dormantWake : Bool) (levels : List Level),
    (attemptEvents clk data verb idleSel dormantWake levels).filterMap Event.traceRec? =
        (if verb = .verbose then attemptTrace idleSel dormantWake levels else []) ∧
      ((attemptTrace idleSel dormantWake levels).filter fun r => r.kind = .tx).length = 4 + (if dormantWake then 8 else 0) ∧
      ((attemptTrace idleSel dormantWake levels).filter fun r => r.kind = .rx).length = 1

/-! ## The scan -/

/-- 42_scanner_commands.md R260: the pairs of a configuration: every ordered pair of distinct candidates, once, c outer and d inner,
both increasing, |Cand| × (|Cand| − 1) of them. -/
def Obligations.PairsEnumerateTheCandidates : Prop :=
  ∀ m : BitVec 64,
    (∀ c d : Pin, (c, d) ∈ pairs m (maxPinOf m) ↔ m.getLsbD c.toNat = true ∧ m.getLsbD d.toNat = true ∧ c ≠ d) ∧
      (pairs m (maxPinOf m)).Pairwise (fun p q => p.1 < q.1 ∨ (p.1 = q.1 ∧ p.2 < q.2)) ∧
      (pairs m (maxPinOf m)).length =
        ((List.range 64).filter fun i => m.getLsbD i).length * (((List.range 64).filter fun i => m.getLsbD i).length - 1)

/-- 42_scanner_commands.md R261, R262: at the head of the scan loop the first pair of the list is taken, and after the k-th pair the
pair after it; with none left the scan ends with COMPLETE; a pending cancel ends it with CANCELLED before the pair's attempt starts.
The position of the command, and that taking a pair is one step, are the model's (logs 3 and 15). -/
def Obligations.ScanTakesThePairsInOrder : Prop :=
  ∀ (s : State) (k : Nat), BlockTurn s → s.config.maxPin = maxPinOf s.config.mask →
    (s.seq.pos = .first ∧ k = 0) ∨
        (s.seq.pos = .advance ∧ 0 < k ∧
          (pairs s.config.mask s.config.maxPin)[k - 1]? = some (s.seq.iterClk, s.seq.iterData)) →
      ((pairs s.config.mask s.config.maxPin)[k]? = none →
          step s = .next (State.endCommand { s with env := s.env.drop 1 } .complete)) ∧
        ∀ c d, (pairs s.config.mask s.config.maxPin)[k]? = some (c, d) →
          (s.status.cancelPending = true →
              step s = .next (State.endCommand
                { s with seq := { s.seq with iterClk := c, iterData := d }, env := s.env.drop 1 } .cancelled)) ∧
            (s.status.cancelPending = false →
              step s = .next
                { s with seq := { s.seq with iterClk := c, iterData := d, pos := .begin c d }, env := s.env.drop 1 })

/-- 10_state.md R56 and 41_protocol_sequencer.md R233: when the program of an attempt is done its result is published in one step. (That
the command then waits is R261.)
The position of the command and the port sample are the model's (logs 3, 1 and 15). -/
def Obligations.PublishWritesTheResult : Prop :=
  ∀ s : State, BlockTurn s → s.seq.pos = .attempt → s.seq.prog.length ≤ s.seq.upc.toNat →
    step s = .next
      { s with
        result := { clk := s.cur.clk, data := s.cur.data, matched := s.seq.matchReg, raw := s.seq.rawReg, count := s.result.count + 1 },
        status := { s.status with rvalid := true, matchedAny := s.status.matchedAny || s.seq.matchReg },
        seq := { s.seq with pos := .waitPop },
        env := s.env.drop 1,
        history := s.history ++ [.publish ⟨s.cur.clk, s.cur.data, s.seq.rawReg, s.seq.matchReg⟩] }

/-- 42_scanner_commands.md R261, R263, R265 and 70_reset_and_hazards.md R351: the wait for POP: with RVALID = 1 nothing but the passing
of the inputs; with RVALID = 0 a SCAN ends with HIT on a match under BREAK_ON_HIT, or goes on, and a TEST_PAIR ends with COMPLETE.
The position of the command and the port sample are the model's (logs 3, 1 and 15). -/
def Obligations.WaitForPopAndWhatFollows : Prop :=
  ∀ s : State, BlockTurn s → s.seq.pos = .waitPop →
    (s.status.rvalid = true → step s = .next { s with env := s.env.drop 1 }) ∧
      (s.status.rvalid = false → s.seq.cmdKind = .scan → s.result.matched = true → s.config.breakOnHit = true →
        step s = .next (State.endCommand { s with env := s.env.drop 1 } .hit)) ∧
      (s.status.rvalid = false → s.seq.cmdKind = .scan → ¬(s.result.matched = true ∧ s.config.breakOnHit = true) →
        step s = .next { s with seq := { s.seq with pos := .advance }, env := s.env.drop 1 }) ∧
      (s.status.rvalid = false → s.seq.cmdKind = .testPair →
        step s = .next (State.endCommand { s with env := s.env.drop 1 } .complete))

/-- 42_scanner_commands.md R270: end(code) writes END, clears BUSY, CMDKIND and CANCEL_PENDING, appends End(code), and keeps MATCHED_ANY,
RES_COUNT and the result registers. -/
def Obligations.EndKeepsTheResults : Prop :=
  ∀ (s : State) (code : EndCode),
    (s.endCommand code).status = { s.status with endCode := code, busy := false, cancelPending := false } ∧
      (s.endCommand code).seq.cmdKind = .none ∧ (s.endCommand code).history = s.history ++ [.ended code] ∧
      (∀ offset, 0x14 ≤ offset → (s.endCommand code).readWord offset = s.readWord offset)

/-! ## Pad faults -/

/-- 40_link_driver.md R170 and 60_exceptions.md R306, R307: a pad fault on the k-th primitive of a WBITS: the primitives before it took
effect, the failed one is in the history, then come the two best-effort releases and End(FAULT) and nothing else; the pair is released,
STAGE and the pair stay, and the block is idle with ERR = HLI_FAULT and END = FAULT.
That the failed primitive's event is in the history, and the position, are the model's (logs 6 and 3). -/
def Obligations.WriteBitsFaultIsPrecise : Prop :=
  ∀ (s : State) (n : BitVec 7) (v : BitVec 64) (k : Nat) (p : Ports) (rest : List Ports),
    Quiet (s.env.take k) → s.env.drop k = p :: rest → p.rst = false → p.host = [] → p.pinFault = true → Quiet rest →
      PairInRange s → n.toNat ≤ 64 → k < 6 * n.toNat →
        ∃ t, exec (.wbits n v) s = .next t ∧
          t.history =
            s.history ++ (writeBitsEvents s.cur.clk s.cur.data n.toNat v).take (k + 1) ++
              [.setDir s.cur.data .input, .setDir s.cur.clk .input, .ended .fault] ∧
          t.status = { s.status with busy := false, cancelPending := false, endCode := .fault, err := .hliFault } ∧
          t.cur = { s.cur with active := false } ∧ t.seq.cmdKind = .none ∧ t.seq.pos = .idle ∧ t.seq.upc = s.seq.upc ∧
          t.result = s.result ∧ t.config = s.config ∧
          (∀ (i : Nat) (pad : Pad), t.pads[i]? = some pad → i = s.cur.clk.toNat ∨ i = s.cur.data.toNat → pad.dir = .input) ∧
          ∀ i : Nat, i ≠ s.cur.clk.toNat → i ≠ s.cur.data.toNat → t.pads[i]? = s.pads[i]?

/-- 60_exceptions.md R306 to R308: a failed best-effort release starts no second fault entry: with every primitive failing, RELEASE
ends in one End(FAULT), and the pads of the pair are left with free values.
Which events a failed primitive appends, and the numbering of the free values, are the model's (log 6). -/
def Obligations.FaultEntryDoesNotNest : Prop :=
  ∀ (s : State) (p q r : Ports) (rest : List Ports),
    s.env = p :: q :: r :: rest → (∀ x ∈ [p, q, r], x.rst = false ∧ x.host = [] ∧ x.pinFault = true) →
      PairInRange s → s.cur.clk ≠ s.cur.data →
        ∃ t, exec .release s = .next t ∧
          t.history = s.history ++ [.setDir s.cur.data .input, .ended .fault] ∧
          t.status = { s.status with busy := false, cancelPending := false, endCode := .fault, err := .hliFault } ∧
          t.pads[s.cur.data.toNat]? = some ⟨Config.freeDir (s.draws + 1), Config.freeLevel (s.draws + 1)⟩ ∧
          t.pads[s.cur.clk.toNat]? = some ⟨Config.freeDir (s.draws + 2), Config.freeLevel (s.draws + 2)⟩ ∧
          t.env = rest

/-- 40_link_driver.md R182: "HliFault on any primitive (SR, RAWREG and the trace are then not written)". -/
def Obligations.ReadBitsFaultKeepsSrAndRaw : Prop :=
  ∀ (s t : State) (n : BitVec 7),
    NoReset s.env → NoHost s.env → PairInRange s → s.status.endCode ≠ .fault →
      exec (.rbits n) s = .next t → t.status.endCode = .fault →
        t.seq.sr = s.seq.sr ∧ t.seq.rawReg = s.seq.rawReg ∧ t.traceOutput = s.traceOutput

/-- 40_link_driver.md R170, 60_exceptions.md R307 and 10_state.md R34, R35: whatever faults and host accesses come, a micro-operation in a
running attempt either completes, with upc one further, or ends in the fault entry; either way it leaves the configuration, the result
buffer, the pair, the program, the scan position and every pad outside the pair as they were, and only adds to the history; without a pad
fault it completes.
The position of the command is the model's (log 3). -/
def Obligations.MicroOpCompletesOrFaults : Prop :=
  ∀ (i : Instr) (s t : State),
    i.isHost = false → s.status.busy = true → s.status.rvalid = false → NoReset s.env → exec i s = .next t →
      (t.config = s.config ∧ t.result = s.result ∧ t.cur.clk = s.cur.clk ∧ t.cur.data = s.cur.data ∧ t.seq.prog = s.seq.prog ∧
          t.seq.iterClk = s.seq.iterClk ∧ t.seq.iterData = s.seq.iterData ∧ t.status.rvalid = false ∧
          t.status.matchedAny = s.status.matchedAny ∧ t.pinCount = s.pinCount ∧ t.attempts = s.attempts ∧ s.history <+: t.history ∧
          ∀ j : Nat, j ≠ s.cur.clk.toNat → j ≠ s.cur.data.toNat → t.pads[j]? = s.pads[j]?) ∧
        ((t.status.busy = true ∧ t.seq.upc = s.seq.upc + 1 ∧ t.seq.pos = s.seq.pos ∧ t.seq.cmdKind = s.seq.cmdKind ∧
            t.status.endCode = s.status.endCode) ∨
          (t.status.busy = false ∧ t.status.err = .hliFault ∧ t.status.endCode = .fault ∧ t.status.cancelPending = false ∧
            t.cur.active = false ∧ t.seq.pos = .idle ∧ t.seq.cmdKind = .none ∧ t.seq.upc = s.seq.upc ∧
            t.history.getLast? = some (.ended .fault))) ∧
        (NoPinFault s.env → t.status.busy = true)

/-! ## Invariants -/

/-- The invariant of the machine holds after reset, and so does that of its pads.
PIN_COUNT = 64 is log 2, the position log 3, and no port sample to come log 13, the model's. -/
def Obligations.InvariantsHoldAtReset : Prop := Inv State.reset ∧ PadInv State.reset

/-- 10_state.md R42, R43, R48, R51, R52, R54 and 42_scanner_commands.md R271: every step keeps the invariant of the machine, whatever
resets, host accesses and pad faults come.
What `Inv` says of the position of the command is the model's (log 3), of BITCNT and PCNT log 7. -/
def Obligations.StepKeepsTheInvariant : Prop :=
  ∀ s t : State, Inv s → step s = .next t → Inv t

/-- 10_state.md R34 and 40_link_driver.md R172: in a run without pad faults every step keeps the pads' invariant: pads outside the
attempt's pair are Input, every pad is Input outside an attempt, and the clock pad rests High inside one. -/
def Obligations.StepKeepsThePadInvariant : Prop :=
  ∀ s t : State, Inv s → PadInv s → step s = .next t → PadInv t

/-- 20_memory.md R98 and 30_encoding.md R144: from a state that meets the invariant a step always answers a next state when the host
keeps to aligned 32-bit accesses of the window: no pad outside the pin space is accessed, and no illegal micro-operation is met.
What `Inv` says of the position of the command is the model's (log 3). -/
def Obligations.MachineNeverStops : Prop :=
  ∀ s : State, Inv s → ServedHost s.env → ∃ t, step s = .next t
end

