-- ==== Sys2Proof/Laws/State.lean ====
section
/-! SUPPORT. Laws/State.lean: for each named update of the state, what every field holds after it. -/

namespace Sys2Proof.Machine.State

@[simp] theorem emit_pads (s : State) (e : Event) : (s.emit e).pads = s.pads := rfl
@[simp] theorem emit_config (s : State) (e : Event) : (s.emit e).config = s.config := rfl
@[simp] theorem emit_staging (s : State) (e : Event) : (s.emit e).staging = s.staging := rfl
@[simp] theorem emit_status (s : State) (e : Event) : (s.emit e).status = s.status := rfl
@[simp] theorem emit_result (s : State) (e : Event) : (s.emit e).result = s.result := rfl
@[simp] theorem emit_cur (s : State) (e : Event) : (s.emit e).cur = s.cur := rfl
@[simp] theorem emit_seq (s : State) (e : Event) : (s.emit e).seq = s.seq := rfl
@[simp] theorem emit_env (s : State) (e : Event) : (s.emit e).env = s.env := rfl
@[simp] theorem emit_history (s : State) (e : Event) : (s.emit e).history = s.history ++ [e] := rfl
@[simp] theorem emit_reads (s : State) (e : Event) : (s.emit e).reads = s.reads := rfl
@[simp] theorem emit_attempts (s : State) (e : Event) : (s.emit e).attempts = s.attempts := rfl
@[simp] theorem emit_draws (s : State) (e : Event) : (s.emit e).draws = s.draws := rfl

@[simp] theorem reject_pads (s : State) (code : ErrCode) : (s.reject code).pads = s.pads := rfl
@[simp] theorem reject_config (s : State) (code : ErrCode) : (s.reject code).config = s.config := rfl
@[simp] theorem reject_staging (s : State) (code : ErrCode) : (s.reject code).staging = s.staging := rfl
@[simp] theorem reject_status_busy (s : State) (code : ErrCode) : (s.reject code).status.busy = s.status.busy := rfl
@[simp] theorem reject_status_rvalid (s : State) (code : ErrCode) : (s.reject code).status.rvalid = s.status.rvalid := rfl
@[simp] theorem reject_status_matchedAny (s : State) (code : ErrCode) : (s.reject code).status.matchedAny = s.status.matchedAny := rfl
@[simp] theorem reject_status_cancelPending (s : State) (code : ErrCode) : (s.reject code).status.cancelPending = s.status.cancelPending := rfl
@[simp] theorem reject_status_endCode (s : State) (code : ErrCode) : (s.reject code).status.endCode = s.status.endCode := rfl
@[simp] theorem reject_status_err (s : State) (code : ErrCode) : (s.reject code).status.err = code := rfl
@[simp] theorem reject_result (s : State) (code : ErrCode) : (s.reject code).result = s.result := rfl
@[simp] theorem reject_cur (s : State) (code : ErrCode) : (s.reject code).cur = s.cur := rfl
@[simp] theorem reject_seq (s : State) (code : ErrCode) : (s.reject code).seq = s.seq := rfl
@[simp] theorem reject_env (s : State) (code : ErrCode) : (s.reject code).env = s.env := rfl
@[simp] theorem reject_history (s : State) (code : ErrCode) : (s.reject code).history = s.history := rfl
@[simp] theorem reject_reads (s : State) (code : ErrCode) : (s.reject code).reads = s.reads := rfl
@[simp] theorem reject_attempts (s : State) (code : ErrCode) : (s.reject code).attempts = s.attempts := rfl
@[simp] theorem reject_draws (s : State) (code : ErrCode) : (s.reject code).draws = s.draws := rfl

@[simp] theorem acceptRun_pads (s : State) (kind : CmdKind) (pos : ScanPos) : (s.acceptRun kind pos).pads = s.pads := rfl
@[simp] theorem acceptRun_config (s : State) (kind : CmdKind) (pos : ScanPos) : (s.acceptRun kind pos).config = s.config := rfl
@[simp] theorem acceptRun_staging (s : State) (kind : CmdKind) (pos : ScanPos) : (s.acceptRun kind pos).staging = s.staging := rfl
@[simp] theorem acceptRun_status_busy (s : State) (kind : CmdKind) (pos : ScanPos) : (s.acceptRun kind pos).status.busy = true := rfl
@[simp] theorem acceptRun_status_rvalid (s : State) (kind : CmdKind) (pos : ScanPos) : (s.acceptRun kind pos).status.rvalid = false := rfl
@[simp] theorem acceptRun_status_matchedAny (s : State) (kind : CmdKind) (pos : ScanPos) : (s.acceptRun kind pos).status.matchedAny = false := rfl
@[simp] theorem acceptRun_status_cancelPending (s : State) (kind : CmdKind) (pos : ScanPos) : (s.acceptRun kind pos).status.cancelPending = false := rfl
@[simp] theorem acceptRun_status_endCode (s : State) (kind : CmdKind) (pos : ScanPos) : (s.acceptRun kind pos).status.endCode = .none := rfl
@[simp] theorem acceptRun_status_err (s : State) (kind : CmdKind) (pos : ScanPos) : (s.acceptRun kind pos).status.err = .ok := rfl
@[simp] theorem acceptRun_result_clk (s : State) (kind : CmdKind) (pos : ScanPos) : (s.acceptRun kind pos).result.clk = s.result.clk := rfl
@[simp] theorem acceptRun_result_data (s : State) (kind : CmdKind) (pos : ScanPos) : (s.acceptRun kind pos).result.data = s.result.data := rfl
@[simp] theorem acceptRun_result_matched (s : State) (kind : CmdKind) (pos : ScanPos) : (s.acceptRun kind pos).result.matched = s.result.matched := rfl
@[simp] theorem acceptRun_result_raw (s : State) (kind : CmdKind) (pos : ScanPos) : (s.acceptRun kind pos).result.raw = s.result.raw := rfl
@[simp] theorem acceptRun_result_count (s : State) (kind : CmdKind) (pos : ScanPos) : (s.acceptRun kind pos).result.count = 0 := rfl
@[simp] theorem acceptRun_cur (s : State) (kind : CmdKind) (pos : ScanPos) : (s.acceptRun kind pos).cur = s.cur := rfl
@[simp] theorem acceptRun_seq_cmdKind (s : State) (kind : CmdKind) (pos : ScanPos) : (s.acceptRun kind pos).seq.cmdKind = kind := rfl
@[simp] theorem acceptRun_seq_iterClk (s : State) (kind : CmdKind) (pos : ScanPos) : (s.acceptRun kind pos).seq.iterClk = s.seq.iterClk := rfl
@[simp] theorem acceptRun_seq_iterData (s : State) (kind : CmdKind) (pos : ScanPos) : (s.acceptRun kind pos).seq.iterData = s.seq.iterData := rfl
@[simp] theorem acceptRun_seq_upc (s : State) (kind : CmdKind) (pos : ScanPos) : (s.acceptRun kind pos).seq.upc = s.seq.upc := rfl
@[simp] theorem acceptRun_seq_prog (s : State) (kind : CmdKind) (pos : ScanPos) : (s.acceptRun kind pos).seq.prog = s.seq.prog := rfl
@[simp] theorem acceptRun_seq_sr (s : State) (kind : CmdKind) (pos : ScanPos) : (s.acceptRun kind pos).seq.sr = s.seq.sr := rfl
@[simp] theorem acceptRun_seq_bitCnt (s : State) (kind : CmdKind) (pos : ScanPos) : (s.acceptRun kind pos).seq.bitCnt = s.seq.bitCnt := rfl
@[simp] theorem acceptRun_seq_pcnt (s : State) (kind : CmdKind) (pos : ScanPos) : (s.acceptRun kind pos).seq.pcnt = s.seq.pcnt := rfl
@[simp] theorem acceptRun_seq_timer (s : State) (kind : CmdKind) (pos : ScanPos) : (s.acceptRun kind pos).seq.timer = s.seq.timer := rfl
@[simp] theorem acceptRun_seq_rawReg (s : State) (kind : CmdKind) (pos : ScanPos) : (s.acceptRun kind pos).seq.rawReg = s.seq.rawReg := rfl
@[simp] theorem acceptRun_seq_matchReg (s : State) (kind : CmdKind) (pos : ScanPos) : (s.acceptRun kind pos).seq.matchReg = s.seq.matchReg := rfl
@[simp] theorem acceptRun_seq_pos (s : State) (kind : CmdKind) (pos : ScanPos) : (s.acceptRun kind pos).seq.pos = pos := rfl
@[simp] theorem acceptRun_env (s : State) (kind : CmdKind) (pos : ScanPos) : (s.acceptRun kind pos).env = s.env := rfl
@[simp] theorem acceptRun_history (s : State) (kind : CmdKind) (pos : ScanPos) : (s.acceptRun kind pos).history = s.history := rfl
@[simp] theorem acceptRun_reads (s : State) (kind : CmdKind) (pos : ScanPos) : (s.acceptRun kind pos).reads = s.reads := rfl
@[simp] theorem acceptRun_attempts (s : State) (kind : CmdKind) (pos : ScanPos) : (s.acceptRun kind pos).attempts = s.attempts := rfl
@[simp] theorem acceptRun_draws (s : State) (kind : CmdKind) (pos : ScanPos) : (s.acceptRun kind pos).draws = s.draws := rfl

@[simp] theorem endCommand_pads (s : State) (code : EndCode) : (s.endCommand code).pads = s.pads := rfl
@[simp] theorem endCommand_config (s : State) (code : EndCode) : (s.endCommand code).config = s.config := rfl
@[simp] theorem endCommand_staging (s : State) (code : EndCode) : (s.endCommand code).staging = s.staging := rfl
@[simp] theorem endCommand_status_busy (s : State) (code : EndCode) : (s.endCommand code).status.busy = false := rfl
@[simp] theorem endCommand_status_rvalid (s : State) (code : EndCode) : (s.endCommand code).status.rvalid = s.status.rvalid := rfl
@[simp] theorem endCommand_status_matchedAny (s : State) (code : EndCode) : (s.endCommand code).status.matchedAny = s.status.matchedAny := rfl
@[simp] theorem endCommand_status_cancelPending (s : State) (code : EndCode) : (s.endCommand code).status.cancelPending = false := rfl
@[simp] theorem endCommand_status_endCode (s : State) (code : EndCode) : (s.endCommand code).status.endCode = code := rfl
@[simp] theorem endCommand_status_err (s : State) (code : EndCode) : (s.endCommand code).status.err = s.status.err := rfl
@[simp] theorem endCommand_result (s : State) (code : EndCode) : (s.endCommand code).result = s.result := rfl
@[simp] theorem endCommand_cur (s : State) (code : EndCode) : (s.endCommand code).cur = s.cur := rfl
@[simp] theorem endCommand_seq_cmdKind (s : State) (code : EndCode) : (s.endCommand code).seq.cmdKind = .none := rfl
@[simp] theorem endCommand_seq_iterClk (s : State) (code : EndCode) : (s.endCommand code).seq.iterClk = s.seq.iterClk := rfl
@[simp] theorem endCommand_seq_iterData (s : State) (code : EndCode) : (s.endCommand code).seq.iterData = s.seq.iterData := rfl
@[simp] theorem endCommand_seq_upc (s : State) (code : EndCode) : (s.endCommand code).seq.upc = s.seq.upc := rfl
@[simp] theorem endCommand_seq_prog (s : State) (code : EndCode) : (s.endCommand code).seq.prog = s.seq.prog := rfl
@[simp] theorem endCommand_seq_sr (s : State) (code : EndCode) : (s.endCommand code).seq.sr = s.seq.sr := rfl
@[simp] theorem endCommand_seq_bitCnt (s : State) (code : EndCode) : (s.endCommand code).seq.bitCnt = s.seq.bitCnt := rfl
@[simp] theorem endCommand_seq_pcnt (s : State) (code : EndCode) : (s.endCommand code).seq.pcnt = s.seq.pcnt := rfl
@[simp] theorem endCommand_seq_timer (s : State) (code : EndCode) : (s.endCommand code).seq.timer = s.seq.timer := rfl
@[simp] theorem endCommand_seq_rawReg (s : State) (code : EndCode) : (s.endCommand code).seq.rawReg = s.seq.rawReg := rfl
@[simp] theorem endCommand_seq_matchReg (s : State) (code : EndCode) : (s.endCommand code).seq.matchReg = s.seq.matchReg := rfl
@[simp] theorem endCommand_seq_pos (s : State) (code : EndCode) : (s.endCommand code).seq.pos = .idle := rfl
@[simp] theorem endCommand_env (s : State) (code : EndCode) : (s.endCommand code).env = s.env := rfl
@[simp] theorem endCommand_history (s : State) (code : EndCode) : (s.endCommand code).history = s.history ++ [.ended code] := rfl
@[simp] theorem endCommand_reads (s : State) (code : EndCode) : (s.endCommand code).reads = s.reads := rfl
@[simp] theorem endCommand_attempts (s : State) (code : EndCode) : (s.endCommand code).attempts = s.attempts := rfl
@[simp] theorem endCommand_draws (s : State) (code : EndCode) : (s.endCommand code).draws = s.draws := rfl

@[simp] theorem publish_pads (s : State) (res : ScanResult) : (s.publish res).pads = s.pads := rfl
@[simp] theorem publish_config (s : State) (res : ScanResult) : (s.publish res).config = s.config := rfl
@[simp] theorem publish_staging (s : State) (res : ScanResult) : (s.publish res).staging = s.staging := rfl
@[simp] theorem publish_status_busy (s : State) (res : ScanResult) : (s.publish res).status.busy = s.status.busy := rfl
@[simp] theorem publish_status_rvalid (s : State) (res : ScanResult) : (s.publish res).status.rvalid = true := rfl
@[simp] theorem publish_status_matchedAny (s : State) (res : ScanResult) : (s.publish res).status.matchedAny = (s.status.matchedAny || res.matched) := rfl
@[simp] theorem publish_status_cancelPending (s : State) (res : ScanResult) : (s.publish res).status.cancelPending = s.status.cancelPending := rfl
@[simp] theorem publish_status_endCode (s : State) (res : ScanResult) : (s.publish res).status.endCode = s.status.endCode := rfl
@[simp] theorem publish_status_err (s : State) (res : ScanResult) : (s.publish res).status.err = s.status.err := rfl
@[simp] theorem publish_result_clk (s : State) (res : ScanResult) : (s.publish res).result.clk = res.clk := rfl
@[simp] theorem publish_result_data (s : State) (res : ScanResult) : (s.publish res).result.data = res.data := rfl
@[simp] theorem publish_result_matched (s : State) (res : ScanResult) : (s.publish res).result.matched = res.matched := rfl
@[simp] theorem publish_result_raw (s : State) (res : ScanResult) : (s.publish res).result.raw = res.raw := rfl
@[simp] theorem publish_result_count (s : State) (res : ScanResult) : (s.publish res).result.count = s.result.count + 1 := rfl
@[simp] theorem publish_cur (s : State) (res : ScanResult) : (s.publish res).cur = s.cur := rfl
@[simp] theorem publish_seq_cmdKind (s : State) (res : ScanResult) : (s.publish res).seq.cmdKind = s.seq.cmdKind := rfl
@[simp] theorem publish_seq_iterClk (s : State) (res : ScanResult) : (s.publish res).seq.iterClk = s.seq.iterClk := rfl
@[simp] theorem publish_seq_iterData (s : State) (res : ScanResult) : (s.publish res).seq.iterData = s.seq.iterData := rfl
@[simp] theorem publish_seq_upc (s : State) (res : ScanResult) : (s.publish res).seq.upc = s.seq.upc := rfl
@[simp] theorem publish_seq_prog (s : State) (res : ScanResult) : (s.publish res).seq.prog = s.seq.prog := rfl
@[simp] theorem publish_seq_sr (s : State) (res : ScanResult) : (s.publish res).seq.sr = s.seq.sr := rfl
@[simp] theorem publish_seq_bitCnt (s : State) (res : ScanResult) : (s.publish res).seq.bitCnt = s.seq.bitCnt := rfl
@[simp] theorem publish_seq_pcnt (s : State) (res : ScanResult) : (s.publish res).seq.pcnt = s.seq.pcnt := rfl
@[simp] theorem publish_seq_timer (s : State) (res : ScanResult) : (s.publish res).seq.timer = s.seq.timer := rfl
@[simp] theorem publish_seq_rawReg (s : State) (res : ScanResult) : (s.publish res).seq.rawReg = s.seq.rawReg := rfl
@[simp] theorem publish_seq_matchReg (s : State) (res : ScanResult) : (s.publish res).seq.matchReg = s.seq.matchReg := rfl
@[simp] theorem publish_seq_pos (s : State) (res : ScanResult) : (s.publish res).seq.pos = .waitPop := rfl
@[simp] theorem publish_env (s : State) (res : ScanResult) : (s.publish res).env = s.env := rfl
@[simp] theorem publish_history (s : State) (res : ScanResult) : (s.publish res).history = s.history ++ [.publish res] := rfl
@[simp] theorem publish_reads (s : State) (res : ScanResult) : (s.publish res).reads = s.reads := rfl
@[simp] theorem publish_attempts (s : State) (res : ScanResult) : (s.publish res).attempts = s.attempts := rfl
@[simp] theorem publish_draws (s : State) (res : ScanResult) : (s.publish res).draws = s.draws := rfl

@[simp] theorem startAttempt_pads (s : State) (c d : Pin) : (s.startAttempt c d).pads = s.pads := rfl
@[simp] theorem startAttempt_config (s : State) (c d : Pin) : (s.startAttempt c d).config = s.config := rfl
@[simp] theorem startAttempt_staging (s : State) (c d : Pin) : (s.startAttempt c d).staging = s.staging := rfl
@[simp] theorem startAttempt_status (s : State) (c d : Pin) : (s.startAttempt c d).status = s.status := rfl
@[simp] theorem startAttempt_result (s : State) (c d : Pin) : (s.startAttempt c d).result = s.result := rfl
@[simp] theorem startAttempt_cur_clk (s : State) (c d : Pin) : (s.startAttempt c d).cur.clk = c := rfl
@[simp] theorem startAttempt_cur_data (s : State) (c d : Pin) : (s.startAttempt c d).cur.data = d := rfl
@[simp] theorem startAttempt_cur_active (s : State) (c d : Pin) : (s.startAttempt c d).cur.active = s.cur.active := rfl
@[simp] theorem startAttempt_cur_stage (s : State) (c d : Pin) : (s.startAttempt c d).cur.stage = s.cur.stage := rfl
@[simp] theorem startAttempt_seq_cmdKind (s : State) (c d : Pin) : (s.startAttempt c d).seq.cmdKind = s.seq.cmdKind := rfl
@[simp] theorem startAttempt_seq_iterClk (s : State) (c d : Pin) : (s.startAttempt c d).seq.iterClk = s.seq.iterClk := rfl
@[simp] theorem startAttempt_seq_iterData (s : State) (c d : Pin) : (s.startAttempt c d).seq.iterData = s.seq.iterData := rfl
@[simp] theorem startAttempt_seq_upc (s : State) (c d : Pin) : (s.startAttempt c d).seq.upc = 0 := rfl
@[simp] theorem startAttempt_seq_prog (s : State) (c d : Pin) : (s.startAttempt c d).seq.prog = program s.config.idleSel s.config.dormantWake := rfl
@[simp] theorem startAttempt_seq_sr (s : State) (c d : Pin) : (s.startAttempt c d).seq.sr = s.seq.sr := rfl
@[simp] theorem startAttempt_seq_bitCnt (s : State) (c d : Pin) : (s.startAttempt c d).seq.bitCnt = s.seq.bitCnt := rfl
@[simp] theorem startAttempt_seq_pcnt (s : State) (c d : Pin) : (s.startAttempt c d).seq.pcnt = s.seq.pcnt := rfl
@[simp] theorem startAttempt_seq_timer (s : State) (c d : Pin) : (s.startAttempt c d).seq.timer = s.seq.timer := rfl
@[simp] theorem startAttempt_seq_rawReg (s : State) (c d : Pin) : (s.startAttempt c d).seq.rawReg = 0 := rfl
@[simp] theorem startAttempt_seq_matchReg (s : State) (c d : Pin) : (s.startAttempt c d).seq.matchReg = false := rfl
@[simp] theorem startAttempt_seq_pos (s : State) (c d : Pin) : (s.startAttempt c d).seq.pos = .attempt := rfl
@[simp] theorem startAttempt_env (s : State) (c d : Pin) : (s.startAttempt c d).env = s.env := rfl
@[simp] theorem startAttempt_history (s : State) (c d : Pin) : (s.startAttempt c d).history = s.history := rfl
@[simp] theorem startAttempt_reads (s : State) (c d : Pin) : (s.startAttempt c d).reads = s.reads := rfl
@[simp] theorem startAttempt_attempts (s : State) (c d : Pin) : (s.startAttempt c d).attempts = s.attemptMark c d :: s.attempts := rfl
@[simp] theorem startAttempt_draws (s : State) (c d : Pin) : (s.startAttempt c d).draws = s.draws := rfl

@[simp] theorem mapPad_pads (s : State) (p : Pin) (f : Pad → Pad) : (s.mapPad p f).pads = s.pads.modify p.toNat f := rfl
@[simp] theorem mapPad_config (s : State) (p : Pin) (f : Pad → Pad) : (s.mapPad p f).config = s.config := rfl
@[simp] theorem mapPad_staging (s : State) (p : Pin) (f : Pad → Pad) : (s.mapPad p f).staging = s.staging := rfl
@[simp] theorem mapPad_status (s : State) (p : Pin) (f : Pad → Pad) : (s.mapPad p f).status = s.status := rfl
@[simp] theorem mapPad_result (s : State) (p : Pin) (f : Pad → Pad) : (s.mapPad p f).result = s.result := rfl
@[simp] theorem mapPad_cur (s : State) (p : Pin) (f : Pad → Pad) : (s.mapPad p f).cur = s.cur := rfl
@[simp] theorem mapPad_seq (s : State) (p : Pin) (f : Pad → Pad) : (s.mapPad p f).seq = s.seq := rfl
@[simp] theorem mapPad_env (s : State) (p : Pin) (f : Pad → Pad) : (s.mapPad p f).env = s.env := rfl
@[simp] theorem mapPad_history (s : State) (p : Pin) (f : Pad → Pad) : (s.mapPad p f).history = s.history := rfl
@[simp] theorem mapPad_reads (s : State) (p : Pin) (f : Pad → Pad) : (s.mapPad p f).reads = s.reads := rfl
@[simp] theorem mapPad_attempts (s : State) (p : Pin) (f : Pad → Pad) : (s.mapPad p f).attempts = s.attempts := rfl
@[simp] theorem mapPad_draws (s : State) (p : Pin) (f : Pad → Pad) : (s.mapPad p f).draws = s.draws := rfl

@[simp] theorem withDir_pads (s : State) (p : Pin) (d : Dir) : (s.withDir p d).pads = s.pads.modify p.toNat fun pad => { pad with dir := d } := rfl
@[simp] theorem withDir_config (s : State) (p : Pin) (d : Dir) : (s.withDir p d).config = s.config := rfl
@[simp] theorem withDir_staging (s : State) (p : Pin) (d : Dir) : (s.withDir p d).staging = s.staging := rfl
@[simp] theorem withDir_status (s : State) (p : Pin) (d : Dir) : (s.withDir p d).status = s.status := rfl
@[simp] theorem withDir_result (s : State) (p : Pin) (d : Dir) : (s.withDir p d).result = s.result := rfl
@[simp] theorem withDir_cur (s : State) (p : Pin) (d : Dir) : (s.withDir p d).cur = s.cur := rfl
@[simp] theorem withDir_seq (s : State) (p : Pin) (d : Dir) : (s.withDir p d).seq = s.seq := rfl
@[simp] theorem withDir_env (s : State) (p : Pin) (d : Dir) : (s.withDir p d).env = s.env := rfl
@[simp] theorem withDir_history (s : State) (p : Pin) (d : Dir) : (s.withDir p d).history = s.history := rfl
@[simp] theorem withDir_reads (s : State) (p : Pin) (d : Dir) : (s.withDir p d).reads = s.reads := rfl
@[simp] theorem withDir_attempts (s : State) (p : Pin) (d : Dir) : (s.withDir p d).attempts = s.attempts := rfl
@[simp] theorem withDir_draws (s : State) (p : Pin) (d : Dir) : (s.withDir p d).draws = s.draws := rfl

@[simp] theorem withOut_pads (s : State) (p : Pin) (l : Level) : (s.withOut p l).pads = s.pads.modify p.toNat fun pad => { pad with out := l } := rfl
@[simp] theorem withOut_config (s : State) (p : Pin) (l : Level) : (s.withOut p l).config = s.config := rfl
@[simp] theorem withOut_staging (s : State) (p : Pin) (l : Level) : (s.withOut p l).staging = s.staging := rfl
@[simp] theorem withOut_status (s : State) (p : Pin) (l : Level) : (s.withOut p l).status = s.status := rfl
@[simp] theorem withOut_result (s : State) (p : Pin) (l : Level) : (s.withOut p l).result = s.result := rfl
@[simp] theorem withOut_cur (s : State) (p : Pin) (l : Level) : (s.withOut p l).cur = s.cur := rfl
@[simp] theorem withOut_seq (s : State) (p : Pin) (l : Level) : (s.withOut p l).seq = s.seq := rfl
@[simp] theorem withOut_env (s : State) (p : Pin) (l : Level) : (s.withOut p l).env = s.env := rfl
@[simp] theorem withOut_history (s : State) (p : Pin) (l : Level) : (s.withOut p l).history = s.history := rfl
@[simp] theorem withOut_reads (s : State) (p : Pin) (l : Level) : (s.withOut p l).reads = s.reads := rfl
@[simp] theorem withOut_attempts (s : State) (p : Pin) (l : Level) : (s.withOut p l).attempts = s.attempts := rfl
@[simp] theorem withOut_draws (s : State) (p : Pin) (l : Level) : (s.withOut p l).draws = s.draws := rfl

@[simp] theorem scramble_pads (s : State) (p : Pin) : (s.scramble p).pads = s.pads.modify p.toNat fun _ => ⟨Config.freeDir s.draws, Config.freeLevel s.draws⟩ := rfl
@[simp] theorem scramble_config (s : State) (p : Pin) : (s.scramble p).config = s.config := rfl
@[simp] theorem scramble_staging (s : State) (p : Pin) : (s.scramble p).staging = s.staging := rfl
@[simp] theorem scramble_status (s : State) (p : Pin) : (s.scramble p).status = s.status := rfl
@[simp] theorem scramble_result (s : State) (p : Pin) : (s.scramble p).result = s.result := rfl
@[simp] theorem scramble_cur (s : State) (p : Pin) : (s.scramble p).cur = s.cur := rfl
@[simp] theorem scramble_seq (s : State) (p : Pin) : (s.scramble p).seq = s.seq := rfl
@[simp] theorem scramble_env (s : State) (p : Pin) : (s.scramble p).env = s.env := rfl
@[simp] theorem scramble_history (s : State) (p : Pin) : (s.scramble p).history = s.history := rfl
@[simp] theorem scramble_reads (s : State) (p : Pin) : (s.scramble p).reads = s.reads := rfl
@[simp] theorem scramble_attempts (s : State) (p : Pin) : (s.scramble p).attempts = s.attempts := rfl
@[simp] theorem scramble_draws (s : State) (p : Pin) : (s.scramble p).draws = s.draws + 1 := rfl

@[simp] theorem afterReset_pads (s : State) : s.afterReset.pads = List.replicate s.pads.length Pad.reset := rfl
@[simp] theorem afterReset_config (s : State) : s.afterReset.config = ScanConfig.reset := rfl
@[simp] theorem afterReset_staging (s : State) : s.afterReset.staging = Staging.reset := rfl
@[simp] theorem afterReset_status (s : State) : s.afterReset.status = Status.reset := rfl
@[simp] theorem afterReset_result (s : State) : s.afterReset.result = ResultBuffer.reset := rfl
@[simp] theorem afterReset_cur (s : State) : s.afterReset.cur = Current.reset := rfl
@[simp] theorem afterReset_seq (s : State) : s.afterReset.seq = Sequencer.reset := rfl
@[simp] theorem afterReset_env (s : State) : s.afterReset.env = s.env := rfl
@[simp] theorem afterReset_history (s : State) : s.afterReset.history = s.history := rfl
@[simp] theorem afterReset_reads (s : State) : s.afterReset.reads = s.reads := rfl
@[simp] theorem afterReset_attempts (s : State) : s.afterReset.attempts = s.attempts := rfl
@[simp] theorem afterReset_draws (s : State) : s.afterReset.draws = s.draws := rfl

end Sys2Proof.Machine.State
end

