-- ==== Sys2Proof/Laws/Quiet.lean ====
section
/-! SUPPORT. Laws/Quiet.lean: what the block step, the pad primitives and the loops of the link driver do when no reset, no host access
and no pad fault is to come: each goes on, in a state written out. -/

namespace Sys2Proof.Machine

theorem Quiet.nil : Quiet [] := by simp [Quiet]

theorem Quiet.tail {p : Ports} {env : List Ports} (h : Quiet (p :: env)) : Quiet env :=
  fun q hq => h q (List.mem_cons_of_mem _ hq)

theorem Quiet.drop {env : List Ports} (h : Quiet env) (k : Nat) : Quiet (env.drop k) :=
  fun q hq => h q (List.mem_of_mem_drop hq)

theorem Quiet.headD {env : List Ports} (h : Quiet env) : (env.headD Ports.quiet).pinFault = false := by
  cases env with
  | nil => rfl
  | cons p rest => exact (h p (List.mem_cons_self ..)).2.2

@[simp] theorem Flow.go_andThen {α β : Type} (a : α) (s : State) (k : α → State → Flow β) :
    (Flow.go a s).andThen k = k a s := rfl

@[simp] theorem Flow.stop_andThen {α β : Type} (r : Result) (k : α → State → Flow β) :
    (Flow.stop r : Flow α).andThen k = .stop r := rfl

@[simp] theorem finish_go (u : Unit) (s : State) : finish (.go u s) = .next { s with seq.upc := s.seq.upc + 1 } := rfl

@[simp] theorem finish_stop (r : Result) : finish (.stop r) = r := rfl

/-- A block step on quiet ports takes one sample of them and goes on. -/
theorem tick_quiet {s : State} (h : Quiet s.env) :
    tick s = .go (s.env.headD Ports.quiet) { s with env := s.env.drop 1 } := by
  obtain ⟨pads, config, staging, status, result, cur, seq, env, history, attempts, reads, draws⟩ := s
  cases env with
  | nil => rfl
  | cons p rest =>
    obtain ⟨hr, hh, -⟩ := h p (List.mem_cons_self ..)
    simp [tick, hr, hh, serve]

theorem primitive_quiet {α : Type} {s : State} (h : Quiet s.env) {pad : Option Pin} (hp : ∀ p ∈ pad, p.toNat < s.pads.length)
    (effect : Ports → State → α × State) (failed : State → State) :
    primitive pad effect failed s =
      .go (effect (s.env.headD Ports.quiet) { s with env := s.env.drop 1 }).1
        (effect (s.env.headD Ports.quiet) { s with env := s.env.drop 1 }).2 := by
  have hany : (pad.any fun p => !pinInRange { s with env := s.env.drop 1 } p) = false := by
    cases pad with
    | none => rfl
    | some p => simp [pinInRange, State.pinCount, hp p rfl]
  have hf := h.headD
  simp only [primitive, tick_quiet h, Flow.go_andThen, hany, hf]
  simp

theorem setDir_quiet {s : State} (h : Quiet s.env) {p : Pin} (hp : p.toNat < s.pads.length) (d : Dir) :
    setDir p d s =
      .go ()
        { s with
          pads := s.pads.modify p.toNat fun pad => { pad with dir := d },
          env := s.env.drop 1,
          history := s.history ++ [.setDir p d] } := by
  rw [setDir, primitive_quiet h (by simpa using hp)]
  rfl

/-- The pin drives the level from the SetDir on (20_memory.md R96). -/
theorem setDirDriving_quiet {s : State} (h : Quiet s.env) {p : Pin} (hp : p.toNat < s.pads.length) (l : Level) :
    setDirDriving p l s =
      .go ()
        { s with
          pads := s.pads.modify p.toNat fun _ => ⟨.output, l⟩,
          env := s.env.drop 1,
          history := s.history ++ [.setDir p .output] } := by
  rw [setDirDriving, primitive_quiet h (by simpa using hp)]
  simp [State.withDir, State.withOut, State.mapPad, State.emit, List.modify_modify_eq, Function.comp_def]

theorem wrLvl_quiet {s : State} (h : Quiet s.env) {p : Pin} (hp : p.toNat < s.pads.length) (l : Level) :
    wrLvl p l s =
      .go ()
        { s with
          pads := s.pads.modify p.toNat fun pad => { pad with out := l },
          env := s.env.drop 1,
          history := s.history ++ [.wrLvl p l] } := by
  rw [wrLvl, primitive_quiet h (by simpa using hp)]
  rfl

theorem sleepHalf_quiet {s : State} (h : Quiet s.env) :
    sleepHalf s =
      .go ()
        { s with seq.timer := 0, env := s.env.drop 1, history := s.history ++ [.sleep Config.tHalfUs] } := by
  rw [sleepHalf, primitive_quiet h (by simp)]
  rfl

/-- A sample answers the level that something drives, or that of an undriven pad, and appends it to the history. -/
theorem rdLvl_quiet {s : State} (h : Quiet s.env) {p : Pin} (hp : p.toNat < s.pads.length) :
    rdLvl p s =
      .go (sampleLevel p (s.env.headD Ports.quiet) s).1
        { s with
          env := s.env.drop 1,
          history := s.history ++ [.rdLvl p (sampleLevel p (s.env.headD Ports.quiet) s).1],
          draws := (sampleLevel p (s.env.headD Ports.quiet) s).2.draws } := by
  rw [rdLvl, primitive_quiet h (by simpa using hp)]
  cases hl : (s.env.headD Ports.quiet).padI p <;> simp only [sampleLevel, hl, State.emit]

/-- One pulse: the clock pad ends High, four samples of the ports are taken. -/
theorem pulseClock_quiet {s : State} (h : Quiet s.env) {clk : Pin} (hc : clk.toNat < s.pads.length) :
    pulseClock clk s =
      .go ()
        { s with
          pads := s.pads.modify clk.toNat fun pad => { pad with out := .high },
          seq.timer := 0,
          env := s.env.drop 4,
          history := s.history ++ pulseEvents clk } := by
  simp [-List.drop_one, pulseClock, wrLvl_quiet, sleepHalf_quiet, h, h.drop, hc, List.modify_modify_eq, Function.comp_def, pulseEvents]

theorem driveLine_quiet {s : State} (h : Quiet s.env) {data : Pin} (hd : data.toNat < s.pads.length) (b : Level) :
    driveLine data b s =
      .go ()
        { s with
          pads := s.pads.modify data.toNat fun _ => ⟨.output, b⟩,
          env := s.env.drop 2,
          history := s.history ++ driveEvents data b } := by
  simp [-List.drop_one, driveLine, setDirDriving_quiet, wrLvl_quiet, h, h.drop, hd, List.modify_modify_eq, Function.comp_def, driveEvents]

theorem writeBit_quiet {s : State} (h : Quiet s.env) {clk data : Pin} (hc : clk.toNat < s.pads.length)
    (hd : data.toNat < s.pads.length) (b : Level) :
    writeBit clk data b s =
      .go ()
        { s with
          pads := (s.pads.modify data.toNat fun _ => ⟨.output, b⟩).modify clk.toNat fun pad => { pad with out := .high },
          seq.timer := 0,
          env := s.env.drop 6,
          history := s.history ++ writeBitEvents clk data b } := by
  simp [-List.drop_one, writeBit, driveLine_quiet, pulseClock_quiet, h, h.drop, hc, hd, writeBitEvents]

/-- Driving the data pad again, then raising the clock pad again, replaces the data pad's earlier drive. -/
theorem modify_drive_again (pads : List Pad) (c d : Nat) (x y : Pad) :
    (((pads.modify d fun _ => x).modify c fun pad => { pad with out := .high }).modify d fun _ => y).modify c
        (fun pad => { pad with out := .high }) =
      (pads.modify d fun _ => y).modify c fun pad => { pad with out := .high } := by
  by_cases hcd : c = d
  · subst hcd
    simp [List.modify_modify_eq, Function.comp_def]
  · rw [List.modify_modify_ne _ _ (pads.modify d fun _ => x) hcd]
    simp [List.modify_modify_eq, Function.comp_def]

/-- The pads after a loop of writes: the data pad at the last bit, the clock pad High. -/
def padsAfterWrite (pads : List Pad) (clk data : Pin) (v : BitVec 64) (k i : Nat) : List Pad :=
  match k with
  | 0 => pads
  | k + 1 =>
    (pads.modify data.toNat fun _ => ⟨.output, bitLevel v (i + k)⟩).modify clk.toNat fun pad => { pad with out := .high }

theorem length_padsAfterWrite (pads : List Pad) (clk data : Pin) (v : BitVec 64) (k i : Nat) :
    (padsAfterWrite pads clk data v k i).length = pads.length := by
  cases k <;> simp [padsAfterWrite]

theorem padsAfterWrite_succ (pads : List Pad) (clk data : Pin) (v : BitVec 64) (k i : Nat) :
    padsAfterWrite
        ((pads.modify data.toNat fun _ => ⟨.output, bitLevel v i⟩).modify clk.toNat fun pad => { pad with out := .high })
        clk data v k (i + 1) =
      padsAfterWrite pads clk data v (k + 1) i := by
  cases k with
  | zero => simp [padsAfterWrite]
  | succ k =>
    simp only [padsAfterWrite, modify_drive_again]
    rw [show i + 1 + k = i + (k + 1) by omega]

/-- The loop of WBITS on quiet ports. -/
theorem writeLoop_quiet (clk data : Pin) (v : BitVec 64) (k : Nat) :
    ∀ (i : Nat) (s : State), Quiet s.env → clk.toNat < s.pads.length → data.toNat < s.pads.length →
      writeLoop clk data v k i s =
        .go ()
          { s with
            pads := padsAfterWrite s.pads clk data v k i,
            seq.bitCnt := if k = 0 then s.seq.bitCnt else BitVec.ofNat 7 (i + k),
            seq.timer := if k = 0 then s.seq.timer else 0,
            env := s.env.drop (6 * k),
            history := s.history ++ writeLoopEvents clk data v k i } := by
  induction k with
  | zero =>
    intro i s h hc hd
    simp [writeLoop, padsAfterWrite, writeLoopEvents]
  | succ k ih =>
    intro i s h hc hd
    rw [writeLoop, writeBit_quiet h hc hd, Flow.go_andThen, ih]
    · simp only [padsAfterWrite_succ, writeLoopEvents, List.append_assoc, List.drop_drop]
      congr 2
      · by_cases hk : k = 0 <;> simp [hk]
        all_goals congr 1
        all_goals omega
      · congr 1
        omega
    · exact h.drop 6
    · simpa using hc
    · simpa using hd

/-- The pulses of LRESET on quiet ports. -/
theorem pulseLoop_quiet (clk : Pin) (k : Nat) :
    ∀ (i : Nat) (s : State), Quiet s.env → clk.toNat < s.pads.length →
      pulseLoop clk k i s =
        .go ()
          { s with
            pads := if k = 0 then s.pads else s.pads.modify clk.toNat fun pad => { pad with out := .high },
            seq.pcnt := if k = 0 then s.seq.pcnt else BitVec.ofNat 7 (i + k),
            seq.timer := if k = 0 then s.seq.timer else 0,
            env := s.env.drop (4 * k),
            history := s.history ++ pulsesEvents clk k } := by
  induction k with
  | zero =>
    intro i s h hc
    simp [pulseLoop, pulsesEvents]
  | succ k ih =>
    intro i s h hc
    rw [pulseLoop, pulseClock_quiet h hc, Flow.go_andThen, ih]
    · simp only [pulsesEvents, List.append_assoc, List.drop_drop, List.modify_modify_eq, Function.comp_def]
      congr 2
      · by_cases hk : k = 0 <;> simp [hk]
      · by_cases hk : k = 0 <;> simp [hk]
        all_goals congr 1
        all_goals omega
      · congr 1
        omega
    · exact h.drop 4
    · simpa using hc

/-- The value of the levels after the one just sampled, put above it. -/
theorem putBit_or_valueOfLevels (r : BitVec 64) (i : Nat) (l : Level) (ls : List Level) :
    putBit r i l ||| valueOfLevels ls <<< (i + 1) = r ||| valueOfLevels (l :: ls) <<< i := by
  rw [putBit, valueOfLevels, BitVec.shiftLeft_or_distrib, ← BitVec.shiftLeft_add, Nat.add_comm 1 i, BitVec.or_assoc]

/-- The loop of RBITS on quiet ports. -/
theorem readLoop_quiet (clk data : Pin) (k : Nat) :
    ∀ (i : Nat) (r : BitVec 64) (s : State), Quiet s.env → clk.toNat < s.pads.length → data.toNat < s.pads.length →
      readLoop clk data k i r s =
        .go (r ||| valueOfLevels (drawLevels data k s.env s.draws).1 <<< i)
          { s with
            pads := if k = 0 then s.pads else s.pads.modify clk.toNat fun pad => { pad with out := .high },
            seq.bitCnt := if k = 0 then s.seq.bitCnt else BitVec.ofNat 7 (i + k),
            seq.timer := if k = 0 then s.seq.timer else 0,
            env := s.env.drop (5 * k),
            history := s.history ++ readLoopEvents clk data (drawLevels data k s.env s.draws).1,
            draws := (drawLevels data k s.env s.draws).2 } := by
  induction k with
  | zero =>
    intro i r s h hc hd
    simp [readLoop, drawLevels, valueOfLevels, readLoopEvents]
  | succ k ih =>
    intro i r s h hc hd
    rw [readLoop, rdLvl_quiet h hd, Flow.go_andThen, pulseClock_quiet, Flow.go_andThen, ih]
    · cases hl : (s.env.headD Ports.quiet).padI data
      all_goals
        simp only [sampleLevel, drawLevels, hl, putBit_or_valueOfLevels, List.drop_drop, List.modify_modify_eq, Function.comp_def,
          List.append_assoc, readLoopEvents, List.flatMap_cons, Nat.reduceAdd]
        congr 2
        · by_cases hk : k = 0 <;> simp [hk]
        · by_cases hk : k = 0 <;> simp [hk]
          all_goals congr 1
          all_goals omega
        · congr 1
          omega
    · exact (h.drop 1).drop 4
    · simpa using hc
    · simpa using hd
    · exact h.drop 1
    · exact hc

end Sys2Proof.Machine
end

