-- ==== Sys2Proof/Laws/Bits.lean ====
section
/-! SUPPORT. Laws/Bits.lean: writeBits and readBits on quiet ports, each in a state written out, and the bits of the values that they send
and collect. -/

namespace Sys2Proof.Machine

theorem bitLevel_eq (v : BitVec 64) (i : Nat) : bitLevel v i = if v.getLsbD i then .high else .low := by
  unfold bitLevel Level.ofBool
  cases v.getLsbD i <;> rfl

theorem getLsbD_lowBits (n : Nat) (v : BitVec 64) (i : Nat) : (lowBits n v).getLsbD i = (decide (i < n) && v.getLsbD i) := by
  unfold lowBits
  by_cases h : i < 64
  · simp [BitVec.getLsbD_setWidth, h]
  · simp [BitVec.getLsbD_setWidth, BitVec.getLsbD_of_ge v i (by omega)]

theorem getLsbD_valueOfLevels (levels : List Level) :
    ∀ i, (valueOfLevels levels).getLsbD i = (decide (i < 64) && ((levels[i]?).map Level.toBool).getD false) := by
  induction levels with
  | nil => intro i; simp [valueOfLevels]
  | cons l ls ih =>
    intro i
    cases i with
    | zero => simp [valueOfLevels]
    | succ i =>
      simp only [valueOfLevels, BitVec.getLsbD_or, BitVec.getLsbD_setWidth, BitVec.getLsbD_shiftLeft, ih]
      by_cases h : i + 1 < 64
      · simp [h]
        intro _
        omega
      · simp [h]

/-- The events of a loop of writes, bit by bit (40_link_driver.md R179). -/
theorem writeLoopEvents_eq (clk data : Pin) (v : BitVec 64) (k : Nat) :
    ∀ i, writeLoopEvents clk data v k i = (List.range k).flatMap fun j => writeBitEvents clk data (bitLevel v (i + j)) := by
  induction k with
  | zero => intro i; rfl
  | succ k ih =>
    intro i
    rw [writeLoopEvents, ih, List.range_succ_eq_map]
    simp [List.flatMap_map, Nat.add_assoc, Nat.add_comm 1]

theorem pulsesEvents_eq (clk : Pin) (k : Nat) : pulsesEvents clk k = (List.replicate k (pulseEvents clk)).flatten := by
  induction k with
  | zero => rfl
  | succ k ih => simp [pulsesEvents, ih, List.replicate_succ]

theorem length_drawLevels (data : Pin) (k : Nat) : ∀ (env : List Ports) (draws : Nat), (drawLevels data k env draws).1.length = k := by
  induction k with
  | zero => intro _ _; rfl
  | succ k ih =>
    intro env draws
    unfold drawLevels
    split <;> simp [ih]

/-- A sample draws the level that something drives. -/
theorem drawLevels_driven (data : Pin) (k : Nat) :
    ∀ (env : List Ports) (draws i : Nat) (p : Ports) (l : Level),
      i < k → env[5 * i]? = some p → p.padI data = some l → (drawLevels data k env draws).1[i]? = some l := by
  induction k with
  | zero => intro _ _ _ _ _ h; omega
  | succ k ih =>
    intro env draws i p l hi he hl
    cases i with
    | zero =>
      have hp : env.headD Ports.quiet = p := by cases env <;> simp_all
      simp only [drawLevels, hp, hl]
      rfl
    | succ i =>
      have he2 : (env.drop 5)[5 * i]? = some p := by
        rw [List.getElem?_drop, ← he]
        congr 1
        omega
      unfold drawLevels
      split <;> simp only [List.getElem?_cons_succ] <;> exact ih _ _ _ p l (by omega) he2 hl

theorem count_eq_zero (n : BitVec 7) : n.toNat = 0 ↔ n = 0 := by
  rw [← BitVec.toNat_inj]
  rfl

/-- writeBits on quiet ports (40_link_driver.md R179). -/
theorem writeBits_quiet {s : State} (h : Quiet s.env) (hp : PairInRange s) (n : BitVec 7) (v : BitVec 64) :
    writeBits n v s =
      .go ()
        { s with
          pads := padsAfterWrite s.pads s.cur.clk s.cur.data v n.toNat 0,
          seq := { s.seq with sr := lowBits n.toNat v, bitCnt := n, timer := if n = 0 then s.seq.timer else 0 },
          env := s.env.drop (6 * n.toNat),
          history :=
            s.history ++ writeBitsEvents s.cur.clk s.cur.data n.toNat v ++
              traceEvents s.config.verbosity .tx n (lowBits n.toNat v) } := by
  have h1 : s.cur.clk.toNat < s.pads.length := hp.1
  have h2 : s.cur.data.toNat < s.pads.length := hp.2
  rw [writeBits, writeLoop_quiet _ _ _ _ _ _ (by exact h) (by exact h1) (by exact h2), Flow.go_andThen]
  unfold State.emitTrace traceEvents
  by_cases hv : s.config.verbosity = .verbose
  · simp [hv, writeBitsEvents, count_eq_zero, State.emit]
    exact fun h => h.symm
  · simp [hv, writeBitsEvents, count_eq_zero]
    exact fun h => h.symm

/-- Releasing the data pad, pulsing and driving it again leaves it as driven. -/
theorem modify_release_drive (pads : List Pad) (c d : Nat) (x : Pad) :
    (((pads.modify d fun pad => { pad with dir := .input }).modify c fun pad => { pad with out := .high }).modify d fun _ => x) =
      (pads.modify c fun pad => { pad with out := .high }).modify d fun _ => x := by
  by_cases hcd : c = d
  · subst hcd
    simp [List.modify_modify_eq, Function.comp_def]
  · rw [List.modify_modify_ne _ _ pads (Ne.symm hcd)]
    simp [List.modify_modify_eq, Function.comp_def]

/-- readBits on quiet ports (40_link_driver.md R182). -/
theorem readBits_quiet {s : State} (h : Quiet s.env) (hp : PairInRange s) (n : BitVec 7) :
    readBits n s =
      .go ()
        { s with
          pads :=
            ((if n = 0 then s.pads else s.pads.modify s.cur.clk.toNat fun pad => { pad with out := .high }).modify
              s.cur.data.toNat fun _ => ⟨.output, .high⟩),
          seq :=
            { s.seq with
              sr := valueOfLevels (drawLevels s.cur.data n.toNat (s.env.drop 1) s.draws).1,
              rawReg := (valueOfLevels (drawLevels s.cur.data n.toNat (s.env.drop 1) s.draws).1).setWidth 36,
              bitCnt := n,
              timer := if n = 0 then s.seq.timer else 0 },
          env := s.env.drop (3 + 5 * n.toNat),
          history :=
            s.history ++ readBitsEvents s.cur.clk s.cur.data (drawLevels s.cur.data n.toNat (s.env.drop 1) s.draws).1 ++
              traceEvents s.config.verbosity .rx n (valueOfLevels (drawLevels s.cur.data n.toNat (s.env.drop 1) s.draws).1),
          draws := (drawLevels s.cur.data n.toNat (s.env.drop 1) s.draws).2 } := by
  have h1 : s.cur.clk.toNat < s.pads.length := hp.1
  have h2 : s.cur.data.toNat < s.pads.length := hp.2
  rw [readBits, releaseLine, setDir_quiet (by exact h) (by exact h2), Flow.go_andThen,
    readLoop_quiet _ _ _ _ _ _ (by exact h.drop 1) (by simpa using h1) (by simpa using h2), Flow.go_andThen,
    driveLine_quiet (by exact (h.drop 1).drop _) (by simp; split <;> simpa using h2), Flow.go_andThen]
  have e1 : 1 + 5 * n.toNat + 2 = 3 + 5 * n.toNat := by omega
  unfold State.emitTrace traceEvents
  by_cases h0 : n = 0
  · subst h0
    by_cases hv : s.config.verbosity = .verbose <;>
      simp [-List.drop_one, hv, State.emit, readBitsEvents, List.drop_drop, List.modify_modify_eq, Function.comp_def]
  · have h0' : n.toNat ≠ 0 := fun h => h0 ((count_eq_zero n).1 h)
    by_cases hv : s.config.verbosity = .verbose
    all_goals
      simp only [hv, if_true, if_false, h0, h0', List.drop_drop, e1, modify_release_drive, readBitsEvents, State.emit]
      simp

end Sys2Proof.Machine
end

