-- ==== Sys2Proof/Laws/Running.lean ====
section
/-! SUPPORT. Laws/Running.lean: everything a host access, a block step, a pad primitive and the fault entry can do, for whatever inputs
come: one inversion lemma each, and what a host access can change while an attempt runs. -/

namespace Sys2Proof.Machine

/-- Everything a write to CMD can do: reject it, or run the command it decodes to. -/
theorem writeCmd_cases {w : Word} {s : State} {r : Result} (h : writeCmd w s = r) :
    (decodeHost w = .error .illegalCmd ∧ r = .next (s.reject .illegalCmd)) ∨
      (decodeHost w = .error .badField ∧ r = .next (s.reject .badField)) ∨
      ∃ i, decodeHost w = .ok i ∧ r = hostCommand i s := by
  unfold writeCmd at h
  split at h
  · rename_i hd; exact .inl ⟨hd, h.symm⟩
  · rename_i hd; exact .inr (.inl ⟨hd, h.symm⟩)
  · rename_i i hd; exact .inr (.inr ⟨i, hd, h.symm⟩)

/-- What a decoder of commands answers is a command. -/
theorem isHost_of_decodeHost {w : Word} {i : Instr} (h : decodeHost w = .ok i) : i.isHost = true := by
  unfold decodeHost at h
  split at h
  case h_1 =>
    split at h
    · split at h
      · cases h; rfl
      · cases h
    · cases h
  case h_6 => cases h
  all_goals
    split at h
    · cases h; rfl
    · cases h

/-- Everything a command can do: reject with a code and change nothing else, or be accepted. -/
theorem hostCommand_cases {i : Instr} {s : State} (hi : i.isHost = true) :
    (∃ code, hostCommand i s = .next (s.reject code)) ∨
      (∃ cfg, s.status.busy = false ∧ (∀ j, s.pinCount ≤ j → (argMask s).getLsbD j = false) ∧ cfg.mask = argMask s ∧
        cfg.maxPin = maxPinOf (argMask s) ∧ hostCommand i s = .next { s with config := cfg, status.err := .ok }) ∨
      (s.status.busy = false ∧ hostCommand i s = .next (s.acceptRun .scan .first)) ∨
      (∃ c d, s.status.busy = false ∧ c ≠ d ∧ c.toNat < s.pinCount ∧ d.toNat < s.pinCount ∧
        hostCommand i s = .next (s.acceptRun .testPair (.begin c d))) ∨
      (s.status.rvalid = true ∧ hostCommand i s = .next { s with status.rvalid := false, status.err := .ok }) ∨
      hostCommand i s = .next { s with status.err := .ok, status.cancelPending := s.status.cancelPending || s.status.busy } := by
  cases i <;> simp only [Instr.isHost, Bool.false_eq_true] at hi
  case configure boh verb dorm idle =>
    by_cases hb : s.status.busy = true
    · exact .inl ⟨.busy, by simp [hostCommand, execConfigure, hb]⟩
    · by_cases hm : maskOutOfRange s (argMask s) = true
      · exact .inl ⟨.badMask, by simp [hostCommand, execConfigure, hb, hm]⟩
      · refine .inr (.inl ⟨⟨argMask s, maxPinOf (argMask s), boh, verb, dorm, idle⟩, by simpa using hb, ?_, rfl, rfl, ?_⟩)
        · intro j hj
          have hz : argMask s >>> s.pinCount = 0 := by simpa [maskOutOfRange] using hm
          have := congrArg (fun x => x.getLsbD (j - s.pinCount)) hz
          simpa [show s.pinCount + (j - s.pinCount) = j by omega] using this
        · simp [hostCommand, execConfigure, hb, hm]
  case scan =>
    by_cases hb : s.status.busy = true
    · exact .inl ⟨.busy, by simp [hostCommand, execScan, hb]⟩
    · exact .inr (.inr (.inl ⟨by simpa using hb, by simp [hostCommand, execScan, hb]⟩))
  case testPair c d =>
    by_cases hb : s.status.busy = true
    · exact .inl ⟨.busy, by simp [hostCommand, execTestPair, hb]⟩
    · by_cases hcd : c = d
      · exact .inl ⟨.badPinSame, by simp [hostCommand, execTestPair, hb, hcd]⟩
      · by_cases hr : (pinInRange s c && pinInRange s d) = true
        · have hr' : c.toNat < s.pinCount ∧ d.toNat < s.pinCount := by simpa [pinInRange] using hr
          refine .inr (.inr (.inr (.inl ⟨c, d, by simpa using hb, hcd, hr'.1, hr'.2, ?_⟩)))
          simp only [hostCommand, execTestPair, hb, hcd, hr]
          simp
        · refine .inl ⟨.badPinRange, ?_⟩
          simp only [hostCommand, execTestPair, hb, hcd, hr]
          simp
  case pop =>
    by_cases hr : s.status.rvalid = true
    · exact .inr (.inr (.inr (.inr (.inl ⟨hr, by simp [hostCommand, execPop, hr]⟩))))
    · exact .inl ⟨.noResult, by simp [hostCommand, execPop, hr]⟩
  case cancel => exact .inr (.inr (.inr (.inr (.inr rfl))))

/-- While an attempt runs a host access changes at most the staging registers, ERR, CANCEL_PENDING and what reads have returned. -/
theorem hostAccess_running {a : Access} {s t : State} (hb : s.status.busy = true) (hr : s.status.rvalid = false)
    (h : hostAccess a s = .next t) :
    t = { s with
          staging := t.staging,
          status := { s.status with err := t.status.err, cancelPending := t.status.cancelPending },
          reads := t.reads } := by
  cases a with
  | read offset width =>
    simp only [hostAccess] at h
    split at h
    · cases h
    · cases h; rfl
  | write offset lanes =>
    simp only [hostAccess] at h
    split at h
    · cases h
    · unfold writeWord at h
      split at h
      · rcases writeCmd_cases h with ⟨-, h⟩ | ⟨-, h⟩ | ⟨i, hd, h⟩
        · cases h; rfl
        · cases h; rfl
        · rcases hostCommand_cases (s := s) (isHost_of_decodeHost hd) with
            ⟨code, h'⟩ | ⟨_, h', _⟩ | ⟨h', _⟩ | ⟨_, _, h', _⟩ | ⟨h', _⟩ | h'
          · rw [h'] at h; cases h; rfl
          · simp [hb] at h'
          · simp [hb] at h'
          · simp [hb] at h'
          · simp [hr] at h'
          · rw [h'] at h; cases h; rfl
      · cases h; rfl
      · cases h; rfl
      · cases h; rfl

/-- Everything a block step's ports can do: no sample is left; a reset; or the accesses of the sample are served. -/
theorem tick_cases {s : State} {f : Flow Ports} (h : tick s = f) :
    (s.env = [] ∧ f = .go Ports.quiet s) ∨
      (∃ p rest, s.env = p :: rest ∧ p.rst = true ∧
        f = .stop (serveInReset p.host (State.afterReset { s with env := rest }))) ∨
      ∃ p rest, s.env = p :: rest ∧ p.rst = false ∧
        ((∃ t, serve p.host { s with env := rest } = .next t ∧ f = .go p t) ∨
          (∃ x, serve p.host { s with env := rest } = .fault x ∧ f = .stop (.fault x)) ∨
          ∃ x, serve p.host { s with env := rest } = .refused x ∧ f = .stop (.refused x)) := by
  unfold tick at h
  split at h
  · rename_i he; exact .inl ⟨he, h.symm⟩
  · rename_i p rest he
    cases hr : p.rst
    · refine .inr (.inr ⟨p, rest, he, hr, ?_⟩)
      simp only [hr] at h
      cases hs : serve p.host { s with env := rest } with
      | next t => exact .inl ⟨t, rfl, by simpa [hs] using h.symm⟩
      | fault x => exact .inr (.inl ⟨x, rfl, by simpa [hs] using h.symm⟩)
      | refused x => exact .inr (.inr ⟨x, rfl, by simpa [hs] using h.symm⟩)
    · exact .inr (.inl ⟨p, rest, he, hr, by simpa [hr] using h.symm⟩)

/-- A flow that goes on after `andThen` went on before it. -/
theorem Flow.andThen_go {α β : Type} {f : Flow α} {k : α → State → Flow β} {b : β} {t : State}
    (h : f.andThen k = .go b t) : ∃ a s, f = .go a s ∧ k a s = .go b t := by
  cases f with
  | go a s => exact ⟨a, s, rfl, h⟩
  | stop r => cases h

/-- A flow that ends in `andThen` ended before it or in what follows. -/
theorem Flow.andThen_stop {α β : Type} {f : Flow α} {k : α → State → Flow β} {r : Result}
    (h : f.andThen k = .stop r) : f = .stop r ∨ ∃ a s, f = .go a s ∧ k a s = .stop r := by
  cases f with
  | go a s => exact .inr ⟨a, s, rfl, h⟩
  | stop r' => cases h; exact .inl rfl

/-- Everything a primitive can do: its block step ends it; its pad does not exist; it fails and the fault entry is taken; or it has its
effect. -/
theorem primitive_cases {α : Type} {pad : Option Pin} {effect : Ports → State → α × State} {failed : State → State} {s : State}
    {f : Flow α} (h : primitive pad effect failed s = f) :
    (∃ r, tick s = .stop r ∧ f = .stop r) ∨
      ∃ ports s1, tick s = .go ports s1 ∧
        (((∃ p ∈ pad, pinInRange s1 p = false) ∧ f = .stop (.fault .padOutsidePinSpace)) ∨
          ((∀ p ∈ pad, pinInRange s1 p = true) ∧ ports.pinFault = true ∧ f = .stop (faultEntry (failed s1))) ∨
          ((∀ p ∈ pad, pinInRange s1 p = true) ∧ ports.pinFault = false ∧ f = .go (effect ports s1).1 (effect ports s1).2)) := by
  unfold primitive at h
  cases ht : tick s with
  | stop r => exact .inl ⟨r, rfl, by simpa [ht] using h.symm⟩
  | go ports s1 =>
    refine .inr ⟨ports, s1, rfl, ?_⟩
    simp only [ht, Flow.go_andThen] at h
    cases pad with
    | none =>
      cases hf : ports.pinFault
      · exact .inr (.inr ⟨by simp, rfl, by simpa [hf] using h.symm⟩)
      · exact .inr (.inl ⟨by simp, rfl, by simpa [hf] using h.symm⟩)
    | some p =>
      cases hp : pinInRange s1 p
      · exact .inl ⟨⟨p, rfl, hp⟩, by simpa [hp] using h.symm⟩
      · cases hf : ports.pinFault
        · exact .inr (.inr ⟨by simpa using hp, rfl, by simpa [hp, hf] using h.symm⟩)
        · exact .inr (.inl ⟨by simpa using hp, rfl, by simpa [hp, hf] using h.symm⟩)

/-- Everything a best-effort release can do. -/
theorem bestEffortRelease_cases {p : Pin} {s : State} {f : Flow Unit} (h : bestEffortRelease p s = f) :
    (∃ r, tick s = .stop r ∧ f = .stop r) ∨
      ∃ ports s1, tick s = .go ports s1 ∧
        ((pinInRange s1 p = false ∧ f = .stop (.fault .padOutsidePinSpace)) ∨
          (pinInRange s1 p = true ∧ ports.pinFault = true ∧ f = .go () (s1.scramble p)) ∨
          (pinInRange s1 p = true ∧ ports.pinFault = false ∧ f = .go () ((s1.withDir p .input).emit (.setDir p .input)))) := by
  unfold bestEffortRelease at h
  cases ht : tick s with
  | stop r => exact .inl ⟨r, rfl, by simpa [ht] using h.symm⟩
  | go ports s1 =>
    refine .inr ⟨ports, s1, rfl, ?_⟩
    simp only [ht, Flow.go_andThen] at h
    cases hp : pinInRange s1 p
    · exact .inl ⟨rfl, by simpa [hp] using h.symm⟩
    · cases hf : ports.pinFault
      · exact .inr (.inr ⟨rfl, rfl, by simpa [hp, hf] using h.symm⟩)
      · exact .inr (.inl ⟨rfl, rfl, by simpa [hp, hf] using h.symm⟩)

/-- Everything the fault entry can do: a release's block step ends it, or it ends the command with FAULT. -/
theorem faultEntry_cases {s : State} {r : Result} (h : faultEntry s = r) :
    bestEffortRelease s.cur.data s = .stop r ∨
      ∃ s1, bestEffortRelease s.cur.data s = .go () s1 ∧
        (bestEffortRelease s.cur.clk s1 = .stop r ∨
          ∃ s2, bestEffortRelease s.cur.clk s1 = .go () s2 ∧
            r = .next (State.endCommand { s2 with cur.active := false, status.err := .hliFault } .fault)) := by
  unfold faultEntry at h
  cases h1 : bestEffortRelease s.cur.data s with
  | stop r1 => exact .inl (by simpa [h1] using h)
  | go u s1 =>
    refine .inr ⟨s1, rfl, ?_⟩
    cases h2 : bestEffortRelease s.cur.clk s1 with
    | stop r2 => exact .inl (by simpa [h1, h2] using h)
    | go u2 s2 => exact .inr ⟨s2, rfl, by simpa [h1, h2] using h.symm⟩

/-- A best-effort release on quiet ports. -/
theorem bestEffortRelease_quiet {s : State} (h : Quiet s.env) {p : Pin} (hp : p.toNat < s.pads.length) :
    bestEffortRelease p s =
      .go ()
        { s with
          pads := s.pads.modify p.toNat fun pad => { pad with dir := .input },
          env := s.env.drop 1,
          history := s.history ++ [.setDir p .input] } := by
  have hq := h.headD
  simp only [bestEffortRelease, tick_quiet h, Flow.go_andThen, hq, pinInRange, State.pinCount, hp]
  rfl

/-- The fault entry on quiet ports: the pair is released and the command ends. -/
theorem faultEntry_quiet {s : State} (h : Quiet s.env) (hc : s.cur.clk.toNat < s.pads.length)
    (hd : s.cur.data.toNat < s.pads.length) :
    faultEntry s =
      .next (State.endCommand
        { s with
          pads :=
            (s.pads.modify s.cur.data.toNat fun pad => { pad with dir := .input }).modify s.cur.clk.toNat
              fun pad => { pad with dir := .input },
          cur.active := false,
          status.err := .hliFault,
          env := s.env.drop 2,
          history := s.history ++ [.setDir s.cur.data .input, .setDir s.cur.clk .input] } .fault) := by
  rw [faultEntry, bestEffortRelease_quiet h hd, Flow.go_andThen, bestEffortRelease_quiet (h.drop 1) (by simpa using hc)]
  simp [-List.drop_one]

end Sys2Proof.Machine
end

