-- ==== Sys2Proof/Laws/Attempt.lean ====
section
/-! SUPPORT. Laws/Attempt.lean: what each micro-operation of an attempt's program does on quiet ports, as one relation, and the rows of the
program. -/

namespace Sys2Proof.Machine

/-- The events of a micro-operation whose samples drew these levels, with its trace record (40_link_driver.md, 41_protocol_sequencer.md). -/
def opEvents (clk data : Pin) (verb : Verbosity) (levels : List Level) : Instr → List Event
  | .pulse => pulseEvents clk
  | .drive b => driveEvents data b
  | .release => [.setDir data .input]
  | .wbit b => writeBitEvents clk data b
  | .wbits n v => sendEvents clk data verb n v
  | .rbits n => readBitsEvents clk data levels ++ traceEvents verb .rx n (valueOfLevels levels)
  | .turn => turnEvents clk data
  | .lreset => resetLineEvents clk data
  | .enter => [.setDir clk .output, .wrLvl clk .high]
  | .exit => [.setDir data .input, .setDir clk .input]
  | .decode => []
  | .configure _ _ _ _ => []
  | .scan => []
  | .testPair _ _ => []
  | .pop => []
  | .cancel => []

/-- What a micro-operation on quiet ports leaves. -/
structure Does (i : Instr) (levels : List Level) (s t : State) : Prop where
  history : t.history = s.history ++ opEvents s.cur.clk s.cur.data s.config.verbosity levels i
  attempts : t.attempts = s.attempts
  config : t.config = s.config
  staging : t.staging = s.staging
  status : t.status = s.status
  result : t.result = s.result
  reads : t.reads = s.reads
  clk : t.cur.clk = s.cur.clk
  data : t.cur.data = s.cur.data
  prog : t.seq.prog = s.seq.prog
  pos : t.seq.pos = s.seq.pos
  upc : t.seq.upc = s.seq.upc + 1
  quiet : Quiet t.env
  length : t.pads.length = s.pads.length
  pads : ∀ j : Nat, j ≠ s.cur.clk.toNat → j ≠ s.cur.data.toNat → t.pads[j]? = s.pads[j]?
  rawReg : t.seq.rawReg = match i with
    | .rbits _ => (valueOfLevels levels).setWidth 36
    | _ => s.seq.rawReg
  matchReg : t.seq.matchReg = match i with
    | .decode => matchOf s.seq.rawReg
    | _ => s.seq.matchReg
  levels : ∀ n, i = .rbits n → levels.length = n.toNat

theorem getElem?_modify_other (pads : List Pad) (k j : Nat) (f : Pad → Pad) (h : j ≠ k) : (pads.modify k f)[j]? = pads[j]? := by
  simp [Ne.symm h]

/-- Every legal micro-operation on quiet ports completes, one case per constructor. -/
theorem exec_quiet (i : Instr) (s : State) (hi : i.isHost = false) (hw : i.wellFormed = true) (h : Quiet s.env) (hp : PairInRange s) :
    ∃ t levels, exec i s = .next t ∧ Does i levels s t := by
  have hc : s.cur.clk.toNat < s.pads.length := hp.1
  have hd : s.cur.data.toNat < s.pads.length := hp.2
  cases i <;> simp only [Instr.isHost, Bool.true_eq_false] at hi
  case pulse =>
    refine ⟨_, [], by simp only [exec, execPulse, pulseClock_quiet h hc, finish_go]; rfl, ?_⟩
    refine ⟨rfl, rfl, rfl, rfl, rfl, rfl, rfl, rfl, rfl, rfl, rfl, rfl, h.drop 4, by simp, fun j hj _ => ?_, rfl, rfl, by simp⟩
    exact getElem?_modify_other _ _ _ _ hj
  case drive b =>
    refine ⟨_, [], by simp only [exec, execDrive, driveLine_quiet h hd, finish_go]; rfl, ?_⟩
    refine ⟨rfl, rfl, rfl, rfl, rfl, rfl, rfl, rfl, rfl, rfl, rfl, rfl, h.drop 2, by simp, fun j _ hj => ?_, rfl, rfl, by simp⟩
    exact getElem?_modify_other _ _ _ _ hj
  case release =>
    refine ⟨_, [], by simp only [exec, execRelease, releaseLine, setDir_quiet h hd, finish_go]; rfl, ?_⟩
    refine ⟨rfl, rfl, rfl, rfl, rfl, rfl, rfl, rfl, rfl, rfl, rfl, rfl, h.drop 1, by simp, fun j _ hj => ?_, rfl, rfl, by simp⟩
    exact getElem?_modify_other _ _ _ _ hj
  case wbit b =>
    refine ⟨_, [], by simp only [exec, execWbit, writeBit_quiet h hc hd, finish_go]; rfl, ?_⟩
    refine ⟨rfl, rfl, rfl, rfl, rfl, rfl, rfl, rfl, rfl, rfl, rfl, rfl, h.drop 6, by simp, fun j hj hj' => ?_, rfl, rfl, by simp⟩
    exact (getElem?_modify_other _ _ _ _ hj).trans (getElem?_modify_other _ _ _ _ hj')
  case wbits n v =>
    have hb : bitCountOk n = true := hw
    refine ⟨_, [], by simp only [exec, execWbits, hb, if_true, writeBits_quiet h hp, finish_go]; rfl, ?_⟩
    refine ⟨by simp [opEvents, sendEvents], rfl, rfl, rfl, rfl, rfl, rfl, rfl, rfl, rfl, rfl, rfl, h.drop _, by simp [length_padsAfterWrite],
      fun j hj hj' => ?_, rfl, rfl, by simp⟩
    cases n.toNat with
    | zero => rfl
    | succ k => exact (getElem?_modify_other _ _ _ _ hj).trans (getElem?_modify_other _ _ _ _ hj')
  case rbits n =>
    have hb : bitCountOk n = true := hw
    refine ⟨_, (drawLevels s.cur.data n.toNat (s.env.drop 1) s.draws).1,
      by simp only [exec, execRbits, hb, if_true, readBits_quiet h hp, finish_go]; rfl, ?_⟩
    refine ⟨by simp [opEvents], rfl, rfl, rfl, rfl, rfl, rfl, rfl, rfl, rfl, rfl, rfl, h.drop _, by simp; split <;> simp,
      fun j hj hj' => ?_, rfl, rfl, fun m hm => by cases hm; exact length_drawLevels _ _ _ _⟩
    refine (getElem?_modify_other _ _ _ _ hj').trans ?_
    split
    · rfl
    · exact getElem?_modify_other _ _ _ _ hj
  case turn =>
    refine ⟨_, [], by
      simp only [exec, execTurn, turnaround, releaseLine]
      rw [setDir_quiet h hd, Flow.go_andThen, pulseClock_quiet (h.drop 1) (by simpa using hc), finish_go], ?_⟩
    refine ⟨by simp [opEvents, turnEvents], rfl, rfl, rfl, rfl, rfl, rfl, rfl, rfl, rfl, rfl, rfl, (h.drop 1).drop 4, by simp,
      fun j hj hj' => ?_, rfl, rfl, by simp⟩
    exact (getElem?_modify_other _ _ _ _ hj).trans (getElem?_modify_other _ _ _ _ hj')
  case lreset =>
    refine ⟨_, [], by
      simp only [exec, execLreset, resetLine]
      rw [driveLine_quiet (by exact h) (by exact hd), Flow.go_andThen,
        pulseLoop_quiet _ _ _ _ (by exact h.drop 2) (by simpa using hc), finish_go], ?_⟩
    refine ⟨by simp [opEvents, resetLineEvents], rfl, rfl, rfl, rfl, rfl, rfl, rfl, rfl, rfl, rfl, rfl, (h.drop 2).drop _, by
      simp [Config.resetPulses], fun j hj hj' => ?_, rfl, rfl, by simp⟩
    exact (getElem?_modify_other _ _ _ _ hj).trans (getElem?_modify_other _ _ _ _ hj')
  case enter =>
    refine ⟨_, [], by
      simp only [exec, execEnter]
      rw [driveLine_quiet (by exact h) (by exact hc), finish_go], ?_⟩
    refine ⟨by simp [opEvents, driveEvents], rfl, rfl, rfl, rfl, rfl, rfl, rfl, rfl, rfl, rfl, rfl, h.drop 2, by simp,
      fun j hj hj' => ?_, rfl, rfl, by simp⟩
    exact getElem?_modify_other _ _ _ _ hj
  case exit =>
    refine ⟨_, [], by
      simp only [exec, execExit]
      rw [setDir_quiet (by exact h) (by exact hd), Flow.go_andThen,
        setDir_quiet (by exact h.drop 1) (by simpa using hc), Flow.go_andThen, finish_go], ?_⟩
    refine ⟨by simp [opEvents], rfl, rfl, rfl, rfl, rfl, rfl, rfl, rfl, rfl, rfl, rfl, (h.drop 1).drop 1, by simp,
      fun j hj hj' => ?_, rfl, rfl, by simp⟩
    exact (getElem?_modify_other _ _ _ _ hj).trans (getElem?_modify_other _ _ _ _ hj')
  case decode =>
    refine ⟨_, [], by
      simp only [exec, execDecode]
      rw [tick_quiet (by exact h), Flow.go_andThen, finish_go], ?_⟩
    exact ⟨by simp [opEvents], rfl, rfl, rfl, rfl, rfl, rfl, rfl, rfl, rfl, rfl, rfl, h.drop 1, rfl, fun _ _ _ => rfl, rfl, rfl, by simp⟩

/-- Whether row `k` of a program decodes to a legal micro-operation, ENTER only as its first and EXIT only as its last. -/
def rowOk (idleSel dormantWake : Bool) (k : Nat) : Bool :=
  match (program idleSel dormantWake)[k]? with
  | none => false
  | some row =>
    match decodeUop row.words with
    | .ok (i, []) =>
      !i.isHost && i.wellFormed && (decide (i = .enter) == decide (k = 0)) &&
        (decide (i = .exit) == decide (k + 1 = (program idleSel dormantWake).length))
    | .ok (_, _ :: _) => false
    | .error _ => false

theorem rowOk_all : ∀ a b : Bool, ∀ k < (program a b).length, rowOk a b k = true := by decide

/-- The rows of a program are legal micro-operations, of which the first alone is ENTER and the last alone is EXIT. -/
theorem program_row (a b : Bool) (k : Nat) (h : k < (program a b).length) :
    ∃ row i, (program a b)[k]? = some row ∧ decodeUop row.words = .ok (i, []) ∧ i.isHost = false ∧ i.wellFormed = true ∧
      (i = .enter ↔ k = 0) ∧ (i = .exit ↔ k + 1 = (program a b).length) := by
  have hk := rowOk_all a b k h
  unfold rowOk at hk
  split at hk
  · cases hk
  · rename_i row hr
    split at hk
    · rename_i i hi
      simp only [Bool.and_eq_true, beq_iff_eq, decide_eq_decide, Bool.not_eq_true'] at hk
      exact ⟨row, i, hr, hi, hk.1.1.1, hk.1.1.2, hk.1.2, hk.2⟩
    · cases hk
    · cases hk

theorem length_program (a b : Bool) : (program a b).length = if b then 21 else 12 := by
  cases a <;> cases b <;> decide

end Sys2Proof.Machine
end

