-- ==== Sys2Proof/Laws/Codec.lean ====
section
/-! SUPPORT. Laws/Codec.lean: the zero-bit checks of the decoders and the mask check, bit by bit, and the step of a host access. -/

namespace Sys2Proof.Machine

/-- The zero-bit check of a decoder, bit by bit. -/
theorem zeroBits_iff (must w : Word) : zeroBits must w = true ↔ ∀ i < 32, must.getLsbD i = true → w.getLsbD i = false := by
  simp only [zeroBits, decide_eq_true_eq]
  constructor
  · intro h i hi hm
    have hb := congrArg (fun x => x.getLsbD i) h
    simpa [hm] using hb
  · intro h
    apply BitVec.eq_of_getLsbD_eq
    intro i hi
    by_cases hm : must.getLsbD i = true
    · simp [h i hi hm]
    · simp only [Bool.not_eq_true] at hm
      simp [hm]

/-- A mask is out of range if it has a bit at an index at or above PIN_COUNT. -/
theorem maskOutOfRange_iff (s : State) (m : BitVec 64) :
    maskOutOfRange s m = true ↔ ∃ i, i < 64 ∧ s.pinCount ≤ i ∧ m.getLsbD i = true := by
  unfold maskOutOfRange
  simp only [decide_eq_true_eq]
  constructor
  · intro h
    by_contra hc
    apply h
    apply BitVec.eq_of_getLsbD_eq
    intro i hi
    by_cases h2 : s.pinCount + i < 64
    · by_contra hb
      exact hc ⟨s.pinCount + i, h2, by omega, by simpa using hb⟩
    · simp [BitVec.getLsbD_of_ge m _ (by omega : 64 ≤ s.pinCount + i)]
  · rintro ⟨i, hi, h1, h2⟩ hz
    have hb := congrArg (fun x => x.getLsbD (i - s.pinCount)) hz
    simp [show s.pinCount + (i - s.pinCount) = i by omega, h2] at hb

/-- Everything a bus address can be to the window: outside it, or the offset at which the port sees it. -/
theorem Access.onPort_cases (base : Nat) (a : Access) :
    Access.onPort base a = none ∨ ∃ offset, offset < 0x40 ∧
      ((∃ width, a = .read (base + offset) width ∧ Access.onPort base a = some (.read offset width)) ∨
        ∃ lanes, a = .write (base + offset) lanes ∧ Access.onPort base a = some (.write offset lanes)) := by
  cases a with
  | read x width =>
    by_cases h : base ≤ x ∧ x < base + 0x40
    · exact .inr ⟨x - base, by omega, .inl ⟨width, by rw [Nat.add_sub_cancel' h.1], by simp [Access.onPort, h]⟩⟩
    · exact .inl (by simp only [Access.onPort, if_neg h])
  | write x lanes =>
    by_cases h : base ≤ x ∧ x < base + 0x40
    · exact .inr ⟨x - base, by omega, .inr ⟨lanes, by rw [Nat.add_sub_cancel' h.1], by simp [Access.onPort, h]⟩⟩
    · exact .inl (by simp only [Access.onPort, if_neg h])

theorem regRead_window {offset : Nat} (h : offset < 0x40) : regRead (Config.regBase + offset) = some (.read offset 4) := by
  simp [regRead, Access.onPort, h]

theorem regWrite_window {offset : Nat} (h : offset < 0x40) (v : Word) :
    regWrite (Config.regBase + offset) v = some (.write offset (lanesOfWord v)) := by
  simp [regWrite, Access.onPort, h]

/-- An access that is due is the next step, and leaves the sample of its step in place. -/
theorem step_withAccess {s : State} (h : Ready s) (a : Access) : step (s.withAccess a) = hostAccess a s := by
  obtain ⟨p, rest, he, hr⟩ := h
  obtain ⟨pads, config, staging, status, result, cur, seq, env, history, attempts, reads, draws⟩ := s
  simp only at he
  subst he
  obtain ⟨rst, host, pinFault, padIn⟩ := p
  simp only at hr
  subst hr
  simp [State.withAccess, step]

end Sys2Proof.Machine
end

