-- ==== Sys2Proof/Laws/Going.lean ====
section
/-! SUPPORT. Laws/Going.lean: what every micro-operation keeps, whatever host accesses and pad faults come: the relation `Going` between
the state of a running attempt and a later one of the same micro-operation, `Faulted` between it and the state a fault entry leaves, and
`WasReset` between it and the state a reset leaves. -/

namespace Sys2Proof.Machine

/-- What a micro-operation keeps while it goes on, whatever host accesses and pad faults come. -/
structure Going (s t : State) : Prop where
  config : t.config = s.config
  result : t.result = s.result
  clk : t.cur.clk = s.cur.clk
  data : t.cur.data = s.cur.data
  active : t.cur.active = s.cur.active
  prog : t.seq.prog = s.seq.prog
  upc : t.seq.upc = s.seq.upc
  pos : t.seq.pos = s.seq.pos
  cmdKind : t.seq.cmdKind = s.seq.cmdKind
  iterClk : t.seq.iterClk = s.seq.iterClk
  iterData : t.seq.iterData = s.seq.iterData
  busy : t.status.busy = true
  rvalid : t.status.rvalid = false
  matchedAny : t.status.matchedAny = s.status.matchedAny
  endCode : t.status.endCode = s.status.endCode
  length : t.pads.length = s.pads.length
  bitCnt : s.seq.bitCnt.toNat ≤ 64 → t.seq.bitCnt.toNat ≤ 64
  pcnt : s.seq.pcnt.toNat ≤ 64 → t.seq.pcnt.toNat ≤ 64
  attempts : t.attempts = s.attempts
  history : s.history <+: t.history
  pads : ∀ j : Nat, j ≠ s.cur.clk.toNat → j ≠ s.cur.data.toNat → t.pads[j]? = s.pads[j]?
  env : t.env <:+ s.env

theorem Going.trans {s t u : State} (h : Going s t) (k : Going t u) : Going s u where
  config := k.config.trans h.config
  result := k.result.trans h.result
  clk := k.clk.trans h.clk
  data := k.data.trans h.data
  active := k.active.trans h.active
  prog := k.prog.trans h.prog
  upc := k.upc.trans h.upc
  pos := k.pos.trans h.pos
  cmdKind := k.cmdKind.trans h.cmdKind
  iterClk := k.iterClk.trans h.iterClk
  iterData := k.iterData.trans h.iterData
  busy := k.busy
  rvalid := k.rvalid
  matchedAny := k.matchedAny.trans h.matchedAny
  endCode := k.endCode.trans h.endCode
  length := k.length.trans h.length
  bitCnt := fun hs => k.bitCnt (h.bitCnt hs)
  pcnt := fun hs => k.pcnt (h.pcnt hs)
  attempts := k.attempts.trans h.attempts
  history := h.history.trans k.history
  pads := fun j hc hd => (k.pads j (h.clk ▸ hc) (h.data ▸ hd)).trans (h.pads j hc hd)
  env := k.env.trans h.env

theorem Going.refl {s : State} (hb : s.status.busy = true) (hr : s.status.rvalid = false) : Going s s :=
  ⟨rfl, rfl, rfl, rfl, rfl, rfl, rfl, rfl, rfl, rfl, rfl, hb, hr, rfl, rfl, rfl, id, id, rfl, List.prefix_refl _, fun _ _ _ => rfl,
    List.suffix_refl _⟩

/-- Host accesses while an attempt runs, and the passing of port samples. -/
theorem serve_going (accesses : List Access) :
    ∀ (s t : State), s.status.busy = true → s.status.rvalid = false → serve accesses s = .next t →
      Going s t ∧ t.pads = s.pads ∧ t.history = s.history ∧ t.env = s.env ∧ t.seq = s.seq ∧ t.cur = s.cur ∧ t.draws = s.draws := by
  induction accesses with
  | nil =>
    intro s t hb hr h
    cases h
    exact ⟨.refl hb hr, rfl, rfl, rfl, rfl, rfl, rfl⟩
  | cons a more ih =>
    intro s t hb hr h
    simp only [serve] at h
    split at h
    · rename_i u hu
      have e := hostAccess_running hb hr hu
      have hub : u.status.busy = true := by rw [e]; exact hb
      have hur : u.status.rvalid = false := by rw [e]; exact hr
      obtain ⟨g, h1, h2, h3, h4, h5, h6⟩ := ih u t hub hur h
      have g0 : Going s u := by
        rw [e]
        exact ⟨rfl, rfl, rfl, rfl, rfl, rfl, rfl, rfl, rfl, rfl, rfl, hb, hr, rfl, rfl, rfl, id, id, rfl, List.prefix_refl _,
          fun _ _ _ => rfl, List.suffix_refl _⟩
      refine ⟨g0.trans g, h1.trans ?_, h2.trans ?_, h3.trans ?_, h4.trans ?_, h5.trans ?_, h6.trans ?_⟩ <;> rw [e]
    · cases h
    · cases h

/-- A block step of a running attempt that goes on. -/
theorem tick_going {s t : State} {p : Ports} (hb : s.status.busy = true) (hr : s.status.rvalid = false) (h : tick s = .go p t) :
    Going s t ∧ t.pads = s.pads ∧ t.history = s.history ∧ t.env = s.env.drop 1 ∧ t.seq = s.seq ∧ t.cur = s.cur ∧
      p = s.env.headD Ports.quiet := by
  rcases tick_cases h with ⟨he, h⟩ | ⟨q, rest, he, -, h⟩ | ⟨q, rest, he, -, ⟨u, hs, h⟩ | ⟨x, -, h⟩ | ⟨x, -, h⟩⟩
  · cases h
    exact ⟨.refl hb hr, rfl, rfl, by simp [he], rfl, rfl, by simp [he]⟩
  · cases h
  · cases h
    obtain ⟨g, h1, h2, h3, h4, h5, -⟩ := serve_going p.host { s with env := rest } t hb hr hs
    refine ⟨⟨g.config, g.result, g.clk, g.data, g.active, g.prog, g.upc, g.pos, g.cmdKind, g.iterClk, g.iterData, g.busy, g.rvalid,
      g.matchedAny, g.endCode, g.length, g.bitCnt, g.pcnt, g.attempts, g.history, g.pads, g.env.trans ?_⟩, h1, h2, by simp [h3, he], h4, h5,
      by simp [he]⟩
    rw [he]
    exact List.suffix_cons _ _
  · cases h
  · cases h

/-- A write to CMD always completes (42_scanner_commands.md R250). -/
theorem writeCmd_next (w : Word) (s : State) : ∃ t, writeCmd w s = .next t := by
  rcases writeCmd_cases (w := w) (s := s) rfl with ⟨-, h⟩ | ⟨-, h⟩ | ⟨i, hd, h⟩
  · exact ⟨_, h⟩
  · exact ⟨_, h⟩
  · rw [h]
    rcases hostCommand_cases (s := s) (isHost_of_decodeHost hd) with
      ⟨_, h'⟩ | ⟨_, _, _, _, _, h'⟩ | ⟨_, h'⟩ | ⟨_, _, _, _, _, _, h'⟩ | ⟨_, h'⟩ | h' <;> exact ⟨_, h'⟩

/-- A served access completes. -/
theorem hostAccess_next {a : Access} (h : ServedAccess a) (s : State) : ∃ t, hostAccess a s = .next t := by
  cases a with
  | read offset width =>
    have h' : accessRefusal offset width = none := h
    exact ⟨_, by simp only [hostAccess, h']; rfl⟩
  | write offset lanes =>
    have h' : accessRefusal offset lanes.length = none := h
    simp only [hostAccess, h', writeWord]
    split
    · exact writeCmd_next _ _
    · exact ⟨_, rfl⟩
    · exact ⟨_, rfl⟩
    · exact ⟨_, rfl⟩

/-- Served accesses complete. -/
theorem serve_next (accesses : List Access) :
    ∀ s : State, (∀ a ∈ accesses, ServedAccess a) → ∃ t, serve accesses s = .next t := by
  induction accesses with
  | nil => intro s _; exact ⟨s, rfl⟩
  | cons a more ih =>
    intro s h
    obtain ⟨t, ht⟩ := hostAccess_next (h a (List.mem_cons_self ..)) s
    obtain ⟨u, hu⟩ := ih t fun b hb => h b (List.mem_cons_of_mem _ hb)
    exact ⟨u, by simp only [serve, ht, hu]⟩

/-- Served accesses during a reset complete. -/
theorem serveInReset_served (accesses : List Access) :
    ∀ s : State, (∀ a ∈ accesses, ServedAccess a) → ∃ t, serveInReset accesses s = .next t := by
  induction accesses with
  | nil => intro s _; exact ⟨s, rfl⟩
  | cons a more ih =>
    intro s h
    have ha := h a (List.mem_cons_self ..)
    have hm : ∀ b ∈ more, ServedAccess b := fun b hb => h b (List.mem_cons_of_mem _ hb)
    cases a with
    | read offset width =>
      obtain ⟨t, ht⟩ := hostAccess_next ha s
      obtain ⟨u, hu⟩ := ih t hm
      exact ⟨u, by simp only [serveInReset, ht, hu]⟩
    | write offset lanes =>
      have ha' : accessRefusal offset lanes.length = none := ha
      obtain ⟨u, hu⟩ := ih s hm
      exact ⟨u, by simp only [serveInReset, ha', hu]⟩

/-- With served accesses a block step ends in a next state or not at all. -/
theorem tick_served {s : State} {r : Result} (hs : ServedHost s.env) (h : tick s = .stop r) : ∃ t, r = .next t := by
  rcases tick_cases h with ⟨-, h⟩ | ⟨q, rest, he, hq, h⟩ | ⟨q, rest, he, -, ⟨u, hu, h⟩ | ⟨x, hx, h⟩ | ⟨x, hx, h⟩⟩
  · cases h
  · simp only [Flow.stop.injEq] at h
    obtain ⟨t, ht⟩ := serveInReset_served q.host (State.afterReset { s with env := rest }) fun a ha => hs q (by simp [he]) a ha
    exact ⟨t, h.trans ht⟩
  · cases h
  · obtain ⟨t, ht⟩ := serve_next q.host { s with env := rest } fun a ha => hs q (by simp [he]) a ha
    rw [ht] at hx
    cases hx
  · obtain ⟨t, ht⟩ := serve_next q.host { s with env := rest } fun a ha => hs q (by simp [he]) a ha
    rw [ht] at hx
    cases hx

/-- What the fault entry of a micro-operation leaves. -/
structure Faulted (s t : State) : Prop where
  config : t.config = s.config
  result : t.result = s.result
  clk : t.cur.clk = s.cur.clk
  data : t.cur.data = s.cur.data
  active : t.cur.active = false
  prog : t.seq.prog = s.seq.prog
  upc : t.seq.upc = s.seq.upc
  pos : t.seq.pos = .idle
  cmdKind : t.seq.cmdKind = .none
  iterClk : t.seq.iterClk = s.seq.iterClk
  iterData : t.seq.iterData = s.seq.iterData
  busy : t.status.busy = false
  rvalid : t.status.rvalid = false
  matchedAny : t.status.matchedAny = s.status.matchedAny
  cancelPending : t.status.cancelPending = false
  endCode : t.status.endCode = .fault
  err : t.status.err = .hliFault
  length : t.pads.length = s.pads.length
  bitCnt : s.seq.bitCnt.toNat ≤ 64 → t.seq.bitCnt.toNat ≤ 64
  pcnt : s.seq.pcnt.toNat ≤ 64 → t.seq.pcnt.toNat ≤ 64
  attempts : t.attempts = s.attempts
  history : s.history <+: t.history
  last : t.history.getLast? = some (.ended .fault)
  pads : ∀ j : Nat, j ≠ s.cur.clk.toNat → j ≠ s.cur.data.toNat → t.pads[j]? = s.pads[j]?
  pinFault : ¬NoPinFault s.env

/-- What a reset within a micro-operation leaves. -/
structure WasReset (s t : State) : Prop where
  state :
    t = { State.resetWith s.pinCount with env := t.env, history := t.history, attempts := t.attempts, reads := t.reads, draws := t.draws }
  attempts : t.attempts = s.attempts
  history : s.history <+: t.history
  env : t.env <:+ s.env
  reset : ¬NoReset s.env

theorem Going.noReset {s t : State} (h : Going s t) (k : NoReset s.env) : NoReset t.env := fun p hp => k p (h.env.mem hp)
theorem Going.noPinFault {s t : State} (h : Going s t) (k : NoPinFault s.env) : NoPinFault t.env := fun p hp => k p (h.env.mem hp)

theorem Going.served {s t : State} (h : Going s t) (k : ServedHost s.env) : ServedHost t.env := fun p hp => k p (h.env.mem hp)

theorem Going.pairInRange {s t : State} (h : Going s t) (k : PairInRange s) : PairInRange t := by
  unfold PairInRange State.pinCount at *
  rwa [h.clk, h.data, h.length]

theorem Going.pinInRange {s t : State} (h : Going s t) (k : PairInRange s) {p : Pin} (hp : p = s.cur.clk ∨ p = s.cur.data) :
    Machine.pinInRange t p = true := by
  have := h.length
  unfold PairInRange State.pinCount at k
  rcases hp with rfl | rfl <;> simp [Machine.pinInRange, State.pinCount, this, k.1, k.2]

theorem Going.faulted {s t u : State} (h : Going s t) (k : Faulted t u) : Faulted s u where
  config := k.config.trans h.config
  result := k.result.trans h.result
  clk := k.clk.trans h.clk
  data := k.data.trans h.data
  prog := k.prog.trans h.prog
  upc := k.upc.trans h.upc
  pos := k.pos
  active := k.active
  cmdKind := k.cmdKind
  iterClk := k.iterClk.trans h.iterClk
  iterData := k.iterData.trans h.iterData
  busy := k.busy
  rvalid := k.rvalid
  matchedAny := k.matchedAny.trans h.matchedAny
  cancelPending := k.cancelPending
  endCode := k.endCode
  err := k.err
  length := k.length.trans h.length
  bitCnt := fun hs => k.bitCnt (h.bitCnt hs)
  pcnt := fun hs => k.pcnt (h.pcnt hs)
  attempts := k.attempts.trans h.attempts
  history := h.history.trans k.history
  last := k.last
  pads := fun j hc hd => (k.pads j (h.clk ▸ hc) (h.data ▸ hd)).trans (h.pads j hc hd)
  pinFault := fun hn => k.pinFault (h.noPinFault hn)

theorem Going.wasReset {s t u : State} (h : Going s t) (k : WasReset t u) : WasReset s u where
  state := by
    have := k.state
    rwa [State.pinCount, h.length] at this
  attempts := k.attempts.trans h.attempts
  history := h.history.trans k.history
  env := k.env.trans h.env
  reset := fun hn => k.reset (h.noReset hn)

/-- A flow that goes on keeps what a running attempt keeps, and one that ends is a fault or a reset; it stops without a next state only
on an access that is not served or on a pair that is not in range. -/
def FlowRuns {α : Type} (s : State) (f : Flow α) : Prop :=
  (∀ a t, f = .go a t → Going s t) ∧ (∀ t, f = .stop (.next t) → Faulted s t ∨ WasReset s t) ∧
    (ServedHost s.env → PairInRange s → ∀ r, f = .stop r → ∃ t, r = .next t)

theorem FlowRuns.go {α : Type} {s t : State} (a : α) (h : Going s t) : FlowRuns s (.go a t) :=
  ⟨fun _ _ e => by cases e; exact h, fun _ e => (by cases e), fun _ _ _ e => by cases e⟩

theorem Going.ended {s t u : State} (h : Going s t) (k : Faulted t u ∨ WasReset t u) : Faulted s u ∨ WasReset s u :=
  k.imp h.faulted h.wasReset

theorem FlowRuns.andThen {α β : Type} {s : State} {f : Flow α} {k : α → State → Flow β} (h : FlowRuns s f)
    (hk : ∀ a t, f = .go a t → FlowRuns t (k a t)) : FlowRuns s (f.andThen k) := by
  constructor
  · intro b t e
    obtain ⟨a, s1, hf, hk1⟩ := Flow.andThen_go e
    exact (h.1 a s1 hf).trans ((hk a s1 hf).1 b t hk1)
  · refine ⟨fun t e => ?_, fun hs hp r e => ?_⟩
    · rcases Flow.andThen_stop e with hf | ⟨a, s1, hf, hk1⟩
      · exact h.2.1 t hf
      · exact (h.1 a s1 hf).ended ((hk a s1 hf).2.1 t hk1)
    · rcases Flow.andThen_stop e with hf | ⟨a, s1, hf, hk1⟩
      · exact h.2.2 hs hp r hf
      · exact (hk a s1 hf).2.2 ((h.1 a s1 hf).served hs) ((h.1 a s1 hf).pairInRange hp) r hk1

theorem FlowRuns.of_going {α : Type} {s t : State} {f : Flow α} (h : Going s t) (k : FlowRuns t f) : FlowRuns s f :=
  ⟨fun a u e => h.trans (k.1 a u e), fun u e => h.ended (k.2.1 u e), fun hs hp r e => k.2.2 (h.served hs) (h.pairInRange hp) r e⟩

/-- Host accesses during a reset change nothing but what reads have returned. -/
theorem serveInReset_next (accesses : List Access) :
    ∀ s t : State, serveInReset accesses s = .next t → t = { s with reads := t.reads } := by
  induction accesses with
  | nil => intro s t h; cases h; rfl
  | cons a more ih =>
    intro s t h
    cases a with
    | read offset width =>
      simp only [serveInReset, hostAccess] at h
      cases hr : accessRefusal offset width with
      | some r => simp [hr] at h
      | none =>
        simp only [hr] at h
        have := ih _ _ h
        rw [this]
    | write offset lanes =>
      simp only [serveInReset] at h
      split at h
      · cases h
      · exact ih _ _ h

/-- A block step that ends in a next state is a reset. -/
theorem tick_stop {s t : State} (h : tick s = .stop (.next t)) : WasReset s t := by
  rcases tick_cases h with ⟨-, h⟩ | ⟨q, rest, he, hq, h⟩ | ⟨q, rest, he, -, ⟨u, hs, h⟩ | ⟨x, -, h⟩ | ⟨x, -, h⟩⟩
  · cases h
  · simp only [Flow.stop.injEq] at h
    have e := serveInReset_next _ _ _ h.symm
    have h1 : t.history = s.history := by rw [e]; rfl
    have h2 : t.env = rest := by rw [e]; rfl
    refine ⟨?_, by rw [e]; rfl, by rw [h1], by rw [h2, he]; exact List.suffix_cons _ _, fun hn => ?_⟩
    · rw [e]; rfl
    · have := hn q (by simp [he])
      simp [hq] at this
  · cases h
  · cases h
  · cases h

theorem going_modify {s t : State} (h : Going s t) (p : Pin) (hp : p = s.cur.clk ∨ p = s.cur.data) (f : Pad → Pad) :
    Going s (t.mapPad p f) := by
  refine ⟨h.config, h.result, h.clk, h.data, h.active, h.prog, h.upc, h.pos, h.cmdKind, h.iterClk, h.iterData, h.busy, h.rvalid, h.matchedAny,
    h.endCode, ?_, h.bitCnt, h.pcnt, h.attempts, h.history, ?_, h.env⟩
  · simpa [State.mapPad] using h.length
  · intro j hc hd
    rw [← h.pads j hc hd]
    have : p.toNat ≠ j := by rcases hp with rfl | rfl <;> exact fun e => by simp_all
    simp [State.mapPad, this]

theorem going_emit {s t : State} (h : Going s t) (e : Event) : Going s (t.emit e) := by
  refine ⟨h.config, h.result, h.clk, h.data, h.active, h.prog, h.upc, h.pos, h.cmdKind, h.iterClk, h.iterData, h.busy, h.rvalid, h.matchedAny,
    h.endCode, h.length, h.bitCnt, h.pcnt, h.attempts, h.history.trans (List.prefix_append _ _), h.pads, h.env⟩

theorem going_draws {s t : State} (h : Going s t) (n : Nat) : Going s { t with draws := n } := by
  refine ⟨h.config, h.result, h.clk, h.data, h.active, h.prog, h.upc, h.pos, h.cmdKind, h.iterClk, h.iterData, h.busy, h.rvalid, h.matchedAny,
    h.endCode, h.length, h.bitCnt, h.pcnt, h.attempts, h.history, h.pads, h.env⟩

theorem going_timer {s t : State} (h : Going s t) (n : Nat) : Going s { t with seq.timer := n } := by
  refine ⟨h.config, h.result, h.clk, h.data, h.active, h.prog, h.upc, h.pos, h.cmdKind, h.iterClk, h.iterData, h.busy, h.rvalid, h.matchedAny,
    h.endCode, h.length, h.bitCnt, h.pcnt, h.attempts, h.history, h.pads, h.env⟩

theorem going_timerDraws {s t : State} (h : Going s t) (n m : Nat) : Going s { t with seq.timer := n, draws := m } := by
  refine ⟨h.config, h.result, h.clk, h.data, h.active, h.prog, h.upc, h.pos, h.cmdKind, h.iterClk, h.iterData, h.busy, h.rvalid, h.matchedAny,
    h.endCode, h.length, h.bitCnt, h.pcnt, h.attempts, h.history, h.pads, h.env⟩

theorem going_scramble {s t : State} (h : Going s t) (p : Pin) (hp : p = s.cur.clk ∨ p = s.cur.data) : Going s (t.scramble p) :=
  going_draws (going_modify h p hp _) _

theorem bestEffort_runs {s : State} (hb : s.status.busy = true) (hr : s.status.rvalid = false) (p : Pin)
    (hp : p = s.cur.clk ∨ p = s.cur.data) {f : Flow Unit} (h : bestEffortRelease p s = f) :
    (∀ a t, f = .go a t → Going s t) ∧ (∀ t, f = .stop (.next t) → WasReset s t) ∧
      (ServedHost s.env → PairInRange s → ∀ r, f = .stop r → ∃ t, r = .next t) := by
  rcases bestEffortRelease_cases h with ⟨r, ht, rfl⟩ | ⟨ports, s1, ht, ⟨hno, rfl⟩ | ⟨-, -, rfl⟩ | ⟨-, -, rfl⟩⟩
  · refine ⟨fun _ _ e => (by cases e), fun t e => (by cases e; exact tick_stop ht), fun hs _ r' e => ?_⟩
    cases e
    exact tick_served hs ht
  · refine ⟨fun _ _ e => (by cases e), fun t e => (by cases e), fun _ hq r e => ?_⟩
    rw [(tick_going hb hr ht).1.pinInRange hq hp] at hno
    cases hno
  · exact ⟨fun _ _ e => (by cases e; exact going_scramble (tick_going hb hr ht).1 p hp), fun t e => (by cases e),
      fun _ _ r e => (by cases e)⟩
  · exact ⟨fun _ _ e => (by cases e; exact going_emit (going_modify (tick_going hb hr ht).1 p hp _) _), fun t e => (by cases e),
      fun _ _ r e => (by cases e)⟩

/-- The fault entry of a running attempt. -/
theorem faultEntry_runs {s : State} (hb : s.status.busy = true) (hr : s.status.rvalid = false) :
    (∀ t, faultEntry s = .next t →
        (∃ u, Going s u ∧ t = State.endCommand { u with cur.active := false, status.err := .hliFault } .fault) ∨ WasReset s t) ∧
      (ServedHost s.env → PairInRange s → ∃ t, faultEntry s = .next t) := by
  have hx := bestEffort_runs hb hr s.cur.data (.inr rfl) rfl
  rcases faultEntry_cases (s := s) rfl with h | ⟨s1, h1, h | ⟨s2, h2, h⟩⟩
  · refine ⟨fun t e => .inr (hx.2.1 t (by rw [h, e])), fun hs hp => ?_⟩
    exact hx.2.2 hs hp _ h
  · have g1 := hx.1 _ _ h1
    have hy := bestEffort_runs g1.busy g1.rvalid s.cur.clk (.inl g1.clk.symm) rfl
    refine ⟨fun t e => .inr (g1.wasReset (hy.2.1 t (by rw [h, e]))), fun hs hp => ?_⟩
    exact hy.2.2 (g1.served hs) (g1.pairInRange hp) _ h
  · have g1 := hx.1 _ _ h1
    have g2 := (bestEffort_runs g1.busy g1.rvalid s.cur.clk (.inl g1.clk.symm) rfl).1 _ _ h2
    refine ⟨fun t e => ?_, fun _ _ => ⟨_, h⟩⟩
    rw [h] at e
    cases e
    exact .inl ⟨s2, g1.trans g2, rfl⟩

theorem primitive_runs {α : Type} {pad : Option Pin} {effect : Ports → State → α × State} {failed : State → State} {s : State}
    (hb : s.status.busy = true) (hr : s.status.rvalid = false) (hpad : ∀ p ∈ pad, p = s.cur.clk ∨ p = s.cur.data)
    (he : ∀ p t, Going s t → Going s (effect p t).2) (hfl : ∀ t, Going s t → Going s (failed t)) :
    FlowRuns s (primitive pad effect failed s) := by
  rcases primitive_cases (pad := pad) (effect := effect) (failed := failed) (s := s) rfl with
    ⟨r, ht, h⟩ | ⟨ports, s1, ht, ⟨⟨p, hp, hno⟩, h⟩ | ⟨-, hf, h⟩ | ⟨-, -, h⟩⟩
  · rw [h]
    refine ⟨fun _ _ e => (by cases e), fun t e => (by cases e; exact .inr (tick_stop ht)), fun hs _ r' e => ?_⟩
    cases e
    exact tick_served hs ht
  · rw [h]
    refine ⟨fun _ _ e => (by cases e), fun t e => (by cases e), fun _ hq r e => ?_⟩
    rw [(tick_going hb hr ht).1.pinInRange hq (hpad p hp)] at hno
    cases hno
  · rw [h]
    have g := tick_going hb hr ht
    have g1 := hfl _ g.1
    have hfe := faultEntry_runs g1.busy g1.rvalid
    refine ⟨fun _ _ e => (by cases e), fun t e => ?_, fun hs hp r e => ?_⟩
    · simp only [Flow.stop.injEq] at e
      rcases hfe.1 t e with ⟨u, g2, rfl⟩ | hw
      · have g3 := g1.trans g2
        refine .inl ⟨g3.config, g3.result, g3.clk, g3.data, rfl, g3.prog, g3.upc, rfl, rfl, g3.iterClk, g3.iterData, rfl, g3.rvalid,
          g3.matchedAny, rfl, rfl, rfl, g3.length, g3.bitCnt, g3.pcnt, g3.attempts, g3.history.trans (List.prefix_append _ _),
          by simp [State.endCommand], g3.pads, ?_⟩
        intro hnp
        have hp : ports = s.env.headD Ports.quiet := g.2.2.2.2.2.2
        cases hs : s.env with
        | nil => rw [hp, hs] at hf; cases hf
        | cons q rest =>
          have hq := hnp q (by simp [hs])
          rw [hp, hs] at hf
          simp [hq] at hf
      · exact .inr (g1.wasReset hw)
    · simp only [Flow.stop.injEq] at e
      rw [← e]
      exact hfe.2 (g1.served hs) (g1.pairInRange hp)
  · rw [h]; exact .go _ (he _ _ (tick_going hb hr ht).1)

/-- A command runs and no result is pending, as in an attempt. -/
def Run (s : State) : Prop := s.status.busy = true ∧ s.status.rvalid = false

theorem Going.run {s t : State} (g : Going s t) (_ : Run s) : Run t := ⟨g.busy, g.rvalid⟩

theorem setDir_runs {s : State} (h : Run s) (p : Pin) (hp : p = s.cur.clk ∨ p = s.cur.data) (d : Dir) : FlowRuns s (setDir p d s) :=
  primitive_runs h.1 h.2 (by simpa using hp) (fun _ _ g => going_emit (going_modify g p hp _) _) (fun _ g => going_emit (going_scramble g p hp) _)

theorem setDirDriving_runs {s : State} (h : Run s) (p : Pin) (hp : p = s.cur.clk ∨ p = s.cur.data) (l : Level) :
    FlowRuns s (setDirDriving p l s) :=
  primitive_runs h.1 h.2 (by simpa using hp) (fun _ _ g => going_emit (going_modify (going_modify g p hp _) p hp _) _)
    (fun _ g => going_emit (going_scramble g p hp) _)

theorem wrLvl_runs {s : State} (h : Run s) (p : Pin) (hp : p = s.cur.clk ∨ p = s.cur.data) (l : Level) : FlowRuns s (wrLvl p l s) :=
  primitive_runs h.1 h.2 (by simpa using hp) (fun _ _ g => going_emit (going_modify g p hp _) _) (fun _ g => going_emit (going_scramble g p hp) _)

theorem sleepHalf_runs {s : State} (h : Run s) : FlowRuns s (sleepHalf s) :=
  primitive_runs h.1 h.2 (by simp) (fun _ _ g => going_emit (going_timer g _) _) (fun _ g => going_emit (going_timerDraws g _ _) _)

theorem rdLvl_runs {s : State} (h : Run s) (p : Pin) (hp : p = s.cur.clk ∨ p = s.cur.data) : FlowRuns s (rdLvl p s) :=
  primitive_runs h.1 h.2 (by simpa using hp)
    (fun q t g => by
      refine going_emit ?_ _
      cases hq : q.padI p <;> simp only [sampleLevel, hq]
      · exact going_draws g _
      · exact g)
    (fun _ g => going_emit (going_scramble (going_draws g _) p hp) _)

theorem pulse_runs {s : State} (h : Run s) (p : Pin) (hp : p = s.cur.clk ∨ p = s.cur.data) : FlowRuns s (pulseClock p s) := by
  unfold pulseClock
  refine (wrLvl_runs h p hp _).andThen fun a t e => ?_
  have g := (wrLvl_runs h p hp _).1 _ _ e
  have h1 := g.run h
  refine (sleepHalf_runs h1).andThen fun a u e => ?_
  have g2 := (sleepHalf_runs h1).1 _ _ e
  have h2 := g2.run h1
  have hp2 : p = u.cur.clk ∨ p = u.cur.data := by rw [g2.clk, g2.data, g.clk, g.data]; exact hp
  refine (wrLvl_runs h2 p hp2 _).andThen fun a v e => ?_
  have h3 := ((wrLvl_runs h2 p hp2 _).1 _ _ e).run h2
  exact sleepHalf_runs h3

theorem drive_runs {s : State} (h : Run s) (p : Pin) (hp : p = s.cur.clk ∨ p = s.cur.data) (b : Level) :
    FlowRuns s (driveLine p b s) := by
  refine (setDirDriving_runs h p hp _).andThen fun a t e => ?_
  have g := (setDirDriving_runs h p hp _).1 _ _ e
  have h1 := g.run h
  exact wrLvl_runs h1 p (by rw [g.clk, g.data]; exact hp) _

theorem writeBit_runs {s : State} (h : Run s) (p q : Pin) (hp : p = s.cur.clk) (hq : q = s.cur.data) (b : Level) :
    FlowRuns s (writeBit p q b s) := by
  refine (drive_runs h q (.inr hq) _).andThen fun a t e => ?_
  have g := (drive_runs h q (.inr hq) _).1 _ _ e
  exact pulse_runs (g.run h) p (by rw [g.clk]; exact .inl hp)

/-- Writes to SR, BITCNT, PCNT, RAWREG and MATCHREG keep the relation if the counts stay in their ranges. -/
theorem going_seq {s t : State} (h : Going s t) (sr : BitVec 64) {a b : BitVec 7}
    (ha : s.seq.bitCnt.toNat ≤ 64 → a.toNat ≤ 64) (hb : s.seq.pcnt.toNat ≤ 64 → b.toNat ≤ 64) (m : Bool) (r : BitVec 36) :
    Going s { t with seq := { t.seq with sr := sr, bitCnt := a, pcnt := b, matchReg := m, rawReg := r } } :=
  ⟨h.config, h.result, h.clk, h.data, h.active, h.prog, h.upc, h.pos, h.cmdKind, h.iterClk, h.iterData, h.busy, h.rvalid, h.matchedAny,
    h.endCode, h.length, ha, hb, h.attempts, h.history, h.pads, h.env⟩

/-- A write to STAGE keeps the relation. -/
theorem going_stage {s t : State} (h : Going s t) (st : Stage) : Going s { t with cur.stage := st } :=
  ⟨h.config, h.result, h.clk, h.data, h.active, h.prog, h.upc, h.pos, h.cmdKind, h.iterClk, h.iterData, h.busy, h.rvalid, h.matchedAny,
    h.endCode, h.length, h.bitCnt, h.pcnt, h.attempts, h.history, h.pads, h.env⟩

theorem going_trace {s t : State} (h : Going s t) (k : TraceKind) (n : BitVec 7) (v : BitVec 64) : Going s (t.emitTrace k n v) := by
  unfold State.emitTrace
  split
  · exact going_emit h _
  · exact h

theorem toNat_count {m : Nat} (h : m ≤ 64) : (BitVec.ofNat 7 m).toNat ≤ 64 := by
  simp only [BitVec.toNat_ofNat]
  omega

theorem writeLoop_runs (p q : Pin) (v : BitVec 64) (k : Nat) :
    ∀ (i : Nat) (s : State), i + k ≤ 64 → Run s → p = s.cur.clk → q = s.cur.data → FlowRuns s (writeLoop p q v k i s) := by
  induction k with
  | zero => intro i s _ h _ _; exact .go _ (Going.refl h.1 h.2)
  | succ k ih =>
    intro i s hi h hp hq
    refine (writeBit_runs h p q hp hq _).andThen fun a t e => ?_
    have g := (writeBit_runs h p q hp hq _).1 _ _ e
    have hr := g.run h
    have g1 := going_seq (Going.refl hr.1 hr.2) t.seq.sr (a := BitVec.ofNat 7 (i + 1)) (b := t.seq.pcnt)
      (fun _ => toNat_count (by omega)) id t.seq.matchReg t.seq.rawReg
    exact .of_going g1 (ih _ _ (by omega) (g1.run hr) (by rw [g1.clk, g.clk, hp]) (by rw [g1.data, g.data, hq]))

theorem pulseLoop_runs (p : Pin) (k : Nat) :
    ∀ (i : Nat) (s : State), i + k ≤ 64 → Run s → p = s.cur.clk → FlowRuns s (pulseLoop p k i s) := by
  induction k with
  | zero => intro i s _ h _; exact .go _ (Going.refl h.1 h.2)
  | succ k ih =>
    intro i s hi h hp
    refine (pulse_runs h p (.inl hp)).andThen fun a t e => ?_
    have g := (pulse_runs h p (.inl hp)).1 _ _ e
    have hr := g.run h
    have g1 := going_seq (Going.refl hr.1 hr.2) t.seq.sr (a := t.seq.bitCnt) (b := BitVec.ofNat 7 (i + 1)) id
      (fun _ => toNat_count (by omega)) t.seq.matchReg t.seq.rawReg
    exact .of_going g1 (ih _ _ (by omega) (g1.run hr) (by rw [g1.clk, g.clk, hp]))

theorem readLoop_runs (p q : Pin) (k : Nat) :
    ∀ (i : Nat) (r : BitVec 64) (s : State), i + k ≤ 64 → Run s → p = s.cur.clk → q = s.cur.data →
      FlowRuns s (readLoop p q k i r s) := by
  induction k with
  | zero => intro i r s _ h _ _; exact .go _ (Going.refl h.1 h.2)
  | succ k ih =>
    intro i r s hi h hp hq
    refine (rdLvl_runs h q (.inr hq)).andThen fun l t e => ?_
    have g := (rdLvl_runs h q (.inr hq)).1 _ _ e
    have hr := g.run h
    refine (pulse_runs hr p (.inl (by rw [g.clk, hp]))).andThen fun _ u e => ?_
    have g2 := (pulse_runs hr p (.inl (by rw [g.clk, hp]))).1 _ _ e
    have hr2 := g2.run hr
    have g1 := going_seq (Going.refl hr2.1 hr2.2) u.seq.sr (a := BitVec.ofNat 7 (i + 1)) (b := u.seq.pcnt)
      (fun _ => toNat_count (by omega)) id u.seq.matchReg u.seq.rawReg
    exact .of_going g1
      (ih _ _ _ (by omega) (g1.run hr2) (by rw [g1.clk, g2.clk, g.clk, hp]) (by rw [g1.data, g2.data, g.data, hq]))

/-- ACTIVE after a micro-operation that completes (41_protocol_sequencer.md R212, R214). -/
def activeAfter (i : Instr) (a : Bool) : Bool := if i = .enter then true else if i = .exit then false else a

/-- What the flow of a micro-operation does in a running attempt: it goes on with everything kept but ACTIVE, or it ends in the fault
entry or a reset. -/
def OpRuns (i : Instr) (s : State) (f : Flow Unit) : Prop :=
  (∀ t, f = .go () t → Going s { t with cur.active := s.cur.active } ∧ t.cur.active = activeAfter i s.cur.active) ∧
    (∀ t, f = .stop (.next t) → Faulted s t ∨ WasReset s t) ∧
    (ServedHost s.env → PairInRange s → ∀ r, f = .stop r → ∃ t, r = .next t)

theorem OpRuns.of_flow {i : Instr} {s : State} {f : Flow Unit} (h : FlowRuns s f) (he : i ≠ .enter) (hx : i ≠ .exit) :
    OpRuns i s f := by
  refine ⟨fun t e => ?_, h.2⟩
  have g := h.1 () t e
  have ha := g.active
  refine ⟨⟨g.config, g.result, g.clk, g.data, rfl, g.prog, g.upc, g.pos, g.cmdKind, g.iterClk, g.iterData, g.busy, g.rvalid,
    g.matchedAny, g.endCode, g.length, g.bitCnt, g.pcnt, g.attempts, g.history, g.pads, g.env⟩, ?_⟩
  simpa [activeAfter, he, hx] using ha

/-- Every micro-operation of a running attempt, one case per constructor; only an illegal one is refused. -/
theorem exec_runs (i : Instr) (s : State) (hi : i.isHost = false) (h : Run s) :
    (i.wellFormed = false ∧ exec i s = .refused .illegalMicroOp) ∨ ∃ f, exec i s = finish f ∧ OpRuns i s f := by
  have hg := Going.refl h.1 h.2
  cases i <;> simp only [Instr.isHost, Bool.true_eq_false] at hi
  case pulse => exact .inr ⟨_, rfl, .of_flow (pulse_runs h _ (.inl rfl)) (by simp) (by simp)⟩
  case drive b => exact .inr ⟨_, rfl, .of_flow (drive_runs h _ (.inr rfl) _) (by simp) (by simp)⟩
  case release => exact .inr ⟨_, rfl, .of_flow (setDir_runs h _ (.inr rfl) _) (by simp) (by simp)⟩
  case wbit b => exact .inr ⟨_, rfl, .of_flow (writeBit_runs h _ _ rfl rfl _) (by simp) (by simp)⟩
  case wbits n v =>
    by_cases hn : bitCountOk n = true
    · have hn' : n.toNat ≤ 64 := of_decide_eq_true hn
      refine .inr ⟨writeBits n v s, by simp only [exec, execWbits, hn, if_true], .of_flow ?_ (by simp) (by simp)⟩
      have g1 := going_seq hg (lowBits n.toNat v) (a := 0) (b := s.seq.pcnt) (by simp) id s.seq.matchReg s.seq.rawReg
      refine .of_going g1 ((writeLoop_runs _ _ _ _ _ _ (by omega) (g1.run h) rfl rfl).andThen fun a t e => ?_)
      have g2 := (writeLoop_runs _ _ _ _ _ _ (by omega) (g1.run h) rfl rfl).1 _ _ e
      exact .go _ (going_trace (Going.refl g2.busy g2.rvalid) _ _ _)
    · exact .inl ⟨by simpa [Instr.wellFormed] using hn, by simp [exec, execWbits, hn]⟩
  case rbits n =>
    by_cases hn : bitCountOk n = true
    · have hn' : n.toNat ≤ 64 := of_decide_eq_true hn
      refine .inr ⟨readBits n s, by simp only [exec, execRbits, hn, if_true], .of_flow ?_ (by simp) (by simp)⟩
      have g1 := going_seq hg s.seq.sr (a := 0) (b := s.seq.pcnt) (by simp) id s.seq.matchReg s.seq.rawReg
      have h1 := g1.run h
      refine .of_going g1 ((setDir_runs h1 _ (.inr rfl) _).andThen fun a t e => ?_)
      have g2 := (setDir_runs h1 _ (.inr rfl) _).1 _ _ e
      have hc : s.cur.clk = t.cur.clk := by rw [g2.clk]
      have hd : s.cur.data = t.cur.data := by rw [g2.data]
      refine (readLoop_runs _ _ _ _ _ _ (by omega) (g2.run h1) hc hd).andThen fun r u e => ?_
      have g3 := (readLoop_runs _ _ _ _ _ _ (by omega) (g2.run h1) hc hd).1 _ _ e
      have hd2 : s.cur.data = u.cur.data := by rw [g3.data, hd]
      have h3 := g3.run (g2.run h1)
      refine (drive_runs h3 _ (.inr hd2) _).andThen fun a w e => ?_
      have g4 := (drive_runs h3 _ (.inr hd2) _).1 _ _ e
      have h4 := g4.run h3
      exact .go _ (going_trace (going_seq (Going.refl h4.1 h4.2) r id id w.seq.matchReg _) _ _ _)
    · exact .inl ⟨by simpa [Instr.wellFormed] using hn, by simp [exec, execRbits, hn]⟩
  case turn =>
    refine .inr ⟨_, rfl, .of_flow ((setDir_runs h _ (.inr rfl) _).andThen fun a t e => ?_) (by simp) (by simp)⟩
    have g2 := (setDir_runs h _ (.inr rfl) _).1 _ _ e
    exact pulse_runs (g2.run h) _ (.inl (by rw [g2.clk]))
  case lreset =>
    have g1 := going_seq hg s.seq.sr (a := s.seq.bitCnt) (b := 0) id (by simp) s.seq.matchReg s.seq.rawReg
    refine .inr ⟨_, rfl, .of_flow (.of_going g1 ((drive_runs (g1.run h) _ (.inr rfl) _).andThen fun a t e => ?_)) (by simp) (by simp)⟩
    have g2 := (drive_runs (g1.run h) _ (.inr rfl) _).1 _ _ e
    exact pulseLoop_runs _ _ _ _ (by decide) (g2.run (g1.run h)) (by rw [g2.clk])
  case enter =>
    have h1 : Run { s with cur := { s.cur with active := true, stage := .lineReset } } := h
    have hf := drive_runs h1 s.cur.clk (.inl rfl) .high
    refine .inr ⟨_, rfl, fun t e => ?_, fun t e => ?_, hf.2.2⟩
    · have g := hf.1 () t e
      exact ⟨⟨g.config, g.result, g.clk, g.data, rfl, g.prog, g.upc, g.pos, g.cmdKind, g.iterClk, g.iterData, g.busy, g.rvalid,
        g.matchedAny, g.endCode, g.length, g.bitCnt, g.pcnt, g.attempts, g.history, g.pads, g.env⟩, g.active⟩
    · rcases hf.2.1 t e with g | g
      · exact .inl ⟨g.config, g.result, g.clk, g.data, g.active, g.prog, g.upc, g.pos, g.cmdKind, g.iterClk, g.iterData, g.busy,
          g.rvalid, g.matchedAny, g.cancelPending, g.endCode, g.err, g.length, g.bitCnt, g.pcnt, g.attempts, g.history, g.last, g.pads, g.pinFault⟩
      · exact .inr ⟨g.state, g.attempts, g.history, g.env, g.reset⟩
  case exit =>
    have g1 := going_stage hg .exit
    have h1 := g1.run h
    have hf := (setDir_runs h1 s.cur.data (.inr rfl) .input).andThen fun a t e =>
      setDir_runs (((setDir_runs h1 s.cur.data (.inr rfl) .input).1 a t e).run h1) s.cur.clk
        (.inl ((setDir_runs h1 s.cur.data (.inr rfl) .input).1 a t e).clk.symm) .input
    have hf := FlowRuns.of_going g1 hf
    have hst : ∀ r, (setDir s.cur.data .input { s with cur.stage := .exit }).andThen
        (fun _ s1 => (setDir s.cur.clk .input s1).andThen fun _ s2 =>
          Flow.go () { s2 with cur.active := false, cur.stage := .none }) = .stop r →
        (setDir s.cur.data .input { s with cur.stage := .exit }).andThen (fun _ s1 => setDir s.cur.clk .input s1) = .stop r := by
      intro r e
      rcases Flow.andThen_stop e with e1 | ⟨_, s1, e1, e2⟩
      · rw [e1]; rfl
      · rcases Flow.andThen_stop e2 with e3 | ⟨_, s2, e3, e4⟩
        · rw [e1]; exact e3
        · cases e4
    refine .inr ⟨_, rfl, fun t e => ?_, fun t e => hf.2.1 t (hst _ e), fun hs hp r e => hf.2.2 hs hp r (hst _ e)⟩
    obtain ⟨_, s1, e1, e2⟩ := Flow.andThen_go e
    obtain ⟨_, s2, e3, e4⟩ := Flow.andThen_go e2
    cases e4
    have g := hf.1 () s2 (by rw [e1]; exact e3)
    exact ⟨⟨g.config, g.result, g.clk, g.data, rfl, g.prog, g.upc, g.pos, g.cmdKind, g.iterClk, g.iterData, g.busy, g.rvalid,
      g.matchedAny, g.endCode, g.length, g.bitCnt, g.pcnt, g.attempts, g.history, g.pads, g.env⟩, rfl⟩
  case decode =>
    have g1 := going_stage hg .decodeMatch
    have h1 := g1.run h
    refine .inr ⟨_, rfl, .of_flow (.of_going g1 ?_) (by simp) (by simp)⟩
    cases ht : tick { s with cur.stage := .decodeMatch } with
    | stop r =>
      refine ⟨fun a t e => (by cases e), fun t e => (by cases e; exact .inr (tick_stop ht)), fun hs _ r' e => ?_⟩
      cases e
      exact tick_served hs ht
    | go p t =>
      have g2 := (tick_going h1.1 h1.2 ht).1
      exact .go _ (going_seq g2 t.seq.sr g2.bitCnt g2.pcnt _ t.seq.rawReg)

end Sys2Proof.Machine
end

