-- ==== Sys2Proof/Laws/Pads.lean ====
section
/-! SUPPORT. Laws/Pads.lean: what the flows of a running attempt leave in the pads when they go on, whatever host accesses come: the pads
written out for the primitives, one pulse and one drive, and the clock pad at rest for the loops. -/

namespace Sys2Proof.Machine

theorem primitive_pads {α : Type} {pad : Option Pin} {effect : Ports → State → α × State} {failed : State → State} {s : State}
    (h : Run s) {g : List Pad → List Pad} (he : ∀ p t, (effect p t).2.pads = g t.pads) {a : α} {t : State}
    (e : primitive pad effect failed s = .go a t) : t.pads = g s.pads := by
  rcases primitive_cases e with ⟨r, ht, h'⟩ | ⟨ports, s1, ht, ⟨-, h'⟩ | ⟨-, hf, h'⟩ | ⟨-, -, h'⟩⟩
  · cases h'
  · cases h'
  · cases h'
  · cases h'
    rw [he, (tick_going h.1 h.2 ht).2.1]

theorem setDir_pads {s t : State} {p : Pin} {d : Dir} {u : Unit} (h : Run s) (e : setDir p d s = .go u t) :
    t.pads = s.pads.modify p.toNat fun pad => { pad with dir := d } :=
  primitive_pads (g := fun l => l.modify p.toNat fun pad => { pad with dir := d }) h (fun _ _ => rfl) e

theorem setDirDriving_pads {s t : State} {p : Pin} {l : Level} {u : Unit} (h : Run s) (e : setDirDriving p l s = .go u t) :
    t.pads = s.pads.modify p.toNat fun _ => ⟨.output, l⟩ :=
  primitive_pads (g := fun ps => ps.modify p.toNat fun _ => ⟨.output, l⟩) h
    (fun _ _ => by simp [State.withDir, State.withOut, State.mapPad, State.emit, List.modify_modify_eq, Function.comp_def]) e

theorem wrLvl_pads {s t : State} {p : Pin} {l : Level} {u : Unit} (h : Run s) (e : wrLvl p l s = .go u t) :
    t.pads = s.pads.modify p.toNat fun pad => { pad with out := l } :=
  primitive_pads (g := fun ps => ps.modify p.toNat fun pad => { pad with out := l }) h (fun _ _ => rfl) e

theorem sleepHalf_pads {s t : State} {u : Unit} (h : Run s) (e : sleepHalf s = .go u t) : t.pads = s.pads :=
  primitive_pads (g := id) h (fun _ _ => rfl) e

theorem rdLvl_pads {s t : State} {p : Pin} {l : Level} (h : Run s) (e : rdLvl p s = .go l t) : t.pads = s.pads :=
  primitive_pads (g := id) h (fun ports _ => by cases hp : ports.padI p <;> simp [sampleLevel, hp]) e

theorem emitTrace_pads (s : State) (k : TraceKind) (n : BitVec 7) (v : BitVec 64) : (s.emitTrace k n v).pads = s.pads := by
  unfold State.emitTrace
  split <;> rfl

theorem pulseClock_pads {s t : State} {p : Pin} {u : Unit} (hp : p = s.cur.clk ∨ p = s.cur.data) (h : Run s)
    (e : pulseClock p s = .go u t) : t.pads = s.pads.modify p.toNat fun pad => { pad with out := .high } := by
  unfold pulseClock at e
  obtain ⟨_, s1, e1, e⟩ := Flow.andThen_go e
  obtain ⟨_, s2, e2, e⟩ := Flow.andThen_go e
  obtain ⟨_, s3, e3, e⟩ := Flow.andThen_go e
  have g1 := (wrLvl_runs h p hp _).1 _ _ e1
  have h1 := g1.run h
  have g2 := (sleepHalf_runs h1).1 _ _ e2
  have h2 := g2.run h1
  have hp2 : p = s2.cur.clk ∨ p = s2.cur.data := by rw [g2.clk, g2.data, g1.clk, g1.data]; exact hp
  have h3 := ((wrLvl_runs h2 p hp2 _).1 _ _ e3).run h2
  rw [sleepHalf_pads h3 e, wrLvl_pads h2 e3, sleepHalf_pads h1 e2, wrLvl_pads h e1]
  simp [List.modify_modify_eq, Function.comp_def]

theorem driveLine_pads {s t : State} {p : Pin} {b : Level} {u : Unit} (hp : p = s.cur.clk ∨ p = s.cur.data) (h : Run s)
    (e : driveLine p b s = .go u t) : t.pads = s.pads.modify p.toNat fun _ => ⟨.output, b⟩ := by
  unfold driveLine at e
  obtain ⟨_, s1, e1, e⟩ := Flow.andThen_go e
  have g1 := (setDirDriving_runs h p hp _).1 _ _ e1
  rw [wrLvl_pads (g1.run h) e, setDirDriving_pads h e1]
  simp [List.modify_modify_eq, Function.comp_def]

/-- The pad of a pin is driven and High, as the clock pad is between two pulses (40_link_driver.md R172). -/
def AtRest (clk : Pin) (pads : List Pad) : Prop := pads[clk.toNat]? = some ⟨.output, .high⟩

theorem AtRest.raise {clk : Pin} {pads : List Pad} (h : AtRest clk pads) :
    AtRest clk (pads.modify clk.toNat fun pad => { pad with out := .high }) := by
  unfold AtRest at *
  simp [h]

theorem AtRest.other {clk data : Pin} {pads : List Pad} (h : AtRest clk pads) (hcd : clk ≠ data) (f : Pad → Pad) :
    AtRest clk (pads.modify data.toNat f) := by
  have hne : data.toNat ≠ clk.toNat := fun e => hcd (BitVec.eq_of_toNat_eq e.symm)
  unfold AtRest at *
  simp [hne, h]

theorem pulseClock_atRest {s t : State} {clk : Pin} {u : Unit} (h : Run s) (hc : s.cur.clk = clk) (hq : AtRest clk s.pads)
    (e : pulseClock clk s = .go u t) : AtRest clk t.pads := by
  rw [pulseClock_pads (.inl hc.symm) h e]
  exact hq.raise

theorem writeBit_atRest {s t : State} {clk data : Pin} {b : Level} {u : Unit} (hcd : clk ≠ data) (h : Run s) (hc : s.cur.clk = clk)
    (hd : s.cur.data = data) (hq : AtRest clk s.pads) (e : writeBit clk data b s = .go u t) : AtRest clk t.pads := by
  unfold writeBit at e
  obtain ⟨_, s1, e1, e⟩ := Flow.andThen_go e
  have g1 := (drive_runs h _ (.inr hd.symm) _).1 _ _ e1
  refine pulseClock_atRest (g1.run h) (g1.clk.trans hc) ?_ e
  rw [driveLine_pads (.inr hd.symm) h e1]
  exact hq.other hcd _

theorem writeLoop_atRest {clk data : Pin} (hcd : clk ≠ data) (v : BitVec 64) (k : Nat) :
    ∀ (i : Nat) (s t : State) (u : Unit), Run s → s.cur.clk = clk → s.cur.data = data → AtRest clk s.pads →
      writeLoop clk data v k i s = .go u t → AtRest clk t.pads := by
  induction k with
  | zero => intro i s t u _ _ _ hq e; cases e; exact hq
  | succ k ih =>
    intro i s t u h hc hd hq e
    obtain ⟨_, s1, e1, e⟩ := Flow.andThen_go e
    have g1 := (writeBit_runs h _ _ hc.symm hd.symm _).1 _ _ e1
    refine ih _ _ _ u ?_ ?_ ?_ ?_ e
    · exact g1.run h
    · exact g1.clk.trans hc
    · exact g1.data.trans hd
    · exact (writeBit_atRest hcd h hc hd hq e1 : AtRest clk s1.pads)

theorem pulseLoop_atRest {clk : Pin} (k : Nat) :
    ∀ (i : Nat) (s t : State) (u : Unit), Run s → s.cur.clk = clk → AtRest clk s.pads →
      pulseLoop clk k i s = .go u t → AtRest clk t.pads := by
  induction k with
  | zero => intro i s t u _ _ hq e; cases e; exact hq
  | succ k ih =>
    intro i s t u h hc hq e
    obtain ⟨_, s1, e1, e⟩ := Flow.andThen_go e
    have g1 := (pulse_runs h _ (.inl hc.symm)).1 _ _ e1
    refine ih _ _ _ u ?_ ?_ ?_ e
    · exact g1.run h
    · exact g1.clk.trans hc
    · exact (pulseClock_atRest h hc hq e1 : AtRest clk s1.pads)

theorem readLoop_atRest {clk data : Pin} (k : Nat) :
    ∀ (i : Nat) (r : BitVec 64) (s t : State) (v : BitVec 64), Run s → s.cur.clk = clk → s.cur.data = data → AtRest clk s.pads →
      readLoop clk data k i r s = .go v t → AtRest clk t.pads := by
  induction k with
  | zero => intro i r s t v _ _ _ hq e; cases e; exact hq
  | succ k ih =>
    intro i r s t v h hc hd hq e
    obtain ⟨l, s1, e1, e⟩ := Flow.andThen_go e
    have g1 := (rdLvl_runs h _ (.inr hd.symm)).1 _ _ e1
    have h1 := g1.run h
    have hc1 := g1.clk.trans hc
    obtain ⟨_, s2, e2, e⟩ := Flow.andThen_go e
    have g2 := (pulse_runs h1 _ (.inl hc1.symm)).1 _ _ e2
    refine ih _ _ _ _ v ?_ ?_ ?_ ?_ e
    · exact g2.run h1
    · exact g2.clk.trans hc1
    · exact g2.data.trans (g1.data.trans hd)
    · refine (pulseClock_atRest h1 hc1 ?_ e2 : AtRest clk s2.pads)
      rw [rdLvl_pads h e1]
      exact hq

end Sys2Proof.Machine
end

