-- ==== Sys2Proof/Laws/PerInstr.lean ====
section
/-! SUPPORT. Laws/PerInstr.lean: statements per instruction, one lemma per constructor. WordCount: how many words an instruction has
(30_encoding.md R130, R140). -/

namespace Sys2Proof.Laws.WordCount

/-- A command is one word; a micro-operation is one word, but WBITS, which is three. -/
def Statement (i : Instr) : Prop :=
  (encode i).length = (match i with
    | .wbits _ _ => 3
    | _ => 1)

theorem configure (boh : Bool) (verb : Verbosity) (dorm idle : Bool) : Statement (.configure boh verb dorm idle) := rfl
theorem scan : Statement .scan := rfl
theorem testPair (clk data : Pin) : Statement (.testPair clk data) := rfl
theorem pop : Statement .pop := rfl
theorem cancel : Statement .cancel := rfl
theorem pulse : Statement .pulse := rfl
theorem drive (b : Level) : Statement (.drive b) := rfl
theorem release : Statement .release := rfl
theorem wbit (b : Level) : Statement (.wbit b) := rfl
theorem wbits (n : BitVec 7) (v : BitVec 64) : Statement (.wbits n v) := rfl
theorem rbits (n : BitVec 7) : Statement (.rbits n) := rfl
theorem turn : Statement .turn := rfl
theorem lreset : Statement .lreset := rfl
theorem enter : Statement .enter := rfl
theorem exit : Statement .exit := rfl
theorem decode : Statement .decode := rfl

end Sys2Proof.Laws.WordCount
end

