-- ==== Sys2Proof/Laws/WireView.lean ====
section
/-! SUPPORT. Laws/WireView.lean: what each event run of the micro-operations does to the wire view, from any wire (20_memory.md R97). -/

namespace Sys2Proof.Machine

@[simp] theorem Wire.run_nil (clk data : Pin) (w : Wire) : Wire.run clk data w [] = w := rfl

theorem Wire.run_cons (clk data : Pin) (w : Wire) (e : Event) (es : List Event) :
    Wire.run clk data w (e :: es) = Wire.run clk data (Wire.next clk data w e) es := rfl

theorem Wire.run_append (clk data : Pin) (w : Wire) (es fs : List Event) :
    Wire.run clk data w (es ++ fs) = Wire.run clk data (Wire.run clk data w es) fs := by
  simp [Wire.run, List.foldl_append]

/-- What the block drives on the wire. -/
def Wire.driven (w : Wire) : Option Level := if w.dir = .output then some w.out else none

/-- One pulse is one cycle. -/
theorem Wire.run_pulse (clk data : Pin) (w : Wire) :
    Wire.run clk data w (pulseEvents clk) =
      { w with sample := none, phase := .none, cycles := w.cycles ++ [⟨w.driven, w.sample⟩] } := by
  simp [Wire.run, pulseEvents, Wire.next, Wire.driven]

theorem Wire.run_drive {clk data : Pin} (h : clk ≠ data) (w : Wire) (b : Level) :
    Wire.run clk data w (driveEvents data b) = { w with dir := .output, out := b, phase := .none } := by
  simp [Wire.run, driveEvents, Wire.next, Ne.symm h]

theorem Wire.run_release (clk data : Pin) (w : Wire) :
    Wire.run clk data w [.setDir data .input] = { w with dir := .input, phase := .none } := by
  simp [Wire.run, Wire.next]

/-- The release of the clock pad leaves the wire. -/
theorem Wire.run_release_clk {clk data : Pin} (h : clk ≠ data) (w : Wire) :
    Wire.run clk data w [.setDir clk .input] = { w with phase := .none } := by
  simp [Wire.run, Wire.next, h]

/-- ENTER drops a sample from before it. -/
theorem Wire.run_enter {clk data : Pin} (h : clk ≠ data) (w : Wire) :
    Wire.run clk data w (driveEvents clk .high) = { w with sample := none, phase := .none } := by
  simp [Wire.run, driveEvents, Wire.next, h]

theorem Wire.run_writeBit {clk data : Pin} (h : clk ≠ data) (w : Wire) (b : Level) :
    Wire.run clk data w (writeBitEvents clk data b) =
      { w with dir := .output, out := b, sample := none, phase := .none, cycles := w.cycles ++ [⟨some b, w.sample⟩] } := by
  rw [writeBitEvents, Wire.run_append, Wire.run_drive h, Wire.run_pulse]
  simp [Wire.driven]

theorem Wire.run_pulses (clk data : Pin) (k : Nat) (w : Wire) (hs : w.sample = none) (hp : w.phase = .none) :
    Wire.run clk data w (pulsesEvents clk k) = { w with cycles := w.cycles ++ List.replicate k ⟨w.driven, none⟩ } := by
  induction k generalizing w with
  | zero => simp [pulsesEvents]
  | succ k ih =>
    rw [pulsesEvents, Wire.run_append, Wire.run_pulse, ih _ rfl rfl]
    obtain ⟨dir, out, sample, phase, cycles⟩ := w
    simp only at hs hp
    subst hs hp
    simp [Wire.driven, List.replicate_succ]

theorem Wire.run_writeLoop {clk data : Pin} (h : clk ≠ data) (v : BitVec 64) (k : Nat) :
    ∀ (i : Nat) (w : Wire), w.sample = none → w.phase = .none →
      Wire.run clk data w (writeLoopEvents clk data v k i) =
        { w with
          dir := if k = 0 then w.dir else .output,
          out := if k = 0 then w.out else bitLevel v (i + k - 1),
          cycles := w.cycles ++ (List.range k).map fun j => ⟨some (bitLevel v (i + j)), none⟩ } := by
  induction k with
  | zero => intro i w _ _; simp [writeLoopEvents]
  | succ k ih =>
    intro i w hs hp
    rw [writeLoopEvents, Wire.run_append, Wire.run_writeBit h, ih _ _ rfl rfl]
    obtain ⟨dir, out, sample, phase, cycles⟩ := w
    simp only at hs hp
    subst hs hp
    rw [List.range_succ_eq_map]
    by_cases hk : k = 0
    · simp [hk]
    · simp [hk, Function.comp_def, Nat.add_assoc, Nat.add_comm 1]

/-- The samples of RBITS: each cycle on the released line carries its sample. -/
theorem Wire.run_readLoop (clk data : Pin) (levels : List Level) :
    ∀ w : Wire, w.dir = .input → w.sample = none → w.phase = .none →
      Wire.run clk data w (readLoopEvents clk data levels) =
        { w with cycles := w.cycles ++ levels.map fun l => ⟨none, some l⟩ } := by
  induction levels with
  | nil => intro w _ _ _; simp [readLoopEvents]
  | cons l ls ih =>
    intro w hd hs hp
    have e : readLoopEvents clk data (l :: ls) = .rdLvl data l :: (pulseEvents clk ++ readLoopEvents clk data ls) := by
      simp [readLoopEvents]
    rw [e, Wire.run_cons, Wire.run_append, Wire.run_pulse, ih]
    · obtain ⟨dir, out, sample, phase, cycles⟩ := w
      simp only at hd hs hp
      subst hd hs hp
      simp [Wire.next, Wire.driven]
    · simpa [Wire.next] using hd
    · rfl
    · rfl

theorem Wire.run_trace (clk data : Pin) (w : Wire) (verb : Verbosity) (kind : TraceKind) (n : BitVec 7) (bits : BitVec 64) :
    Wire.run clk data w (traceEvents verb kind n bits) = w := by
  unfold traceEvents
  split <;> rfl

/-- A WBITS of the program: one cycle per bit, whatever the verbosity. -/
theorem Wire.run_send {clk data : Pin} (h : clk ≠ data) (verb : Verbosity) (n : BitVec 7) (v : BitVec 64) (w : Wire)
    (hs : w.sample = none) (hp : w.phase = .none) :
    Wire.run clk data w (sendEvents clk data verb n v) =
      { w with
        dir := if n.toNat = 0 then w.dir else .output,
        out := if n.toNat = 0 then w.out else bitLevel v (n.toNat - 1),
        cycles := w.cycles ++ driveCycles v n.toNat } := by
  rw [sendEvents, Wire.run_append, Wire.run_trace, writeBitsEvents, Wire.run_writeLoop h _ _ _ _ hs hp]
  simp only [driveCycles, Nat.zero_add]

theorem Wire.run_resetLine {clk data : Pin} (h : clk ≠ data) (w : Wire) (hs : w.sample = none) :
    Wire.run clk data w (resetLineEvents clk data) =
      { w with dir := .output, out := .high, phase := .none, cycles := w.cycles ++ resetCycles } := by
  rw [resetLineEvents, Wire.run_append, Wire.run_drive h, Wire.run_pulses]
  · simp [resetCycles, Wire.driven]
  · exact hs
  · rfl

theorem Wire.run_turn (clk data : Pin) (w : Wire) (hs : w.sample = none) :
    Wire.run clk data w (turnEvents clk data) =
      { w with dir := .input, phase := .none, cycles := w.cycles ++ [idleCycle] } := by
  have e : turnEvents clk data = [.setDir data .input] ++ pulseEvents clk := rfl
  rw [e, Wire.run_append, Wire.run_release, Wire.run_pulse]
  simp [Wire.driven, hs, idleCycle]

theorem Wire.run_readBits {clk data : Pin} (h : clk ≠ data) (levels : List Level) (w : Wire) (hs : w.sample = none) :
    Wire.run clk data w (readBitsEvents clk data levels) =
      { w with dir := .output, out := .high, phase := .none, cycles := w.cycles ++ sampleCycles levels } := by
  have e : readBitsEvents clk data levels = [.setDir data .input] ++ (readLoopEvents clk data levels ++ driveEvents data .high) := rfl
  rw [e, Wire.run_append, Wire.run_append, Wire.run_release, 
    Wire.run_readLoop clk data levels ⟨.input, w.out, w.sample, .none, w.cycles⟩ rfl hs rfl, Wire.run_drive h]
  simp [sampleCycles]

/-- A run of events adds these cycles to the wire view, from any wire without a pending sample or an open pulse, and leaves such a wire. -/
def Adds (clk data : Pin) (events : List Event) (cycles : List Cycle) : Prop :=
  ∀ w : Wire, w.sample = none → w.phase = .none →
    (Wire.run clk data w events).cycles = w.cycles ++ cycles ∧
      (Wire.run clk data w events).sample = none ∧ (Wire.run clk data w events).phase = .none

theorem Adds.append {clk data : Pin} {es fs : List Event} {cs ds : List Cycle} (h : Adds clk data es cs) (k : Adds clk data fs ds) :
    Adds clk data (es ++ fs) (cs ++ ds) := by
  intro w hs hp
  obtain ⟨h1, h2, h3⟩ := h w hs hp
  obtain ⟨k1, k2, k3⟩ := k _ h2 h3
  rw [Wire.run_append]
  exact ⟨by rw [k1, h1, List.append_assoc], k2, k3⟩

theorem Adds.nil (clk data : Pin) : Adds clk data [] [] := fun w hs hp => ⟨by simp, hs, hp⟩

theorem Adds.send {clk data : Pin} (h : clk ≠ data) (verb : Verbosity) (n : BitVec 7) (v : BitVec 64) :
    Adds clk data (sendEvents clk data verb n v) (driveCycles v n.toNat) := by
  intro w hs hp
  rw [Wire.run_send h _ _ _ _ hs hp]
  exact ⟨rfl, hs, hp⟩

theorem Adds.trace (clk data : Pin) (verb : Verbosity) (kind : TraceKind) (n : BitVec 7) (bits : BitVec 64) :
    Adds clk data (traceEvents verb kind n bits) [] := by
  intro w hs hp
  rw [Wire.run_trace]
  exact ⟨by simp, hs, hp⟩

theorem Adds.resetLine {clk data : Pin} (h : clk ≠ data) : Adds clk data (resetLineEvents clk data) resetCycles := by
  intro w hs _
  rw [Wire.run_resetLine h _ hs]
  exact ⟨rfl, hs, rfl⟩

theorem Adds.turn (clk data : Pin) : Adds clk data (turnEvents clk data) [idleCycle] := by
  intro w hs _
  rw [Wire.run_turn _ _ _ hs]
  exact ⟨rfl, hs, rfl⟩

theorem Adds.readBits {clk data : Pin} (h : clk ≠ data) (levels : List Level) :
    Adds clk data (readBitsEvents clk data levels) (sampleCycles levels) := by
  intro w hs _
  rw [Wire.run_readBits h _ _ hs]
  exact ⟨rfl, hs, rfl⟩

/-- An attempt that starts now, with the events it has so far, adds its own wire view and leaves those before it. -/
theorem attemptViews_of_start {s t : State} {m : AttemptMark} {events : List Event} (ha : t.attempts = m :: s.attempts)
    (hm : m.start = s.history.length) (hh : t.history = s.history ++ events) :
    t.attemptViews = s.attemptViews ++ [(m, wireView m.clk m.data m.pad events)] := by
  simp [State.attemptViews, ha, hh, hm, attemptSegments]

theorem wireView_of_start {s t : State} {m : AttemptMark} {events : List Event} (ha : t.attempts = m :: s.attempts)
    (hm : m.start = s.history.length) (hh : t.history = s.history ++ events) :
    t.wireView = s.wireView ++ wireView m.clk m.data m.pad events := by
  simp [State.wireView, attemptViews_of_start ha hm hh]

end Sys2Proof.Machine
end

