-- ==== Sys2Proof/Tests/Slice0.lean ====
section
/-! SUPPORT. Tests/Slice0.lean: the well-formedness smoke test, one written-out word for every constructor, one step for every
instruction with its result from 95_test_vectors.md, and a witness for the hypotheses of every statement of Obligations.lean. -/

namespace Sys2Proof.Tests

open Sys2Proof Sys2Proof.Machine

/-! ## WellFormed: an ill-formed term for each check -/

theorem test_wbits_65_is_ill_formed : Instr.wellFormed (.wbits 65 0) = false := by decide

theorem test_rbits_65_is_ill_formed : Instr.wellFormed (.rbits 65) = false := by decide

theorem test_bit_count_64_is_well_formed : Instr.wellFormed (.wbits 64 0) = true ∧ Instr.wellFormed (.rbits 64) = true := by decide

/-! ## Decoding: words written out from the encoding tables (30_encoding.md R137, R145) -/

-- CONFIGURE: OP 0001, RSV0 0000, A[0] BOH 1, A[2:1] VERB 10, A[3] DORM 0, A[4] IDLE 1
theorem test_decode_configure : decodeHost 0b00000000000000000001010100000001 = .ok (.configure true .verbose false true) := by decide
theorem test_decode_configure_dorm : decodeHost 0b00000000000000000000101000000001 = .ok (.configure false .normal true false) := by decide
theorem test_decode_scan : decodeHost 0b00000000000000000000000000000010 = .ok .scan := by decide
-- TEST_PAIR: A 00000010, B 00000011
theorem test_decode_testPair : decodeHost 0b00000000000000110000001000000011 = .ok (.testPair 2 3) := by decide
theorem test_decode_pop : decodeHost 0b00000000000000000000000000000100 = .ok .pop := by decide
theorem test_decode_cancel : decodeHost 0b00000000000000000000000000000101 = .ok .cancel := by decide
theorem test_decode_verb_3_refused : decodeHost 0x00000601 = .error .badField := by decide
theorem test_decode_op_f_refused : decodeHost 0xFFFFFFFF = .error .illegalCmd := by decide
theorem test_decode_pulse : decodeUop [0b00000000000000000000000000000001] = .ok (.pulse, []) := by decide
-- DRIVE: BV at bit 4
theorem test_decode_drive : decodeUop [0b00000000000000000000000000010010] = .ok (.drive .high, []) := by decide
theorem test_decode_release : decodeUop [0b00000000000000000000000000000011] = .ok (.release, []) := by decide
theorem test_decode_wbit : decodeUop [0b00000000000000000000000000010100] = .ok (.wbit .high, []) := by decide
-- WBITS: N 0010000 at bits 14 to 8, then the low and the high word of V
theorem test_decode_wbits :
    decodeUop [0b00000000000000000001000000000101, 0x0000E79E, 0x80000000] = .ok (.wbits 16 0x800000000000E79E, []) := by decide
-- RBITS: N 0100100
theorem test_decode_rbits : decodeUop [0b00000000000000000010010000000110] = .ok (.rbits 36, []) := by decide
theorem test_decode_turn : decodeUop [0b00000000000000000000000000000111] = .ok (.turn, []) := by decide
theorem test_decode_lreset : decodeUop [0b00000000000000000000000000001000] = .ok (.lreset, []) := by decide
theorem test_decode_enter : decodeUop [0b00000000000000000000000000001001] = .ok (.enter, []) := by decide
theorem test_decode_exit : decodeUop [0b00000000000000000000000000001010] = .ok (.exit, []) := by decide
theorem test_decode_decode : decodeUop [0b00000000000000000000000000001011] = .ok (.decode, []) := by decide
theorem test_decode_uop_0_refused : decodeUop [0] = .error .reservedUop := by decide
theorem test_decode_rbits_65_refused : decodeUop [0x00004106] = .error .badField := by decide

/-- 95_test_vectors.md P7: the 20 words of PROG(8, 0) are these 12 micro-operations. -/
theorem test_decode_program :
    decodeProgram 12
        [0x00000009, 0x00000008, 0x00001005, 0x0000E79E, 0x00000000, 0x00000008, 0x00000805, 0x00000000, 0x00000000, 0x00000805,
          0x000000A5, 0x00000000, 0x00000007, 0x00002406, 0x00000007, 0x00000805, 0x00000000, 0x00000000, 0x0000000B, 0x0000000A] =
      .ok [.enter, .lreset, .wbits 16 0xE79E, .lreset, .wbits 8 0, .wbits 8 0xA5, .turn, .rbits 36, .turn, .wbits 8 0, .decode, .exit] := by
  decide

/-- 95_test_vectors.md P7: PROG(8, 0) holds those words. -/
theorem test_program_words :
    (program true false).flatMap ProgRow.words =
      [0x00000009, 0x00000008, 0x00001005, 0x0000E79E, 0x00000000, 0x00000008, 0x00000805, 0x00000000, 0x00000000, 0x00000805,
        0x000000A5, 0x00000000, 0x00000007, 0x00002406, 0x00000007, 0x00000805, 0x00000000, 0x00000000, 0x0000000B, 0x0000000A] := by
  decide

/-- 41_protocol_sequencer.md R222, R230: the micro-operations of the dormant stage. -/
theorem test_dormant_rows :
    decodeProgram 9 (dormantRows.flatMap ProgRow.words) =
      .ok [.wbits 8 0xFF, .wbits 32 0x6209F392, .wbits 32 0x86852D95, .wbits 32 0xE3DDAFE9, .wbits 32 0x19BC0EA2, .wbits 4 0,
        .wbits 8 0x1A, .lreset, .wbits 8 0] := by
  decide

theorem test_table_word_scan : decodeTableWord 8 2 = some .scan := by decide
theorem test_table_word_wbits : decodeTableWord 96 0x12345678000000A500000805 = some (.wbits 8 0x12345678000000A5) := by decide

/-! ## One step of each instruction -/

/-- Whether an outcome is a next state with this property. -/
def holds (r : Result) (p : State → Bool) : Bool :=
  match r with
  | .next s => p s
  | .fault _ => false
  | .refused _ => false

/-- The start state of 95_test_vectors.md section 2.3, with these inputs. -/
def inAttempt (env : List Ports) : State :=
  { State.reset with
    pads := List.replicate 2 Pad.reset ++ [⟨.output, .high⟩, ⟨.input, .high⟩],
    config.verbosity := .verbose,
    status.busy := true,
    cur := ⟨2, 3, true, .lineReset⟩,
    seq.cmdKind := .testPair,
    seq.pos := .attempt,
    env := env }

/-- Ports that drive pad 3, the data pad of `inAttempt`. -/
def driving (l : Level) : Ports := ⟨false, [], false, [none, none, none, some l]⟩

/-- Ports that assert `pin_fault`. -/
def failing : Ports := ⟨false, [], true, []⟩

/-- The port samples of the start of an RBITS that samples these levels, five block steps apart. -/
def lineLevels (levels : List Level) : List Ports := Ports.quiet :: levels.flatMap fun l => driving l :: List.replicate 4 Ports.quiet

-- 95_test_vectors.md section 2.1 and 42_scanner_commands.md R255
theorem test_configure :
    holds (execConfigure true .verbose false true { State.reset with staging.argMaskLo := 0x1C }) (fun t =>
      decide (t.cfgWord = 0x00000515 ∧ t.config.mask = 0x1C ∧ t.status.err = .ok)) = true := by decide
theorem test_configure_bad_mask :
    holds (execConfigure false .normal false true { State.resetWith 16 with staging.argMaskLo := 0x10000 }) (fun t =>
      decide (t.status.err = .badMask ∧ t.config = ScanConfig.reset)) = true := by decide
theorem test_scan : holds (execScan State.reset) (fun t => decide (t.statusWord = 0x00000001)) = true := by decide
theorem test_scan_busy : holds (execScan (inAttempt [])) (fun t => decide (t.status.err = .busy)) = true := by decide
theorem test_testPair : holds (execTestPair 63 3 State.reset) (fun t => decide (t.status.err = .ok ∧ t.status.busy = true)) = true := by decide
theorem test_testPair_same_before_range : holds (execTestPair 70 70 State.reset) (fun t => decide (t.status.err = .badPinSame)) = true := by
  decide
theorem test_pop :
    holds (execPop { inAttempt [] with status.rvalid := true }) (fun t => decide (t.status.rvalid = false ∧ t.status.err = .ok)) = true := by
  decide
theorem test_pop_no_result : holds (execPop State.reset) (fun t => decide (t.statusWord = 0x00000400)) = true := by decide
theorem test_cancel_idle : holds (execCancel State.reset) (fun t => decide (t.statusWord = 0)) = true := by decide
theorem test_cancel_running : holds (execCancel (inAttempt [])) (fun t => decide (t.status.cancelPending = true)) = true := by decide

-- 95_test_vectors.md section 2.3
theorem test_pulse :
    holds (execPulse (inAttempt [])) (fun t =>
      decide (t.history = [.wrLvl 2 .low, .sleep 250, .wrLvl 2 .high, .sleep 250] ∧ t.pads[3]? = some ⟨.input, .high⟩)) = true := by
  decide
theorem test_drive :
    holds (execDrive .low (inAttempt [])) (fun t =>
      decide (t.history = [.setDir 3 .output, .wrLvl 3 .low] ∧ t.pads[3]? = some ⟨.output, .low⟩)) = true := by decide
/-- 20_memory.md R96: pad 3, Input with OUT High, is driven Low from the SetDir event on: its old level is never driven. -/
theorem test_drive_hides_old_level :
    (match setDirDriving 3 .low (inAttempt []) with
      | .go _ t => decide (t.history = [.setDir 3 .output] ∧ t.pads[3]? = some ⟨.output, .low⟩)
      | .stop _ => false) = true := by decide
theorem test_release :
    holds (execRelease (inAttempt [])) (fun t => decide (t.history = [.setDir 3 .input] ∧ t.pads[3]? = some ⟨.input, .high⟩)) = true := by
  decide
theorem test_wbit :
    holds (execWbit .low (inAttempt [])) (fun t =>
      decide (t.history = [.setDir 3 .output, .wrLvl 3 .low, .wrLvl 2 .low, .sleep 250, .wrLvl 2 .high, .sleep 250] ∧
        t.pads[3]? = some ⟨.output, .low⟩)) = true := by decide
theorem test_wbits_4 :
    holds (execWbits 4 0xA (inAttempt [])) (fun t =>
      decide (wireView 2 3 ⟨.input, .high⟩ t.history =
          [⟨some .low, none⟩, ⟨some .high, none⟩, ⟨some .low, none⟩, ⟨some .high, none⟩] ∧
        t.traceOutput = [⟨.tx, 4, 0xA⟩] ∧ t.pads[3]? = some ⟨.output, .high⟩)) = true := by decide
-- the line levels "100110"
theorem test_rbits_6 :
    holds (execRbits 6 (inAttempt (lineLevels [.high, .low, .low, .high, .high, .low]))) (fun t =>
      decide (t.seq.sr = 0x19 ∧ t.seq.rawReg = 0x19 ∧ t.traceOutput = [⟨.rx, 6, 0x19⟩] ∧ t.pads[3]? = some ⟨.output, .high⟩)) = true := by
  decide
theorem test_rbits_0 :
    holds (execRbits 0 (inAttempt [])) (fun t =>
      decide (t.history = [.setDir 3 .input, .setDir 3 .output, .wrLvl 3 .high, .trace ⟨.rx, 0, 0⟩])) = true := by decide
theorem test_turn :
    holds (execTurn (inAttempt [])) (fun t =>
      decide (wireView 2 3 ⟨.input, .high⟩ t.history = [⟨none, none⟩] ∧ t.pads[3]? = some ⟨.input, .high⟩)) = true := by decide
set_option maxRecDepth 20000 in
theorem test_lreset :
    holds (execLreset (inAttempt [])) (fun t =>
      decide (t.history.length = 258 ∧ t.traceOutput = [] ∧ t.pads[3]? = some ⟨.output, .high⟩)) = true := by decide
-- 41_protocol_sequencer.md R212, R214 and 95_test_vectors.md sections 2.4 and 2.5
theorem test_enter :
    holds (execEnter { inAttempt [] with pads := List.replicate 4 Pad.reset, cur := ⟨2, 3, false, .none⟩ }) (fun t =>
      decide (t.pads[2]? = some ⟨.output, .high⟩ ∧ t.pads[3]? = some ⟨.input, .high⟩ ∧ t.curPairWord = 0x00030302)) = true := by decide
theorem test_exit :
    holds (execExit (inAttempt [])) (fun t =>
      decide (t.history = [.setDir 3 .input, .setDir 2 .input] ∧ t.curPairWord = 0x00000302)) = true := by decide
theorem test_decode_matches_whatever_parity :
    holds (execDecode { inAttempt [] with seq.rawReg := 0x95D00A3B9 }) (fun t => decide (t.seq.matchReg = true)) = true := by decide
theorem test_decode_other_manufacturer :
    holds (execDecode { inAttempt [] with seq.rawReg := 0x15D00A399, seq.matchReg := true }) (fun t =>
      decide (t.seq.matchReg = false)) = true := by decide
-- 95_test_vectors.md section 2.3, "Fault": the third WrLvl(3, ·) of WBITS 8, 0xA5, primitive number 13
theorem test_fault_in_wbits :
    holds (execWbits 8 0xA5 (inAttempt (List.replicate 13 Ports.quiet ++ [failing]))) (fun t =>
      decide (t.history.drop 12 = [.setDir 3 .output, .wrLvl 3 .high, .setDir 3 .input, .setDir 2 .input, .ended .fault] ∧
        t.statusWord = 0x00000840 ∧ t.traceOutput = [])) = true := by decide
-- 95_test_vectors.md section 2.6, last row: the failed best-effort release is no event
theorem test_failed_release :
    holds (execRelease (inAttempt [failing, failing])) (fun t =>
      decide (t.history = [.setDir 3 .input, .setDir 2 .input, .ended .fault] ∧ t.statusWord = 0x00000840)) = true := by decide

/-! ## Steps from reset, with a word where the next step finds it -/

theorem test_step_host_word : holds (step (State.reset.withFetchWord 8 2)) (fun t => decide (t.status.busy = true ∧ t.seq.cmdKind = .scan)) = true := by
  decide
theorem test_step_uop_word : holds (step (State.reset.withFetchWord 32 9)) (fun t => decide (t.cur.active = true ∧ t.seq.upc = 1)) = true := by
  decide

/-- 10_state.md R43, R44 and 95_test_vectors.md section 1.5. -/
theorem test_pairs : pairs 0x1C (maxPinOf 0x1C) = [(2, 3), (2, 4), (3, 2), (3, 4), (4, 2), (4, 3)] := by decide

/-- 95_test_vectors.md section 2.7: the registers after reset. -/
theorem test_reset_registers :
    (List.range 16).map (fun k => State.reset.readWord (4 * k)) = [0, 0, 0, 0, 0x12, 0, 0, 0, 0, 0, 0, 0, 0, 0, 0, 0] := by decide

/-! ## Witnesses: for each statement of Obligations.lean that has hypotheses, states and operands that meet all of them together -/

/-- The state of `inAttempt` with a port sample due and the row of a micro-operation at upc. -/
def atRow (row : ProgRow) : State := { inAttempt [Ports.quiet] with seq.prog := [row] }

/-- An idle block with a port sample due. -/
def idleReady : State := { State.reset with env := [Ports.quiet] }

theorem ready_idle : Ready idleReady := ⟨Ports.quiet, [], rfl, rfl⟩
theorem ready_attempt : Ready (inAttempt [Ports.quiet]) := ⟨Ports.quiet, [], rfl, rfl⟩
theorem pair_in_range (env : List Ports) : PairInRange (inAttempt env) := by
  have hl : (inAttempt env).pinCount = 4 := rfl
  exact ⟨by rw [hl]; exact (by decide : 2 < 4), by rw [hl]; exact (by decide : 3 < 4)⟩
theorem quiet_nil : Quiet [] := by simp [Quiet]
theorem quiet_two : Quiet [Ports.quiet, driving .low] := by simp [Quiet, Ports.quiet, driving]

theorem witness_HostCommandsDecodeToThemselves : Instr.isHost (.testPair 64 255) = true := rfl
theorem witness_MicroOpsDecodeToThemselves :
    Instr.isHost (.wbits 64 1) = false ∧ Instr.wellFormed (.wbits 64 1) = true ∧
      Instr.isHost (.rbits 0) = false ∧ Instr.wellFormed (.rbits 0) = true := by decide
theorem witness_DecodedWordsEncodeBack :
    decodeHost 0x00FF4003 = .ok (.testPair 64 255) ∧ decodeUop [0x00004005, 1, 2, 7] = .ok (.wbits 64 0x200000001, [7]) := by decide
/-- One word for each clause, at the ends of its range. -/
theorem witness_IllegalMicroOpWordsAreInvalid :
    ((0x0 : Word).extractLsb' 0 4).toNat = 0 ∧ 12 ≤ ((0xC : Word).extractLsb' 0 4).toNat ∧ 12 ≤ ((0xF : Word).extractLsb' 0 4).toNat ∧
      (0x22 : Word).getLsbD 5 = true ∧ (0x82 : Word).getLsbD 7 = true ∧ (0x8006 : Word).getLsbD 15 = true ∧
      (0x80000006 : Word).getLsbD 31 = true ∧
      ((((0x11 : Word).extractLsb' 0 4).toNat ≠ 2 ∧ ((0x11 : Word).extractLsb' 0 4).toNat ≠ 4) ∧ (0x11 : Word).getLsbD 4 = true) ∧
      ((((0x107 : Word).extractLsb' 0 4).toNat ≠ 5 ∧ ((0x107 : Word).extractLsb' 0 4).toNat ≠ 6) ∧ (0x107 : Word).extractLsb' 8 7 ≠ 0) ∧
      64 < ((0x4106 : Word).extractLsb' 8 7).toNat := by decide
theorem witness_StepRunsTheDecodedInstruction_host : Ready idleReady ∧ decodeHost 0x00030203 = .ok (.testPair 2 3) :=
  ⟨ready_idle, by decide⟩
theorem witness_StepRunsTheDecodedInstruction_microOp :
    BlockTurn (atRow ⟨.lineReset, [0x1]⟩) ∧ (atRow ⟨.lineReset, [0x1]⟩).seq.pos = .attempt ∧
      (atRow ⟨.lineReset, [0x1]⟩).seq.prog[(atRow ⟨.lineReset, [0x1]⟩).seq.upc.toNat]? = some ⟨.lineReset, [0x1]⟩ ∧
      decodeUop [0x1] = .ok (.pulse, []) :=
  ⟨by simp [BlockTurn, atRow, inAttempt, Ports.quiet], by decide, by decide, by decide⟩
theorem witness_InvalidMicroOpsAreRefused :
    (BlockTurn (atRow ⟨.lineReset, [0xC]⟩) ∧ (atRow ⟨.lineReset, [0xC]⟩).seq.pos = .attempt ∧
        (atRow ⟨.lineReset, [0xC]⟩).seq.prog[(atRow ⟨.lineReset, [0xC]⟩).seq.upc.toNat]? = some ⟨.lineReset, [0xC]⟩ ∧
        decodeUop [0xC] = .error .reservedUop) ∧
      64 < (65 : BitVec 7).toNat :=
  ⟨⟨by simp [BlockTurn, atRow, inAttempt, Ports.quiet], by decide, by decide, by decide⟩, by decide⟩
theorem witness_ResetPulseFromAnyState :
    (inAttempt [⟨true, [], false, []⟩]).env = [⟨true, [], false, []⟩] ∧ (⟨true, [], false, []⟩ : Ports).rst = true ∧
      (⟨true, [], false, []⟩ : Ports).host = [] := by decide
/-- A reset at the first and at the last of the 258 block steps. -/
theorem witness_ResetStopsALineReset :
    (∀ k ∈ [0, 257],
        Quiet ((inAttempt (List.replicate k Ports.quiet ++ [⟨true, [], false, []⟩])).env.take k) ∧
          (inAttempt (List.replicate k Ports.quiet ++ [⟨true, [], false, []⟩])).env.drop k = [⟨true, [], false, []⟩] ∧
          PairInRange (inAttempt (List.replicate k Ports.quiet ++ [⟨true, [], false, []⟩])) ∧ k < 258) := by
  intro k hk
  have hl : k = 0 ∨ k = 257 := by simpa using hk
  refine ⟨?_, ?_, pair_in_range _, by omega⟩
  · intro p hp
    have hp' : p ∈ List.replicate k Ports.quiet := by simpa [inAttempt, List.take_append] using hp
    rw [List.eq_of_mem_replicate hp']
    exact ⟨rfl, rfl, rfl⟩
  · simp [inAttempt]
/-- The write and the read at the ends of the window. -/
theorem witness_AccessesDuringReset :
    (inAttempt [⟨true, [.write 0 [3, 2, 3, 0], .read 0x3C 4], false, []⟩]).env =
        [⟨true, [.write 0 [3, 2, 3, 0], .read 0x3C 4], false, []⟩] ∧
      0 % 4 = 0 ∧ 0 < 64 ∧ 0x3C % 4 = 0 ∧ 0x3C < 64 := by decide
theorem witness_IdleBlockDoesNothing : BlockTurn idleReady ∧ idleReady.seq.pos = .idle :=
  ⟨by simp [BlockTurn, idleReady, Ports.quiet], rfl⟩
theorem witness_ReadsHaveNoSideEffect : Ready idleReady ∧ 0x3C % 4 = 0 ∧ 0x3C < 64 ∧ 0 % 4 = 0 ∧ 0 < 64 := ⟨ready_idle, by decide⟩
theorem witness_ByteLanesAreLittleEndian : 0 < 8 ∧ 7 < 8 := by decide
theorem witness_UnservedAccessesAreRefused :
    Ready idleReady ∧ ((2 : Nat) ≠ 4 ∨ 0 % 4 ≠ 0) ∧ ([1, 2] : List Byte).length = 2 ∧ ((4 : Nat) ≠ 4 ∨ 2 % 4 ≠ 0) ∧
      ([1, 2, 3, 4] : List Byte).length = 4 := ⟨ready_idle, by decide⟩
theorem witness_ReadOnlyWritesAreIgnored :
    Ready idleReady ∧
      (∀ offset ∈ [0x04, 0x10, 0x3C], offset % 4 = 0 ∧ offset < 64 ∧ offset ≠ 0 ∧ offset ≠ 0x08 ∧ offset ≠ 0x0C) :=
  ⟨ready_idle, by decide⟩
/-- 20_memory.md R100: the addresses of the window, its ends, and those beside it. -/
theorem test_register_window (base : Nat) :
    Access.onPort base (.read base 4) = some (.read 0 4) ∧ Access.onPort base (.read (base + 0x3C) 4) = some (.read 0x3C 4) ∧
      Access.onPort base (.read (base + 0x40) 4) = none ∧ (0 < base → Access.onPort base (.read (base - 1) 4) = none) := by
  refine ⟨by simp [Access.onPort], by simp [Access.onPort], by simp [Access.onPort], fun h => ?_⟩
  simp only [Access.onPort]
  rw [if_neg (by omega)]
/-- 20_memory.md R90: trace_kind 0 = TX, 1 = RX; a pad event has no trace_valid. -/
theorem test_trace_port :
    (Event.trace ⟨.tx, 8, 0xA5⟩).tracePort? = some (0, 8, 0xA5) ∧ (Event.trace ⟨.rx, 36, 1⟩).tracePort? = some (1, 36, 1) ∧
      (Event.trace ⟨.rx, 36, 1⟩).traceValid = true ∧ (Event.sleep 250).traceValid = false := by decide
/-- 20_memory.md R97: an attempt on (2, 3) that was cut off after a sample, and then one on (3, 2): its first pulse has no sample, and what
it drives is pad 2. -/
theorem test_wire_view_by_attempt :
    let s : State :=
      { State.reset with
        history := pulseEvents 2 ++ [.rdLvl 3 .low] ++ driveEvents 3 .high ++ driveEvents 2 .low ++ pulseEvents 3,
        attempts := [⟨3, 2, Pad.reset, 5⟩, ⟨2, 3, Pad.reset, 0⟩] }
    s.attemptViews.map (·.2) = [[⟨none, none⟩], [⟨some .low, none⟩]] ∧ s.wireView = [⟨none, none⟩, ⟨some .low, none⟩] := by decide
/-- 20_memory.md R97: "after ENTER, for j = 0": the sample before the ENTER of a second attempt on the pair is not its pulse's. -/
theorem test_enter_drops_sample :
    wireView 2 3 Pad.reset ([.rdLvl 3 .low] ++ driveEvents 2 .high ++ pulseEvents 2) = [⟨none, none⟩] := by decide
/-- 41_protocol_sequencer.md R231: the second attempt of a run is marked after the events of the first. -/
theorem test_attempt_mark :
    (((State.reset.startAttempt 2 3).emit (.sleep 250)).startAttempt 3 2).attempts.map (fun m => (m.clk, m.data, m.start)) =
      [(3, 2, 1), (2, 3, 0)] := by decide
/-- 20_memory.md R90, R93: the level of a sample is that of pad_i at the sampled pad, not of another. -/
theorem test_sample_pad :
    (match rdLvl 3 (inAttempt [⟨false, [], false, [some .high, some .high, some .high, some .low]⟩]) with
      | .go l _ => decide (l = .low)
      | .stop _ => false) = true := by decide
theorem witness_StagingRegistersHoldWhatIsWritten : Ready (inAttempt [Ports.quiet]) := ready_attempt
theorem witness_CommandChecksRunInOrder : Ready (inAttempt [Ports.quiet]) ∧ Ready idleReady := ⟨ready_attempt, ready_idle⟩
/-- The first pin above PIN_COUNT is not in the mask, the last below it is. -/
theorem witness_ConfigureWritesTheConfiguration :
    (State.reset.status.busy = false ∧ ∀ i, State.reset.pinCount ≤ i → (argMask State.reset).getLsbD i = false) ∧
      ∀ i, (State.resetWith 16).pinCount ≤ i →
        (argMask { State.resetWith 16 with staging.argMaskLo := 0x8000 }).getLsbD i = false := by
  refine ⟨⟨rfl, fun i _ => ?_⟩, fun i hi => ?_⟩
  · have h0 : argMask State.reset = 0 := by decide
    rw [h0]
    simp
  · have h0 : argMask { State.resetWith 16 with staging.argMaskLo := 0x8000 } = BitVec.twoPow 64 15 := by decide
    have hi' : 16 ≤ i := hi
    rw [h0, BitVec.getLsbD_twoPow]
    simp
    omega
theorem witness_ConfigureIsRefused :
    (inAttempt []).status.busy = true ∧ (State.resetWith 16).status.busy = false ∧
      (∃ i, (State.resetWith 16).pinCount ≤ i ∧
        (argMask { State.resetWith 16 with staging.argMaskLo := 0x10000 }).getLsbD i = true) :=
  ⟨rfl, rfl, 16, by decide, by decide⟩
theorem witness_ConfigureIsIdempotent :
    ∃ s t u v : State,
      exec (.configure false .normal false true) s = .next t ∧ t.status.err = .ok ∧ u.staging = s.staging ∧
        exec (.configure false .normal false true) u = .next v ∧ v.status.err = .ok ∧ s.status.busy = false ∧ u.status.busy = false ∧
        u.pinCount = s.pinCount := by
  refine ⟨{ State.reset with staging.argMaskLo := 0x1C },
    { State.reset with staging.argMaskLo := 0x1C, config := ⟨0x1C, 5, false, .normal, false, true⟩ },
    { State.reset with staging.argMaskLo := 0x1C, status.matchedAny := true },
    { State.reset with
      staging.argMaskLo := 0x1C, status.matchedAny := true, config := ⟨0x1C, 5, false, .normal, false, true⟩ }, ?_⟩
  refine ⟨?_, rfl, rfl, ?_, rfl, rfl, rfl, rfl⟩ <;> congr 1
theorem witness_ScanIsAcceptedOrBusy : State.reset.status.busy = false ∧ (inAttempt []).status.busy = true := by decide
/-- The last pin below PIN_COUNT, and the first at it. -/
theorem witness_TestPairIsAcceptedOrRefused :
    State.reset.status.busy = false ∧ (inAttempt []).status.busy = true ∧
      ((63 : Pin) ≠ 3 ∧ (63 : Pin).toNat < State.reset.pinCount ∧ (3 : Pin).toNat < State.reset.pinCount) ∧
      (3 : Pin) ≠ 64 ∧ State.reset.pinCount ≤ (64 : Pin).toNat := by decide
theorem witness_PopAcknowledgesTheResult :
    ({ inAttempt [] with status.rvalid := true } : State).status.rvalid = true ∧ State.reset.status.rvalid = false := by decide
theorem witness_CancelMarksARunningCommand : (inAttempt []).status.busy = true ∧ State.reset.status.busy = false := by decide
theorem witness_MaxPinIsHighestBitPlusOne : (0x8000000000000001 : BitVec 64) ≠ 0 ∧ (1 : BitVec 64) ≠ 0 := by decide
theorem witness_HostCannotDisturbAnAttempt :
    ∃ t, (inAttempt []).status.busy = true ∧ (inAttempt []).status.rvalid = false ∧
      serve [.write 0 [5, 0, 0, 0], .write 8 [1, 0, 0, 0], .read 4 4, .write 0 [2, 0, 0, 0]] (inAttempt []) = .next t :=
  ⟨_, by decide, by decide, rfl⟩

/-- The hypotheses that the results of PULSE, DRIVE, RELEASE, WBIT, TURN, LRESET, ENTER and EXIT share. -/
theorem witness_quiet_attempt : Quiet (inAttempt [Ports.quiet, driving .low]).env ∧ PairInRange (inAttempt [Ports.quiet, driving .low]) :=
  ⟨quiet_two, pair_in_range _⟩
theorem witness_PulseResult : Quiet (inAttempt []).env ∧ PairInRange (inAttempt []) := ⟨quiet_nil, pair_in_range _⟩
theorem witness_DriveAndReleaseResults :
    Quiet (inAttempt []).env ∧ PairInRange (inAttempt []) ∧ (3 : Pin).toNat < (inAttempt []).pinCount :=
  ⟨quiet_nil, pair_in_range _, by decide⟩
theorem witness_WriteBitAndTurnResults : Quiet (inAttempt []).env ∧ PairInRange (inAttempt []) := ⟨quiet_nil, pair_in_range _⟩
theorem witness_LineResetResult : Quiet (inAttempt []).env ∧ PairInRange (inAttempt []) := ⟨quiet_nil, pair_in_range _⟩
theorem witness_EnterAndExitResults : Quiet (inAttempt []).env ∧ PairInRange (inAttempt []) := ⟨quiet_nil, pair_in_range _⟩
theorem witness_WriteBitsResult :
    Quiet (inAttempt [Ports.quiet]).env ∧ PairInRange (inAttempt [Ports.quiet]) ∧ (64 : BitVec 7).toNat ≤ 64 ∧ (0 : BitVec 7).toNat ≤ 64 :=
  ⟨by simp [Quiet, inAttempt, Ports.quiet], pair_in_range _, by decide⟩
/-- With the level of the first and of the last sample driven. -/
theorem witness_ReadBitsResult :
    Quiet (inAttempt (lineLevels [.high, .low])).env ∧ PairInRange (inAttempt (lineLevels [.high, .low])) ∧ (2 : BitVec 7).toNat ≤ 64 ∧
      (∀ i ∈ [0, 1], i < (2 : BitVec 7).toNat ∧
        ∃ p l, (inAttempt (lineLevels [.high, .low])).env[1 + 5 * i]? = some p ∧ p.padI 3 = some l) := by
  refine ⟨by simp [Quiet, inAttempt, lineLevels, Ports.quiet, driving], pair_in_range _, by decide, ?_⟩
  intro i hi
  have hl : i = 0 ∨ i = 1 := by simpa using hi
  rcases hl with rfl | rfl
  · exact ⟨by decide, driving .high, .high, rfl, rfl⟩
  · exact ⟨by decide, driving .low, .low, rfl, rfl⟩
theorem witness_SampledLevel :
    (Quiet (inAttempt [driving .low]).env ∧ (3 : Pin).toNat < (inAttempt [driving .low]).pinCount ∧
        (inAttempt [driving .low]).env = [driving .low] ∧ (driving .low).padI 3 = some .low) ∧
      (Quiet (inAttempt []).env ∧ ∀ x ∈ (inAttempt []).env.head?, x.padI 3 = none) :=
  ⟨⟨by simp [Quiet, inAttempt, driving], by decide, rfl, rfl⟩, quiet_nil, by simp [inAttempt]⟩
/-- WBITS 1, 1 and then RBITS 1 with the line High at its sample. -/
theorem witness_LoopbackRoundTrip :
    ∃ (t : State) (events : List Event),
      let s := inAttempt (List.replicate 6 Ports.quiet ++ lineLevels [.high])
      Quiet s.env ∧ PairInRange s ∧ s.cur.clk ≠ s.cur.data ∧ 1 ≤ (1 : BitVec 7).toNat ∧ (1 : BitVec 7).toNat ≤ 36 ∧
        (1 : BitVec 64).toNat < 2 ^ (1 : BitVec 7).toNat ∧ exec (.wbits 1 1) s = .next t ∧ t.history = s.history ++ events ∧
        ∀ j, j < (1 : BitVec 7).toNat → ∃ (p : Ports) (l : Level), t.env[1 + 5 * j]? = some p ∧ p.padI 3 = some l ∧
          (wireView s.cur.clk s.cur.data ⟨.input, .high⟩ events)[j]? = some ⟨some l, none⟩ := by
  refine ⟨_, _, ?_, pair_in_range _, by decide, by decide, by decide, by decide, rfl, rfl, ?_⟩
  · simp [Quiet, inAttempt, lineLevels, Ports.quiet, driving]
  · intro j hj
    have hj0 : j = 0 := by
      have h1 : (1 : BitVec 7).toNat = 1 := by decide
      omega
    subst hj0
    exact ⟨driving .high, .high, by decide, by decide, by decide⟩
theorem witness_WireViewOfMicroOps : (2 : Pin) ≠ 3 := by decide
theorem witness_VerbosityChangesOnlyTheTrace :
    ∃ t u, Instr.isHost (.rbits 1) = false ∧ NoHost (inAttempt [Ports.quiet, driving .low]).env ∧
      exec (.rbits 1) (inAttempt [Ports.quiet, driving .low]) = .next t ∧
      exec (.rbits 1)
          { inAttempt [Ports.quiet, driving .low] with
            config := { (inAttempt [Ports.quiet, driving .low]).config with verbosity := .quiet } } = .next u :=
  ⟨_, _, rfl, fun p hp => (quiet_two p hp).2.1, rfl, rfl⟩
theorem witness_DecodeResult : ∀ p ∈ (inAttempt [failing]).env.head?, p.rst = false ∧ p.host = [] := by
  simp [inAttempt, failing]

/-- A TEST_PAIR whose attempt is to be started. -/
def beginning : State :=
  { State.reset with status.busy := true, seq.cmdKind := .testPair, seq.pos := .begin 2 3, env := [Ports.quiet, driving .low] }

/-- A SCAN of mask 0x1C at this position of its loop. -/
def scanning (pos : ScanPos) (c d : Pin) (cancel : Bool) : State :=
  { State.reset with
    config.mask := 0x1C, config.maxPin := 5, status.busy := true, status.cancelPending := cancel, seq.cmdKind := .scan, seq.pos := pos,
    seq.iterClk := c, seq.iterData := d }

theorem blockTurn_nil {s : State} (h : s.env = []) : BlockTurn s := by simp [BlockTurn, h]

theorem witness_AttemptStart : BlockTurn beginning ∧ beginning.seq.pos = .begin 2 3 :=
  ⟨by simp [BlockTurn, beginning, Ports.quiet], rfl⟩
theorem witness_AttemptPerformsItsProgram :
    beginning.seq.pos = .begin 2 3 ∧ (2 : Pin) ≠ 3 ∧ (2 : Pin).toNat < beginning.pinCount ∧ (3 : Pin).toNat < beginning.pinCount ∧
      Quiet beginning.env := ⟨rfl, by decide, by decide, by decide, quiet_two⟩
theorem witness_AttemptWireView : (2 : Pin) ≠ 3 ∧ (List.replicate 36 Level.high).length = 36 := by decide
theorem witness_AttemptRespectsDirections :
    (2 : Pin) ≠ 63 ∧ (2 : Pin).toNat < (List.replicate 64 Pad.reset).length ∧ (63 : Pin).toNat < (List.replicate 64 Pad.reset).length := by
  decide
/-- The first pair, the pair after the first, and the end of the list after the sixth; without and with a pending cancel. -/
theorem witness_ScanTakesThePairsInOrder :
    ((scanning .first 0 0 false).seq.pos = .first ∧
        (pairs (scanning .first 0 0 false).config.mask (scanning .first 0 0 false).config.maxPin)[0]? = some (2, 3)) ∧
      ((scanning .advance 2 3 true).seq.pos = .advance ∧ (0 < 1) ∧
        (pairs (scanning .advance 2 3 true).config.mask (scanning .advance 2 3 true).config.maxPin)[1 - 1]? = some (2, 3) ∧
        (pairs (scanning .advance 2 3 true).config.mask (scanning .advance 2 3 true).config.maxPin)[1]? = some (2, 4)) ∧
      ((scanning .advance 4 3 false).seq.pos = .advance ∧ (0 < 6) ∧
        (pairs (scanning .advance 4 3 false).config.mask (scanning .advance 4 3 false).config.maxPin)[6 - 1]? = some (4, 3) ∧
        (pairs (scanning .advance 4 3 false).config.mask (scanning .advance 4 3 false).config.maxPin)[6]? = none) ∧
      (scanning .first 0 0 false).config.maxPin = maxPinOf (scanning .first 0 0 false).config.mask := by decide
theorem witness_ScanTakesThePairsInOrder_turn : BlockTurn (scanning .first 0 0 false) ∧ BlockTurn (scanning .advance 2 3 true) :=
  ⟨blockTurn_nil rfl, blockTurn_nil rfl⟩
theorem witness_PublishWritesTheResult :
    BlockTurn (inAttempt []) ∧ (inAttempt []).seq.pos = .attempt ∧ (inAttempt []).seq.prog.length ≤ (inAttempt []).seq.upc.toNat :=
  ⟨blockTurn_nil rfl, rfl, by decide⟩
/-- One state for each clause. -/
theorem witness_WaitForPopAndWhatFollows :
    (BlockTurn { scanning .waitPop 2 3 false with status.rvalid := true } ∧
        ({ scanning .waitPop 2 3 false with status.rvalid := true } : State).seq.pos = .waitPop) ∧
      (BlockTurn { scanning .waitPop 2 3 false with result.matched := true, config.breakOnHit := true } ∧
        (scanning .waitPop 2 3 false).status.rvalid = false ∧ (scanning .waitPop 2 3 false).seq.cmdKind = .scan) ∧
      (BlockTurn (scanning .waitPop 2 3 false) ∧
        ¬((scanning .waitPop 2 3 false).result.matched = true ∧ (scanning .waitPop 2 3 false).config.breakOnHit = true)) ∧
      (BlockTurn { inAttempt [] with seq.pos := .waitPop } ∧ (inAttempt []).status.rvalid = false ∧
        (inAttempt []).seq.cmdKind = .testPair) :=
  ⟨⟨blockTurn_nil rfl, rfl⟩, ⟨blockTurn_nil rfl, rfl, rfl⟩, ⟨blockTurn_nil rfl, by decide⟩, ⟨blockTurn_nil rfl, rfl, rfl⟩⟩
/-- A fault on the first and on the last of the 48 primitives of WBITS 8. -/
theorem witness_WriteBitsFaultIsPrecise :
    ∀ k ∈ [0, 47],
      Quiet ((inAttempt (List.replicate k Ports.quiet ++ [failing])).env.take k) ∧
        (inAttempt (List.replicate k Ports.quiet ++ [failing])).env.drop k = [failing] ∧ failing.rst = false ∧ failing.host = [] ∧
        failing.pinFault = true ∧ Quiet [] ∧ PairInRange (inAttempt (List.replicate k Ports.quiet ++ [failing])) ∧
        (8 : BitVec 7).toNat ≤ 64 ∧ k < 6 * (8 : BitVec 7).toNat := by
  intro k hk
  have hl : k = 0 ∨ k = 47 := by simpa using hk
  have h8 : (8 : BitVec 7).toNat = 8 := by decide
  refine ⟨?_, ?_, rfl, rfl, rfl, quiet_nil, pair_in_range _, by omega, by omega⟩
  · intro p hp
    have hp' : p ∈ List.replicate k Ports.quiet := by simpa [inAttempt, List.take_append] using hp
    rw [List.eq_of_mem_replicate hp']
    exact ⟨rfl, rfl, rfl⟩
  · simp [inAttempt]
theorem witness_FaultEntryDoesNotNest :
    (inAttempt [failing, failing, failing]).env = failing :: failing :: failing :: [] ∧
      (∀ x ∈ [failing, failing, failing], x.rst = false ∧ x.host = [] ∧ x.pinFault = true) ∧
      PairInRange (inAttempt [failing, failing, failing]) ∧
      (inAttempt [failing, failing, failing]).cur.clk ≠ (inAttempt [failing, failing, failing]).cur.data :=
  ⟨rfl, by simp [failing], pair_in_range _, by decide⟩
theorem witness_ReadBitsFaultKeepsSrAndRaw :
    ∃ t, NoReset (inAttempt [Ports.quiet, failing]).env ∧ NoHost (inAttempt [Ports.quiet, failing]).env ∧
      PairInRange (inAttempt [Ports.quiet, failing]) ∧ (inAttempt [Ports.quiet, failing]).status.endCode ≠ .fault ∧
      exec (.rbits 1) (inAttempt [Ports.quiet, failing]) = .next t ∧ t.status.endCode = .fault :=
  ⟨_, by simp [NoReset, inAttempt, Ports.quiet, failing], by simp [NoHost, inAttempt, Ports.quiet, failing], pair_in_range _, by decide,
    rfl, rfl⟩
/-- With a host access and a pad fault to come, and without a pad fault. -/
theorem witness_MicroOpCompletesOrFaults :
    (∃ t, Instr.isHost .turn = false ∧ (inAttempt [⟨false, [.read 4 4], true, []⟩]).status.busy = true ∧
        (inAttempt [⟨false, [.read 4 4], true, []⟩]).status.rvalid = false ∧ NoReset (inAttempt [⟨false, [.read 4 4], true, []⟩]).env ∧
        exec .turn (inAttempt [⟨false, [.read 4 4], true, []⟩]) = .next t) ∧
      ∃ t, NoPinFault (inAttempt [Ports.quiet]).env ∧ exec .turn (inAttempt [Ports.quiet]) = .next t :=
  ⟨⟨_, rfl, rfl, rfl, by simp [NoReset, inAttempt], rfl⟩, _, by simp [NoPinFault, inAttempt, Ports.quiet], rfl⟩

theorem inv_beginning : Inv beginning :=
  ⟨by decide, fun i _ => by simp [beginning, State.reset, State.resetWith, ScanConfig.reset], by decide, by decide, by decide, by decide,
    by decide, by simp [PosInv, beginning, State.pinCount, State.reset, State.resetWith, Current.reset, Status.reset]; decide⟩
theorem padInv_beginning : PadInv beginning := by
  have hp : ∀ (i : Nat) (pad : Pad), beginning.pads[i]? = some pad → pad.dir = .input := by
    intro i pad h
    simp only [beginning, State.reset, State.resetWith, List.getElem?_replicate] at h
    split at h
    · cases h; rfl
    · cases h
  exact ⟨by simp [NoPinFault, beginning, Ports.quiet, driving], fun _ => hp, fun i pad h _ _ => hp i pad h, by decide⟩
theorem witness_StepKeepsTheInvariant : Inv beginning ∧ ∃ t, step beginning = .next t := ⟨inv_beginning, _, rfl⟩
theorem witness_StepKeepsThePadInvariant : Inv beginning ∧ PadInv beginning ∧ ∃ t, step beginning = .next t :=
  ⟨inv_beginning, padInv_beginning, _, rfl⟩
theorem witness_MachineNeverStops : Inv beginning ∧ ServedHost beginning.env :=
  ⟨inv_beginning, by simp [ServedHost, beginning, Ports.quiet, driving]⟩

end Sys2Proof.Tests
end

section
/-! PROOFS. What one step can do, said once, and the invariant of the machine: it holds at reset and every step keeps it. -/

namespace Sys2Proof.Machine

/-! ## What a step can do -/

/-- A bookkeeping step at the block's turn takes one port sample and has its effect. -/
theorem bookkeeping_of_blockTurn {s : State} (h : BlockTurn s) (f : State → State) :
    bookkeeping f s = .next (f { s with env := s.env.drop 1 }) := by
  obtain ⟨pads, config, staging, status, result, cur, seq, env, history, attempts, reads, draws⟩ := s
  cases env with
  | nil => rfl
  | cons p rest =>
    obtain ⟨hr, hh⟩ := h p rfl
    simp [bookkeeping, tick, hr, hh, serve]

/-- Everything a step that completes can have done (60_exceptions.md R305): a reset, the host access that was due, or the block's own
step. -/
theorem step_next_cases {s t : State} (h : step s = .next t) :
    WasReset s t ∨
      (∃ p rest a more, s.env = p :: rest ∧ p.rst = false ∧ p.host = a :: more ∧
        hostAccess a { s with env := { p with host := more } :: rest } = .next t) ∨
      (BlockTurn s ∧ blockStep s = .next t) := by
  unfold step at h
  split at h
  · rename_i he
    exact .inr (.inr ⟨by simp [BlockTurn, he], h⟩)
  · rename_i p rest he
    by_cases hr : p.rst = true
    · rw [if_pos hr] at h
      rcases tick_cases (s := s) rfl with ⟨he', -⟩ | ⟨q, _, _, _, ht⟩ | ⟨q, _, he', hq, _⟩
      · simp [he] at he'
      · rw [bookkeeping, ht] at h
        exact .inl (tick_stop (ht.trans (congrArg Flow.stop h)))
      · obtain ⟨rfl, -⟩ := List.cons.inj (he.symm.trans he')
        simp [hr] at hq
    · rw [if_neg hr] at h
      split at h
      · rename_i hh
        exact .inr (.inr ⟨by simpa [BlockTurn, he, hh] using hr, h⟩)
      · rename_i a more hh
        exact .inr (.inl ⟨p, rest, a, more, he, by simpa using hr, hh, h⟩)

/-- A micro-operation that completes went on to its end, where upc advances, or ended early in that state. -/
theorem finish_next {f : Flow Unit} {t : State} (h : finish f = .next t) :
    (∃ u, f = .go () u ∧ t = { u with seq.upc := u.seq.upc + 1 }) ∨ f = .stop (.next t) := by
  cases f with
  | go _ u => cases h; exact .inl ⟨u, rfl, rfl⟩
  | stop r => exact .inr (congrArg Flow.stop h)

/-! ## The pairs of a scan -/

theorem mem_candidates {mask : BitVec 64} {maxPin : BitVec 8} {c : Nat} (h : c ∈ candidates mask maxPin) :
    c < 256 ∧ mask.getLsbD c = true := by
  obtain ⟨hc, hm⟩ := List.mem_filter.1 h
  exact ⟨(List.mem_range.1 hc).trans maxPin.isLt, hm⟩

/-- A pair of a scan is two different pins of the mask (42_scanner_commands.md R260). -/
theorem mem_pairs {mask : BitVec 64} {maxPin : BitVec 8} {c d : Pin} (h : (c, d) ∈ pairs mask maxPin) :
    c ≠ d ∧ mask.getLsbD c.toNat = true ∧ mask.getLsbD d.toNat = true := by
  obtain ⟨i, hi, h⟩ := List.mem_flatMap.1 h
  obtain ⟨j, hj, e⟩ := List.mem_map.1 h
  obtain ⟨hj, hne⟩ := List.mem_filter.1 hj
  obtain ⟨hi256, hi⟩ := mem_candidates hi
  obtain ⟨hj256, hj⟩ := mem_candidates hj
  obtain ⟨rfl, rfl⟩ := Prod.mk.inj e
  have ei : (BitVec.ofNat 8 i).toNat = i := Nat.mod_eq_of_lt hi256
  have ej : (BitVec.ofNat 8 j).toNat = j := Nat.mod_eq_of_lt hj256
  refine ⟨fun e => ?_, by rwa [ei], by rwa [ej]⟩
  have : j = i := by rw [← ej, ← e, ei]
  simp [this] at hne

theorem nextPair_mem {s : State} {q : Pin × Pin} (h : nextPair s = some q) : q ∈ pairs s.config.mask s.config.maxPin := by
  unfold nextPair at h
  split at h
  · exact List.mem_of_mem_head? h
  · exact List.mem_of_find?_eq_some h

/-! ## The invariant at each position -/

theorem posInv_idle {s : State} (h : s.seq.pos = .idle) :
    PosInv s ↔ s.status.busy = false ∧ s.seq.cmdKind = .none ∧ s.cur.active = false ∧ s.status.rvalid = false := by
  simp [PosInv, h]

theorem posInv_scanning {s : State} (h : s.seq.pos = .first ∨ s.seq.pos = .advance) :
    PosInv s ↔ s.status.busy = true ∧ s.seq.cmdKind = .scan ∧ s.cur.active = false ∧ s.status.rvalid = false := by
  rcases h with h | h <;> simp [PosInv, h]

theorem posInv_begin {s : State} {c d : Pin} (h : s.seq.pos = .begin c d) :
    PosInv s ↔ s.status.busy = true ∧ s.seq.cmdKind ≠ .none ∧ s.cur.active = false ∧ s.status.rvalid = false ∧
      c ≠ d ∧ c.toNat < s.pinCount ∧ d.toNat < s.pinCount := by
  simp [PosInv, h]

theorem posInv_attempt {s : State} (h : s.seq.pos = .attempt) :
    PosInv s ↔ s.status.busy = true ∧ s.seq.cmdKind ≠ .none ∧ s.status.rvalid = false ∧ s.cur.clk ≠ s.cur.data ∧
      PairInRange s ∧ s.seq.prog = program s.config.idleSel s.config.dormantWake ∧ s.seq.upc.toNat ≤ s.seq.prog.length ∧
      (s.cur.active = true ↔ 0 < s.seq.upc.toNat ∧ s.seq.upc.toNat < s.seq.prog.length) := by
  simp [PosInv, h]

theorem posInv_waitPop {s : State} (h : s.seq.pos = .waitPop) :
    PosInv s ↔ s.status.busy = true ∧ s.seq.cmdKind ≠ .none ∧ s.cur.active = false := by
  simp [PosInv, h]

/-- With no command running the position is `idle`. -/
theorem Inv.pos_of_not_busy {s : State} (h : Inv s) (hb : s.status.busy = false) : s.seq.pos = .idle := by
  have hp := h.pos
  cases hpos : s.seq.pos <;> simp_all [PosInv]

/-- A pending result is one that waits for POP (42_scanner_commands.md R271). -/
theorem Inv.pos_of_rvalid {s : State} (h : Inv s) (hr : s.status.rvalid = true) : s.seq.pos = .waitPop := by
  have hp := h.pos
  cases hpos : s.seq.pos <;> simp_all [PosInv]

/-- A pin of the mask is a pad of the block (10_state.md R42). -/
theorem Inv.lt_pinCount {s : State} (h : Inv s) {i : Nat} (hi : s.config.mask.getLsbD i = true) : i < s.pinCount := by
  by_contra hlt
  simp [h.maskInRange i (Nat.not_lt.1 hlt)] at hi

/-! ## Updates that keep the invariant -/

/-- The invariant does not speak of the staging registers, ERR, the results, STAGE, the pair last taken, the inputs and the
observations. -/
theorem Inv.of_frame {s t : State} (h : Inv s)
    (e : t = { s with
          staging := t.staging, status := { s.status with err := t.status.err }, result := t.result,
          cur := { s.cur with stage := t.cur.stage }, seq := { s.seq with iterClk := t.seq.iterClk, iterData := t.seq.iterData },
          env := t.env, history := t.history, attempts := t.attempts, reads := t.reads, draws := t.draws }) : Inv t := by
  rw [e]
  exact ⟨h.pinCount, h.maskInRange, h.maxPin, h.cancel, h.running, h.bitCnt, h.pcnt, h.pos⟩

/-- Ending a command outside an attempt, with no result pending. -/
theorem Inv.endCommand {s : State} (h : Inv s) (ha : s.cur.active = false) (hr : s.status.rvalid = false) (code : EndCode) :
    Inv (s.endCommand code) :=
  ⟨h.pinCount, h.maskInRange, h.maxPin, nofun, nofun, h.bitCnt, h.pcnt, (posInv_idle rfl).2 ⟨rfl, rfl, ha, hr⟩⟩

/-- Accepting a command at a position that the new state agrees with. -/
theorem Inv.acceptRun {s : State} (h : Inv s) {kind : CmdKind} {pos : ScanPos} (hp : PosInv (s.acceptRun kind pos)) :
    Inv (s.acceptRun kind pos) :=
  ⟨h.pinCount, h.maskInRange, h.maxPin, nofun, fun _ => rfl, h.bitCnt, h.pcnt, hp⟩

theorem Inv.takePair {s : State} (h : Inv s) (hpos : s.seq.pos = .first ∨ s.seq.pos = .advance) : Inv s.takePair := by
  obtain ⟨hb, hk, ha, hr⟩ := (posInv_scanning hpos).1 h.pos
  unfold State.takePair
  split
  · exact h.endCommand ha hr .complete
  · rename_i c d hq
    dsimp only
    split
    · exact Inv.endCommand (s := { s with seq.iterClk := c, seq.iterData := d }) (h.of_frame rfl) ha hr .cancelled
    · obtain ⟨hne, hc, hd⟩ := mem_pairs (nextPair_mem hq)
      exact ⟨h.pinCount, h.maskInRange, h.maxPin, h.cancel, h.running, h.bitCnt, h.pcnt,
        (posInv_begin rfl).2 ⟨hb, by simp [hk], ha, hr, hne, h.lt_pinCount hc, h.lt_pinCount hd⟩⟩

theorem Inv.startAttempt {s : State} (h : Inv s) {c d : Pin} (hpos : s.seq.pos = .begin c d) : Inv (s.startAttempt c d) := by
  obtain ⟨hb, hk, ha, hr, hne, hc, hd⟩ := (posInv_begin hpos).1 h.pos
  exact ⟨h.pinCount, h.maskInRange, h.maxPin, h.cancel, h.running, h.bitCnt, h.pcnt,
    (posInv_attempt rfl).2 ⟨hb, hk, hr, hne, ⟨hc, hd⟩, rfl, Nat.zero_le _, by simp [ha]⟩⟩

/-- The publish after the last row of the program, which has cleared ACTIVE. -/
theorem Inv.publish {s : State} (h : Inv s) (hpos : s.seq.pos = .attempt) (hend : s.seq.prog.length ≤ s.seq.upc.toNat)
    (res : ScanResult) : Inv (s.publish res) := by
  obtain ⟨hb, hk, -, -, -, -, -, ha⟩ := (posInv_attempt hpos).1 h.pos
  have ha : s.cur.active = false := by
    simpa [Nat.not_lt.2 hend] using ha
  exact ⟨h.pinCount, h.maskInRange, h.maxPin, h.cancel, h.running, h.bitCnt, h.pcnt, (posInv_waitPop rfl).2 ⟨hb, hk, ha⟩⟩

theorem Inv.waitForPop {s : State} (h : Inv s) (hpos : s.seq.pos = .waitPop) : Inv s.waitForPop := by
  obtain ⟨hb, hk, ha⟩ := (posInv_waitPop hpos).1 h.pos
  unfold State.waitForPop
  split
  · exact h
  · rename_i hr
    have hr : s.status.rvalid = false := by simpa using hr
    split
    · rename_i hscan
      split
      · exact h.endCommand ha hr .hit
      · exact ⟨h.pinCount, h.maskInRange, h.maxPin, h.cancel, h.running, h.bitCnt, h.pcnt,
          (posInv_scanning (.inr rfl)).2 ⟨hb, hscan, ha, hr⟩⟩
    · exact h.endCommand ha hr .complete
    · exact h.endCommand ha hr .complete

/-! ## Host accesses -/

theorem Inv.hostCommand {s t : State} {i : Instr} (h : Inv s) (hi : i.isHost = true) (e : hostCommand i s = .next t) : Inv t := by
  rcases hostCommand_cases (s := s) hi with
    ⟨_, h'⟩ | ⟨cfg, hb, hmask, hm, hmax, h'⟩ | ⟨hb, h'⟩ | ⟨c, d, hb, hne, hc, hd, h'⟩ | ⟨hr, h'⟩ | h'
  all_goals
    rw [h'] at e
    cases e
  case inl => exact h.of_frame rfl
  case inr.inl =>
    have hpos := h.pos_of_not_busy hb
    exact ⟨h.pinCount, fun j hj => by simpa only [hm] using hmask j hj, by simp only [hm, hmax], h.cancel, h.running, h.bitCnt,
      h.pcnt, (posInv_idle (by exact hpos)).2 ((posInv_idle hpos).1 h.pos)⟩
  case inr.inr.inl =>
    obtain ⟨-, -, ha, -⟩ := (posInv_idle (h.pos_of_not_busy hb)).1 h.pos
    exact h.acceptRun ((posInv_scanning (.inl rfl)).2 ⟨rfl, rfl, ha, rfl⟩)
  case inr.inr.inr.inl =>
    obtain ⟨-, -, ha, -⟩ := (posInv_idle (h.pos_of_not_busy hb)).1 h.pos
    exact h.acceptRun ((posInv_begin rfl).2 ⟨rfl, nofun, ha, rfl, hne, hc, hd⟩)
  case inr.inr.inr.inr.inl =>
    have hpos := h.pos_of_rvalid hr
    exact ⟨h.pinCount, h.maskInRange, h.maxPin, h.cancel, h.running, h.bitCnt, h.pcnt,
      (posInv_waitPop (by exact hpos)).2 ((posInv_waitPop hpos).1 h.pos)⟩
  case inr.inr.inr.inr.inr =>
    refine ⟨h.pinCount, h.maskInRange, h.maxPin, fun hc => ?_, h.running, h.bitCnt, h.pcnt, h.pos⟩
    exact (Bool.or_eq_true_iff.1 hc).elim h.cancel id

theorem Inv.hostAccess {s t : State} {a : Access} (h : Inv s) (e : hostAccess a s = .next t) : Inv t := by
  cases a with
  | read offset width =>
    simp only [Machine.hostAccess] at e
    split at e
    · cases e
    · cases e
      exact h.of_frame rfl
  | write offset lanes =>
    simp only [Machine.hostAccess] at e
    split at e
    · cases e
    · unfold writeWord at e
      split at e
      · rcases writeCmd_cases e with ⟨-, e⟩ | ⟨-, e⟩ | ⟨i, hd, e⟩
        · cases e
          exact h.of_frame rfl
        · cases e
          exact h.of_frame rfl
        · exact h.hostCommand (isHost_of_decodeHost hd) e.symm
      all_goals
        cases e
        exact h.of_frame rfl

/-! ## Resets and micro-operations -/

/-- The block after reset meets the invariant for every legal PIN_COUNT (00_scope.md R9). -/
theorem inv_resetWith {n : Nat} (h : 2 ≤ n ∧ n ≤ 64) : Inv (State.resetWith n) where
  pinCount := by simpa [State.pinCount, State.resetWith] using h
  maskInRange := fun _ _ => BitVec.getLsbD_zero
  maxPin := (by decide : (0 : BitVec 8) = maxPinOf 0)
  cancel := nofun
  running := nofun
  bitCnt := Nat.zero_le _
  pcnt := Nat.zero_le _
  pos := (posInv_idle rfl).2 ⟨rfl, rfl, rfl, rfl⟩

theorem Inv.wasReset {s t : State} (h : Inv s) (k : WasReset s t) : Inv t := by
  refine (inv_resetWith h.pinCount).of_frame ?_
  rw [k.state]

/-- The fault entry ends the command (60_exceptions.md R307). -/
theorem Inv.faulted {s t : State} (h : Inv s) (k : Faulted s t) : Inv t where
  pinCount := by simpa only [State.pinCount, k.length] using h.pinCount
  maskInRange := by simpa only [State.pinCount, k.length, k.config] using h.maskInRange
  maxPin := by simpa only [k.config] using h.maxPin
  cancel := by simp [k.cancelPending]
  running := by simp [k.busy]
  bitCnt := k.bitCnt h.bitCnt
  pcnt := k.pcnt h.pcnt
  pos := (posInv_idle k.pos).2 ⟨k.busy, k.cmdKind, k.active, k.rvalid⟩

/-- ACTIVE before the row at upc and after it: ENTER, the first row, sets it and EXIT, the last row, clears it. -/
theorem activeAfter_iff {i : Instr} {a : Bool} {upc len : Nat} (henter : i = .enter ↔ upc = 0) (hexit : i = .exit ↔ upc + 1 = len)
    (hlt : upc < len) (ha : a = true ↔ 0 < upc ∧ upc < len) : activeAfter i a = true ↔ upc + 1 < len := by
  unfold activeAfter
  split
  · rename_i hi
    have hx : i ≠ .exit := by simp [hi]
    have := mt hexit.2 hx
    simp only [true_iff]
    omega
  · rename_i hi
    have := mt henter.2 hi
    split
    · rename_i hx
      have := hexit.1 hx
      simp only [Bool.false_eq_true, false_iff]
      omega
    · rename_i hx
      have := mt hexit.2 hx
      rw [ha]
      omega

/-- A row of the program that goes on to its end. -/
theorem Inv.rowDone {s u : State} {i : Instr} (h : Inv s) (hpos : s.seq.pos = .attempt) (hlt : s.seq.upc.toNat < s.seq.prog.length)
    (henter : i = .enter ↔ s.seq.upc.toNat = 0) (hexit : i = .exit ↔ s.seq.upc.toNat + 1 = s.seq.prog.length)
    (g : Going s { u with cur.active := s.cur.active }) (hact : u.cur.active = activeAfter i s.cur.active) :
    Inv { u with seq.upc := u.seq.upc + 1 } := by
  obtain ⟨hb, hk, hr, hne, hpair, hprog, hupc, ha⟩ := (posInv_attempt hpos).1 h.pos
  have hlen : s.seq.prog.length ≤ 21 := by
    rw [hprog, length_program]
    split <;> omega
  have hsucc : (u.seq.upc + 1).toNat = s.seq.upc.toNat + 1 := by
    have hupc' : u.seq.upc = s.seq.upc := g.upc
    rw [hupc']
    bv_omega
  have hconfig : u.config = s.config := g.config
  have hlength : u.pads.length = s.pads.length := g.length
  have huprog : u.seq.prog = s.seq.prog := g.prog
  refine ⟨?_, ?_, ?_, fun _ => g.busy, fun _ => g.endCode.trans (h.running hb), g.bitCnt h.bitCnt, g.pcnt h.pcnt, ?_⟩
  · simpa only [State.pinCount, hlength] using h.pinCount
  · simpa only [State.pinCount, hlength, hconfig] using h.maskInRange
  · simpa only [hconfig] using h.maxPin
  · refine (posInv_attempt (by exact g.pos.trans hpos)).2 ⟨g.busy, ?_, g.rvalid, ?_, g.pairInRange hpair, ?_, ?_, ?_⟩
    · exact fun e => hk (g.cmdKind.symm.trans e)
    · exact fun e => hne (g.clk.symm.trans (e.trans g.data))
    · simpa only [huprog, hconfig] using hprog
    · simp only [hsucc, huprog]
      omega
    · simp only [hsucc, huprog, hact, Nat.succ_pos, true_and]
      exact activeAfter_iff henter hexit hlt ha

/-- The micro-operation of a row of the program, whatever inputs come during it. -/
theorem Inv.execRow {s t : State} {i : Instr} (h : Inv s) (hpos : s.seq.pos = .attempt) (hlt : s.seq.upc.toNat < s.seq.prog.length)
    (hi : i.isHost = false) (henter : i = .enter ↔ s.seq.upc.toNat = 0) (hexit : i = .exit ↔ s.seq.upc.toNat + 1 = s.seq.prog.length)
    (e : exec i s = .next t) : Inv t := by
  obtain ⟨hb, -, hr, -⟩ := (posInv_attempt hpos).1 h.pos
  rcases exec_runs i s hi ⟨hb, hr⟩ with ⟨-, hx⟩ | ⟨f, hf, hgo, hstop, -⟩
  · rw [hx] at e
    cases e
  · rcases finish_next (hf.symm.trans e) with ⟨u, hu, rfl⟩ | hs
    · obtain ⟨g, hact⟩ := hgo u hu
      exact h.rowDone hpos hlt henter hexit g hact
    · exact (hstop t hs).elim h.faulted h.wasReset

theorem Inv.attemptStep {s t : State} (h : Inv s) (hturn : BlockTurn s) (hpos : s.seq.pos = .attempt)
    (e : attemptStep s = .next t) : Inv t := by
  obtain ⟨-, -, -, -, -, hprog, -⟩ := (posInv_attempt hpos).1 h.pos
  by_cases hlt : s.seq.upc.toNat < s.seq.prog.length
  · obtain ⟨row, i, hrow, hdec, hi, -, henter, hexit⟩ := program_row _ _ _ (hprog ▸ hlt)
    rw [← hprog] at hrow hexit
    simp only [Machine.attemptStep, hrow, hdec] at e
    exact Inv.execRow (h.of_frame rfl : Inv { s with cur.stage := row.stage }) hpos hlt hi henter hexit e
  · have hnone : s.seq.prog[s.seq.upc.toNat]? = none := List.getElem?_eq_none (Nat.not_lt.1 hlt)
    simp only [Machine.attemptStep, hnone, bookkeeping_of_blockTurn hturn] at e
    cases e
    exact Inv.publish (s := { s with env := s.env.drop 1 }) (h.of_frame rfl) hpos (Nat.not_lt.1 hlt) _

/-- The block's own step, one case per position of the command. -/
theorem Inv.blockStep {s t : State} (h : Inv s) (hturn : BlockTurn s) (e : blockStep s = .next t) : Inv t := by
  have h1 : Inv { s with env := s.env.drop 1 } := h.of_frame rfl
  cases hpos : s.seq.pos <;> simp only [Machine.blockStep, hpos] at e
  case attempt => exact h.attemptStep hturn hpos e
  all_goals
    rw [bookkeeping_of_blockTurn hturn] at e
    cases e
  case idle => exact h1
  case first => exact h1.takePair (.inl hpos)
  case advance => exact h1.takePair (.inr hpos)
  case begin c d => exact h1.startAttempt hpos
  case waitPop => exact h1.waitForPop hpos

/-- Settles O58: a step is a reset, a host access or the block's own step, and each keeps the invariant. -/
theorem stepKeepsTheInvariant : Obligations.StepKeepsTheInvariant := by
  intro s t h e
  rcases step_next_cases e with hreset | ⟨p, rest, a, more, -, -, -, haccess⟩ | ⟨hturn, hblock⟩
  · exact h.wasReset hreset
  · exact Inv.hostAccess (h.of_frame rfl : Inv { s with env := { p with host := more } :: rest }) haccess
  · exact h.blockStep hturn hblock

/-! ## Reads and reset -/

/-- The window serves an aligned 32-bit access at an offset inside it (20_memory.md R101). -/
theorem accessRefusal_of_aligned {offset : Nat} (ha : offset % 4 = 0) (h : offset < 0x40) : accessRefusal offset 4 = none := by
  simp [accessRefusal, ha, h]

/-- Settles O12: the read that is due is the next step, and the window serves it. -/
theorem readsHaveNoSideEffect : Obligations.ReadsHaveNoSideEffect := by
  intro s offset hready ha h
  refine ⟨regRead_window h, ?_⟩
  rw [step_withAccess hready]
  simp only [hostAccess, accessRefusal_of_aligned ha h]

/-- After reset every pad is released (10_state.md R32). -/
theorem dir_of_resetWith {n i : Nat} {pad : Pad} (h : (State.resetWith n).pads[i]? = some pad) : pad.dir = .input := by
  obtain rfl : pad = Pad.reset := List.eq_of_mem_replicate (List.mem_of_getElem? h)
  rfl

theorem padInv_resetWith (n : Nat) : PadInv (State.resetWith n) where
  noPinFault := nofun
  released := fun _ _ _ => dir_of_resetWith
  others := fun _ _ h _ _ => dir_of_resetWith h
  clock := nofun

/-- Settles O57: the default PIN_COUNT is a legal one. -/
theorem invariantsHoldAtReset : Obligations.InvariantsHoldAtReset :=
  ⟨inv_resetWith (by decide), padInv_resetWith _⟩

end Sys2Proof.Machine
end

section
/-! PROOFS. Micro-operations of a running attempt complete or end in the fault entry, and without pad faults every step keeps the
invariant of the pads. -/

namespace Sys2Proof.Machine

/-! ## The flow of a micro-operation -/

/-- The flow that `finish` completes for a micro-operation; that of a host command, or of an illegal micro-operation, stops with its outcome. -/
def microFlow (s : State) : Instr → Flow Unit
  | .pulse => pulseClock s.cur.clk s
  | .drive b => driveLine s.cur.data b s
  | .release => releaseLine s.cur.data s
  | .wbit b => writeBit s.cur.clk s.cur.data b s
  | .wbits n v => if bitCountOk n then writeBits n v s else .stop (.refused .illegalMicroOp)
  | .rbits n => if bitCountOk n then readBits n s else .stop (.refused .illegalMicroOp)
  | .turn => turnaround s
  | .lreset => resetLine s
  | .enter => driveLine s.cur.clk .high { s with cur.active := true, cur.stage := .lineReset }
  | .exit =>
    (setDir s.cur.data .input { s with cur.stage := .exit }).andThen fun _ s1 =>
      (setDir s.cur.clk .input s1).andThen fun _ s2 => .go () { s2 with cur.active := false, cur.stage := .none }
  | .decode =>
    (tick { s with cur.stage := .decodeMatch }).andThen fun _ s1 => .go () { s1 with seq.matchReg := matchOf s1.seq.rawReg }
  | .configure boh verb dorm idle => .stop (execConfigure boh verb dorm idle s)
  | .scan => .stop (execScan s)
  | .testPair c d => .stop (execTestPair c d s)
  | .pop => .stop (execPop s)
  | .cancel => .stop (execCancel s)

/-- `microFlow` is what `exec` runs. -/
theorem exec_eq_finish (i : Instr) (s : State) : exec i s = finish (microFlow s i) := by
  cases i
  case wbits n v => by_cases h : bitCountOk n = true <;> simp [exec, execWbits, microFlow, h]
  case rbits n => by_cases h : bitCountOk n = true <;> simp [exec, execRbits, microFlow, h]
  all_goals rfl

/-- A flow that ends early in a next state, by a reset or in the fault entry, leaves no command running. -/
structure EndsIdle {α : Type} (f : Flow α) : Prop where
  not_busy : ∀ t, f = .stop (.next t) → t.status.busy = false

theorem EndsIdle.go {α : Type} (a : α) (s : State) : EndsIdle (.go a s) := ⟨fun _ e => by cases e⟩

theorem EndsIdle.fault {α : Type} (x : Fault) : EndsIdle (.stop (.fault x) : Flow α) := ⟨fun _ e => by cases e⟩

theorem EndsIdle.refused {α : Type} (x : Refusal) : EndsIdle (.stop (.refused x) : Flow α) := ⟨fun _ e => by cases e⟩

theorem EndsIdle.andThen {α β : Type} {f : Flow α} {k : α → State → Flow β} (h : EndsIdle f) (hk : ∀ a s, EndsIdle (k a s)) :
    EndsIdle (f.andThen k) := by
  refine ⟨fun t e => ?_⟩
  rcases Flow.andThen_stop e with hf | ⟨a, s, -, hk'⟩
  · exact h.not_busy t hf
  · exact (hk a s).not_busy t hk'

theorem WasReset.not_busy {s t : State} (h : WasReset s t) : t.status.busy = false := by
  rw [h.state]
  rfl

theorem tick_endsIdle (s : State) : EndsIdle (tick s) := ⟨fun _ e => (tick_stop e).not_busy⟩

theorem bestEffortRelease_endsIdle (p : Pin) (s : State) : EndsIdle (bestEffortRelease p s) := by
  refine (tick_endsIdle s).andThen fun ports s1 => ?_
  split
  · exact .fault _
  · split <;> exact .go _ _

theorem faultEntry_not_busy {s t : State} (h : faultEntry s = .next t) : t.status.busy = false := by
  rcases faultEntry_cases h with h | ⟨s1, -, h | ⟨s2, -, h⟩⟩
  · exact (bestEffortRelease_endsIdle _ _).not_busy t h
  · exact (bestEffortRelease_endsIdle _ _).not_busy t h
  · cases h
    rfl

theorem primitive_endsIdle {α : Type} (pad : Option Pin) (effect : Ports → State → α × State) (failed : State → State)
    (s : State) : EndsIdle (primitive pad effect failed s) := by
  refine (tick_endsIdle s).andThen fun ports s1 => ?_
  split
  · exact .fault _
  · split
    · exact ⟨fun t e => faultEntry_not_busy (Flow.stop.inj e)⟩
    · exact .go _ _

theorem pulseClock_endsIdle (clk : Pin) (s : State) : EndsIdle (pulseClock clk s) :=
  (primitive_endsIdle ..).andThen fun _ _ => (primitive_endsIdle ..).andThen fun _ _ =>
    (primitive_endsIdle ..).andThen fun _ _ => primitive_endsIdle ..

theorem driveLine_endsIdle (p : Pin) (l : Level) (s : State) : EndsIdle (driveLine p l s) :=
  (primitive_endsIdle ..).andThen fun _ _ => primitive_endsIdle ..

theorem writeBit_endsIdle (clk data : Pin) (b : Level) (s : State) : EndsIdle (writeBit clk data b s) :=
  (driveLine_endsIdle ..).andThen fun _ _ => pulseClock_endsIdle ..

theorem writeLoop_endsIdle (clk data : Pin) (v : BitVec 64) (k : Nat) : ∀ i s, EndsIdle (writeLoop clk data v k i s) := by
  induction k with
  | zero => exact fun _ _ => .go _ _
  | succ k ih => exact fun _ _ => (writeBit_endsIdle ..).andThen fun _ _ => ih _ _

theorem readLoop_endsIdle (clk data : Pin) (k : Nat) : ∀ i r s, EndsIdle (readLoop clk data k i r s) := by
  induction k with
  | zero => exact fun _ _ _ => .go _ _
  | succ k ih =>
    exact fun _ _ _ => (primitive_endsIdle ..).andThen fun _ _ => (pulseClock_endsIdle ..).andThen fun _ _ => ih _ _ _

theorem pulseLoop_endsIdle (clk : Pin) (k : Nat) : ∀ i s, EndsIdle (pulseLoop clk k i s) := by
  induction k with
  | zero => exact fun _ _ => .go _ _
  | succ k ih => exact fun _ _ => (pulseClock_endsIdle ..).andThen fun _ _ => ih _ _

theorem microFlow_endsIdle {i : Instr} (hi : i.isHost = false) (s : State) : EndsIdle (microFlow s i) := by
  cases i <;> simp only [Instr.isHost, Bool.true_eq_false] at hi
  case pulse => exact pulseClock_endsIdle ..
  case drive => exact driveLine_endsIdle ..
  case release => exact primitive_endsIdle ..
  case wbit => exact writeBit_endsIdle ..
  case wbits =>
    simp only [microFlow]
    split
    · exact (writeLoop_endsIdle ..).andThen fun _ _ => .go _ _
    · exact .refused _
  case rbits =>
    simp only [microFlow]
    split
    · exact (primitive_endsIdle ..).andThen fun _ _ => (readLoop_endsIdle ..).andThen fun _ _ =>
        (driveLine_endsIdle ..).andThen fun _ _ => .go _ _
    · exact .refused _
  case turn => exact (primitive_endsIdle ..).andThen fun _ _ => pulseClock_endsIdle ..
  case lreset => exact (driveLine_endsIdle ..).andThen fun _ _ => pulseLoop_endsIdle ..
  case enter => exact driveLine_endsIdle ..
  case exit => exact (primitive_endsIdle ..).andThen fun _ _ => (primitive_endsIdle ..).andThen fun _ _ => .go _ _
  case decode => exact (tick_endsIdle _).andThen fun _ _ => .go _ _

/-- A micro-operation after which the command still runs has gone on to its end. -/
theorem microFlow_of_busy {i : Instr} {s t : State} (hi : i.isHost = false) (hb : t.status.busy = true) (e : exec i s = .next t) :
    ∃ u, microFlow s i = .go () u ∧ t = { u with seq.upc := u.seq.upc + 1 } := by
  rw [exec_eq_finish] at e
  rcases finish_next e with h | h
  · exact h
  · simp [(microFlow_endsIdle hi s).not_busy t h] at hb

/-- States that are equal once upc has advanced were equal before. -/
theorem eq_of_advance {u w : State} (h : { u with seq.upc := u.seq.upc + 1 } = { w with seq.upc := w.seq.upc + 1 }) : u = w := by
  obtain ⟨_, _, _, _, _, _, ⟨⟩⟩ := u
  obtain ⟨_, _, _, _, _, _, ⟨⟩⟩ := w
  simpa using h

/-! ## Micro-operations of a running attempt -/

/-- Everything a micro-operation of a running attempt that completes a step can have done: gone on to its end, ended in the fault
entry, or been cut off by a reset. -/
theorem exec_next_cases {i : Instr} {s t : State} (hi : i.isHost = false) (h : Run s) (e : exec i s = .next t) :
    (∃ u, microFlow s i = .go () u ∧ t = { u with seq.upc := u.seq.upc + 1 } ∧ Going s { u with cur.active := s.cur.active } ∧
        u.cur.active = activeAfter i s.cur.active) ∨
      Faulted s t ∨ WasReset s t := by
  rcases exec_runs i s hi h with ⟨-, hx⟩ | ⟨f, hf, hgo, hstop, -⟩
  · cases hx.symm.trans e
  · rcases finish_next (hf.symm.trans e) with ⟨u, hu, rfl⟩ | hs
    · have g := hgo u hu
      obtain ⟨w, hw, huw⟩ := microFlow_of_busy hi (by exact g.1.busy) e
      obtain rfl := eq_of_advance huw
      exact .inl ⟨u, hw, rfl, g⟩
    · exact .inr (hstop t hs)

/-- Settles O56: without a reset a micro-operation goes on to its end or ends in the fault entry, which needs a pad fault. -/
theorem microOpCompletesOrFaults : Obligations.MicroOpCompletesOrFaults := by
  intro i s t hi hb hr hreset e
  rcases exec_next_cases hi ⟨hb, hr⟩ e with ⟨u, -, rfl, g, -⟩ | k | k
  · have hupc : u.seq.upc + 1 = s.seq.upc + 1 := congrArg (· + 1) g.upc
    exact ⟨⟨g.config, g.result, g.clk, g.data, g.prog, g.iterClk, g.iterData, g.rvalid, g.matchedAny, g.length, g.attempts, g.history,
      g.pads⟩, .inl ⟨g.busy, hupc, g.pos, g.cmdKind, g.endCode⟩, fun _ => g.busy⟩
  · exact ⟨⟨k.config, k.result, k.clk, k.data, k.prog, k.iterClk, k.iterData, k.rvalid, k.matchedAny, k.length, k.attempts, k.history,
      k.pads⟩, .inr ⟨k.busy, k.err, k.endCode, k.cancelPending, k.active, k.pos, k.cmdKind, k.upc, k.last⟩,
      fun hn => absurd hn k.pinFault⟩
  · exact absurd hreset k.reset

/-! ## The clock pad rests High between micro-operations -/

theorem setDir_atRest {s t : State} {clk data : Pin} {d : Dir} {u : Unit} (hcd : clk ≠ data) (h : Run s) (hq : AtRest clk s.pads)
    (e : setDir data d s = .go u t) : AtRest clk t.pads := by
  rw [setDir_pads h e]
  exact hq.other hcd _

theorem driveLine_atRest {s t : State} {clk : Pin} {b : Level} {u : Unit} (hcd : clk ≠ s.cur.data) (h : Run s) (hq : AtRest clk s.pads)
    (e : driveLine s.cur.data b s = .go u t) : AtRest clk t.pads := by
  rw [driveLine_pads (.inr rfl) h e]
  exact hq.other hcd _

/-- ENTER drives the clock pad High (41_protocol_sequencer.md R212). -/
theorem enter_atRest {s t : State} {u : Unit} (h : Run s) (hc : s.cur.clk.toNat < s.pads.length)
    (e : driveLine s.cur.clk .high s = .go u t) : AtRest s.cur.clk t.pads := by
  rw [driveLine_pads (.inl rfl) h e]
  simp [AtRest, hc]

theorem writeBits_atRest {s t : State} {n : BitVec 7} {v : BitVec 64} {u : Unit} (hcd : s.cur.clk ≠ s.cur.data) (h : Run s)
    (hq : AtRest s.cur.clk s.pads) (e : writeBits n v s = .go u t) : AtRest s.cur.clk t.pads := by
  obtain ⟨_, s1, e1, e⟩ := Flow.andThen_go e
  cases e
  rw [emitTrace_pads]
  exact writeLoop_atRest hcd _ _ _ _ _ _ (by exact h) (by rfl) (by rfl) (by exact hq) e1

theorem readBits_atRest {s t : State} {n : BitVec 7} {u : Unit} (hn : n.toNat ≤ 64) (hcd : s.cur.clk ≠ s.cur.data) (h : Run s)
    (hq : AtRest s.cur.clk s.pads) (e : readBits n s = .go u t) : AtRest s.cur.clk t.pads := by
  obtain ⟨_, s1, e1, e⟩ := Flow.andThen_go e
  obtain ⟨_, s2, e2, e⟩ := Flow.andThen_go e
  obtain ⟨_, s3, e3, e⟩ := Flow.andThen_go e
  cases e
  have g1 := (setDir_runs (by exact h) _ (.inr rfl) _).1 _ _ e1
  have g2 := (readLoop_runs _ _ _ _ _ _ (by omega) (g1.run h) g1.clk.symm g1.data.symm).1 _ _ e2
  have hdata : s.cur.data = s2.cur.data := by rw [g2.data, g1.data]
  have hq1 := setDir_atRest hcd (by exact h) (by exact hq) e1
  have hq2 := readLoop_atRest _ _ _ _ _ _ (g1.run h) g1.clk g1.data hq1 e2
  rw [emitTrace_pads]
  rw [hdata] at e3 hcd
  exact (driveLine_atRest hcd (g2.run (g1.run h)) hq2 e3 : AtRest _ s3.pads)

theorem turnaround_atRest {s t : State} {u : Unit} (hcd : s.cur.clk ≠ s.cur.data) (h : Run s)
    (hq : AtRest s.cur.clk s.pads) (e : turnaround s = .go u t) : AtRest s.cur.clk t.pads := by
  obtain ⟨_, s1, e1, e⟩ := Flow.andThen_go e
  have g1 := (setDir_runs h _ (.inr rfl) _).1 _ _ e1
  exact pulseClock_atRest (g1.run h) g1.clk (setDir_atRest hcd h hq e1) e

theorem resetLine_atRest {s t : State} {u : Unit} (hcd : s.cur.clk ≠ s.cur.data) (h : Run s)
    (hq : AtRest s.cur.clk s.pads) (e : resetLine s = .go u t) : AtRest s.cur.clk t.pads := by
  obtain ⟨_, s1, e1, e⟩ := Flow.andThen_go e
  have g1 := (drive_runs (by exact h) _ (.inr rfl) _).1 _ _ e1
  exact pulseLoop_atRest _ _ _ _ _ (g1.run h) g1.clk (driveLine_atRest (by exact hcd) (by exact h) (by exact hq) e1) e

/-- Every micro-operation but ENTER and EXIT leaves the clock pad at rest (40_link_driver.md R172). -/
theorem microFlow_atRest {i : Instr} {s t : State} {u : Unit} (hi : i.isHost = false) (henter : i ≠ .enter) (hexit : i ≠ .exit)
    (hcd : s.cur.clk ≠ s.cur.data) (h : Run s) (hq : AtRest s.cur.clk s.pads) (e : microFlow s i = .go u t) :
    AtRest s.cur.clk t.pads := by
  cases i <;> simp only [Instr.isHost, Bool.true_eq_false] at hi <;> simp only [microFlow] at e
  case pulse => exact pulseClock_atRest h rfl hq e
  case drive b => exact driveLine_atRest hcd h hq e
  case release => exact setDir_atRest hcd h hq e
  case wbit b => exact writeBit_atRest hcd h rfl rfl hq e
  case wbits n v =>
    split at e
    · exact writeBits_atRest hcd h hq e
    · cases e
  case rbits n =>
    split at e
    · rename_i hn
      exact readBits_atRest (of_decide_eq_true hn) hcd h hq e
    · cases e
  case turn => exact turnaround_atRest hcd h hq e
  case lreset => exact resetLine_atRest hcd h hq e
  case enter => exact absurd rfl henter
  case exit => exact absurd rfl hexit
  case decode =>
    obtain ⟨p, s1, e1, e⟩ := Flow.andThen_go e
    cases e
    exact (tick_going (by exact h.1) (by exact h.2) e1).2.1 ▸ hq

/-- EXIT releases both pads of the pair (41_protocol_sequencer.md R214). -/
theorem exit_pads {s t : State} {u : Unit} (h : Run s) (e : microFlow s .exit = .go u t) :
    t.pads = (s.pads.modify s.cur.data.toNat fun pad => { pad with dir := .input }).modify s.cur.clk.toNat
      fun pad => { pad with dir := .input } := by
  obtain ⟨_, s1, e1, e⟩ := Flow.andThen_go e
  obtain ⟨_, s2, e2, e⟩ := Flow.andThen_go e
  cases e
  have g1 := (setDir_runs (by exact h) _ (.inr rfl) _).1 _ _ e1
  exact (setDir_pads (g1.run h) e2).trans (by rw [setDir_pads (by exact h) e1])

/-- A released pad, and one that was released before, is Input. -/
theorem dir_of_modify_input {pads : List Pad} {k : Nat} {i : Nat} {pad : Pad}
    (h : ∀ pad, pads[i]? = some pad → i ≠ k → pad.dir = .input)
    (e : (pads.modify k fun pad => { pad with dir := .input })[i]? = some pad) : pad.dir = .input := by
  by_cases hk : i = k
  · subst hk
    simp only [List.getElem?_modify_eq, Option.map_eq_map, Option.map_eq_some_iff] at e
    obtain ⟨_, -, rfl⟩ := e
    rfl
  · rw [getElem?_modify_other _ _ _ _ hk] at e
    exact h pad e hk

/-! ## Steps that keep the invariant of the pads -/

/-- The invariant of the pads does not speak of anything but the pads, the pair, ACTIVE and the pad faults to come. -/
theorem PadInv.of_frame {s t : State} (h : PadInv s) (henv : NoPinFault t.env) (hpads : t.pads = s.pads)
    (hcur : t.cur = { s.cur with stage := t.cur.stage }) : PadInv t := by
  refine ⟨henv, ?_, ?_, ?_⟩ <;> rw [hpads, hcur]
  · exact h.released
  · exact h.others
  · exact h.clock

/-- With every pad Input and no attempt running the invariant of the pads holds. -/
theorem PadInv.of_released {s : State} (henv : NoPinFault s.env) (hactive : s.cur.active = false)
    (hpads : ∀ (i : Nat) (pad : Pad), s.pads[i]? = some pad → pad.dir = .input) : PadInv s :=
  ⟨henv, fun _ => hpads, fun i pad hi _ _ => hpads i pad hi, fun ha => by simp [hactive] at ha⟩

theorem NoPinFault.drop {env : List Ports} (h : NoPinFault env) (k : Nat) : NoPinFault (env.drop k) :=
  fun p hp => h p (List.mem_of_mem_drop hp)

theorem PadInv.wasReset {s t : State} (h : PadInv s) (k : WasReset s t) : PadInv t := by
  refine (padInv_resetWith s.pinCount).of_frame (fun p hp => h.noPinFault p (k.env.mem hp)) ?_ ?_ <;> rw [k.state]

/-- A command touches no pad. -/
theorem hostCommand_frame {i : Instr} {s t : State} (hi : i.isHost = true) (e : hostCommand i s = .next t) :
    t.pads = s.pads ∧ t.cur = s.cur ∧ t.env = s.env := by
  rcases hostCommand_cases (s := s) hi with ⟨_, h⟩ | ⟨_, _, _, _, _, h⟩ | ⟨_, h⟩ | ⟨_, _, _, _, _, _, h⟩ | ⟨_, h⟩ | h
  all_goals
    rw [h] at e
    cases e
    exact ⟨rfl, rfl, rfl⟩

/-- Everything a host access that completes can have done: run a command, or change at most the staging registers, ERR and what reads
have returned. -/
theorem hostAccess_next_cases {a : Access} {s t : State} (e : hostAccess a s = .next t) :
    (∃ i, i.isHost = true ∧ hostCommand i s = .next t) ∨
      t = { s with staging := t.staging, status := { s.status with err := t.status.err }, reads := t.reads } := by
  cases a with
  | read offset width =>
    simp only [hostAccess] at e
    split at e
    · cases e
    · cases e
      exact .inr rfl
  | write offset lanes =>
    simp only [hostAccess] at e
    split at e
    · cases e
    · unfold writeWord at e
      split at e
      · rcases writeCmd_cases e with ⟨-, e⟩ | ⟨-, e⟩ | ⟨i, hd, e⟩
        · cases e
          exact .inr rfl
        · cases e
          exact .inr rfl
        · exact .inl ⟨i, isHost_of_decodeHost hd, e.symm⟩
      all_goals
        cases e
        exact .inr rfl

/-- A host access touches no pad. -/
theorem hostAccess_frame {a : Access} {s t : State} (e : hostAccess a s = .next t) :
    t.pads = s.pads ∧ t.cur = s.cur ∧ t.env = s.env := by
  rcases hostAccess_next_cases e with ⟨i, hi, e⟩ | e
  · exact hostCommand_frame hi e
  · rw [e]
    exact ⟨rfl, rfl, rfl⟩

theorem takePair_frame (s : State) : s.takePair.pads = s.pads ∧ s.takePair.cur = s.cur ∧ s.takePair.env = s.env := by
  unfold State.takePair
  split
  · exact ⟨rfl, rfl, rfl⟩
  · dsimp only
    split <;> exact ⟨rfl, rfl, rfl⟩

theorem waitForPop_frame (s : State) : s.waitForPop.pads = s.pads ∧ s.waitForPop.cur = s.cur ∧ s.waitForPop.env = s.env := by
  unfold State.waitForPop
  split
  · exact ⟨rfl, rfl, rfl⟩
  · split
    · split <;> exact ⟨rfl, rfl, rfl⟩
    · exact ⟨rfl, rfl, rfl⟩
    · exact ⟨rfl, rfl, rfl⟩

/-- The pads after a row of the program that has gone on to its end. -/
theorem PadInv.rowDone {s u : State} {i : Instr} (h : Inv s) (k : PadInv s) (hpos : s.seq.pos = .attempt)
    (hlt : s.seq.upc.toNat < s.seq.prog.length) (hi : i.isHost = false) (henter : i = .enter ↔ s.seq.upc.toNat = 0)
    (g : Going s { u with cur.active := s.cur.active }) (hact : u.cur.active = activeAfter i s.cur.active)
    (hflow : microFlow s i = .go () u) : PadInv u := by
  obtain ⟨hb, -, hr, hcd, hpair, -, -, ha⟩ := (posInv_attempt hpos).1 h.pos
  have hrun : Run s := ⟨hb, hr⟩
  have hothers :
      ∀ (j : Nat) (pad : Pad), u.pads[j]? = some pad → j ≠ s.cur.clk.toNat → j ≠ s.cur.data.toNat → pad.dir = .input :=
    fun j pad hj hc hd => k.others j pad ((g.pads j hc hd).symm.trans hj) hc hd
  have hclk : u.cur.clk = s.cur.clk := g.clk
  have hdata : u.cur.data = s.cur.data := g.data
  have henv : NoPinFault u.env := g.noPinFault k.noPinFault
  by_cases hx : i = .exit
  · subst hx
    refine .of_released henv hact fun j pad hj => ?_
    rw [exit_pads hrun hflow] at hj
    exact dir_of_modify_input
      (fun _ hj hc => dir_of_modify_input (fun pad hj hd => k.others j pad hj hc hd) hj) hj
  · have hactive : u.cur.active = true := by
      rw [hact]
      unfold activeAfter
      split
      · rfl
      · rename_i hne
        have := mt henter.2 hne
        exact ha.2 ⟨by omega, hlt⟩
    refine ⟨henv, fun hn => by simp [hactive] at hn, by rw [hclk, hdata]; exact hothers, fun _ => ?_⟩
    rw [hclk]
    by_cases hne : i = .enter
    · subst hne
      exact enter_atRest (s := { s with cur.active := true, cur.stage := .lineReset }) hrun hpair.1 hflow
    · have hupc := mt henter.2 hne
      exact microFlow_atRest hi hne hx hcd hrun (k.clock (ha.2 ⟨by omega, hlt⟩)) hflow

/-- The micro-operation of a row of the program, without pad faults. -/
theorem PadInv.execRow {s t : State} {i : Instr} (h : Inv s) (k : PadInv s) (hpos : s.seq.pos = .attempt)
    (hlt : s.seq.upc.toNat < s.seq.prog.length) (hi : i.isHost = false) (henter : i = .enter ↔ s.seq.upc.toNat = 0)
    (e : exec i s = .next t) : PadInv t := by
  obtain ⟨hb, -, hr, -⟩ := (posInv_attempt hpos).1 h.pos
  rcases exec_next_cases hi ⟨hb, hr⟩ e with ⟨u, hflow, rfl, g, hact⟩ | hf | hw
  · exact (PadInv.rowDone h k hpos hlt hi henter g hact hflow).of_frame (g.noPinFault k.noPinFault) rfl rfl
  · exact absurd k.noPinFault hf.pinFault
  · exact k.wasReset hw

theorem PadInv.attemptStep {s t : State} (h : Inv s) (k : PadInv s) (hturn : BlockTurn s) (hpos : s.seq.pos = .attempt)
    (e : attemptStep s = .next t) : PadInv t := by
  obtain ⟨-, -, -, -, -, hprog, -⟩ := (posInv_attempt hpos).1 h.pos
  by_cases hlt : s.seq.upc.toNat < s.seq.prog.length
  · obtain ⟨row, i, hrow, hdec, hi, -, henter, -⟩ := program_row _ _ _ (hprog ▸ hlt)
    rw [← hprog] at hrow
    simp only [Machine.attemptStep, hrow, hdec] at e
    have h1 : Inv { s with cur.stage := row.stage } := h.of_frame rfl
    exact PadInv.execRow h1 (k.of_frame k.noPinFault rfl rfl) hpos hlt hi henter e
  · have hnone : s.seq.prog[s.seq.upc.toNat]? = none := List.getElem?_eq_none (Nat.not_lt.1 hlt)
    simp only [Machine.attemptStep, hnone, bookkeeping_of_blockTurn hturn] at e
    cases e
    exact k.of_frame (k.noPinFault.drop 1) rfl rfl

/-- The block's own step, one case per position of the command; an attempt starts with every pad released. -/
theorem PadInv.blockStep {s t : State} (h : Inv s) (k : PadInv s) (hturn : BlockTurn s) (e : blockStep s = .next t) : PadInv t := by
  have hframe : ∀ f : State → State, (∀ s, (f s).pads = s.pads ∧ (f s).cur = s.cur ∧ (f s).env = s.env) →
      bookkeeping f s = .next t → PadInv t := by
    intro f hf e
    rw [bookkeeping_of_blockTurn hturn] at e
    cases e
    obtain ⟨hpads, hcur, henv⟩ := hf { s with env := s.env.drop 1 }
    exact k.of_frame (henv ▸ k.noPinFault.drop 1) hpads (by rw [hcur])
  cases hpos : s.seq.pos <;> simp only [Machine.blockStep, hpos] at e
  case idle => exact hframe _ (fun _ => ⟨rfl, rfl, rfl⟩) e
  case first => exact hframe _ takePair_frame e
  case advance => exact hframe _ takePair_frame e
  case waitPop => exact hframe _ waitForPop_frame e
  case attempt => exact PadInv.attemptStep h k hturn hpos e
  case begin c d =>
    obtain ⟨-, -, ha, -⟩ := (posInv_begin hpos).1 h.pos
    rw [bookkeeping_of_blockTurn hturn] at e
    cases e
    exact .of_released (k.noPinFault.drop 1) ha (k.released ha)

/-- Settles O59: a step is a reset, a host access or the block's own step, and each keeps the invariant of the pads. -/
theorem stepKeepsThePadInvariant : Obligations.StepKeepsThePadInvariant := by
  intro s t h k e
  rcases step_next_cases e with hreset | ⟨p, rest, a, more, henv, -, -, haccess⟩ | ⟨hturn, hblock⟩
  · exact k.wasReset hreset
  · obtain ⟨hpads, hcur, ht⟩ := hostAccess_frame haccess
    refine k.of_frame ?_ hpads (by rw [hcur])
    have hno := k.noPinFault
    simp only [henv, ht, NoPinFault, List.forall_mem_cons] at hno ⊢
    exact hno
  · exact PadInv.blockStep h k hturn hblock

end Sys2Proof.Machine
end

section
/-! PROOFS. Masks and host commands: MAX_PIN, the pairs of a scan, and the acceptance and refusal of each command. -/

namespace Sys2Proof.Machine

/-! ## The highest set bit of a mask -/

theorem highestBelow_le (m : BitVec 64) (n : Nat) : highestBelow m n ≤ n := by
  induction n with
  | zero => exact Nat.le_refl 0
  | succ n ih => unfold highestBelow; split <;> omega

/-- A set bit lies below the number that `highestBelow` answers. -/
theorem lt_highestBelow {m : BitVec 64} {n i : Nat} (hi : i < n) (hm : m.getLsbD i = true) : i < highestBelow m n := by
  induction n with
  | zero => omega
  | succ n ih =>
    unfold highestBelow
    split
    · exact hi
    · rename_i hn
      refine ih (Nat.lt_of_le_of_ne (Nat.le_of_lt_succ hi) fun e => hn ?_)
      rwa [← e]

/-- The number that `highestBelow` answers, if it is not 0, is one more than the index of a set bit. -/
theorem getLsbD_highestBelow {m : BitVec 64} {n i : Nat} (h : highestBelow m n = i + 1) : m.getLsbD i = true := by
  induction n with
  | zero => simp [highestBelow] at h
  | succ n ih =>
    unfold highestBelow at h
    split at h
    · rename_i hn
      rwa [← Nat.succ.inj h]
    · exact ih h

theorem toNat_maxPinOf (m : BitVec 64) : (maxPinOf m).toNat = highestBelow m 64 := by
  have := highestBelow_le m 64
  simp only [maxPinOf, BitVec.toNat_ofNat]
  omega

/-- Every pin of a mask lies below its MAX_PIN (10_state.md R43). -/
theorem lt_maxPinOf {m : BitVec 64} {i : Nat} (hm : m.getLsbD i = true) : i < (maxPinOf m).toNat := by
  rw [toNat_maxPinOf]
  exact lt_highestBelow (BitVec.lt_of_getLsbD hm) hm

/-- MAX_PIN is one more than the highest set bit (10_state.md R43). -/
theorem maxPinOf_eq {m : BitVec 64} {i : Nat} (hm : m.getLsbD i = true) (hmax : ∀ j, i < j → m.getLsbD j = false) :
    (maxPinOf m).toNat = i + 1 := by
  have hlt := lt_maxPinOf hm
  obtain ⟨k, hk⟩ := Nat.exists_eq_add_of_lt (Nat.zero_lt_of_lt hlt)
  rw [Nat.zero_add] at hk
  have hset := getLsbD_highestBelow ((toNat_maxPinOf m).symm.trans hk)
  have : ¬i < k := fun hik => by simp [hmax k hik] at hset
  omega

/-- Settles O29: a mask that is not 0 has a bit below `highestBelow`, which is then one more than a set bit with none above it. -/
theorem maxPinIsHighestBitPlusOne : Obligations.MaxPinIsHighestBitPlusOne := by
  refine ⟨by decide, fun m hm => ?_⟩
  have hpos : (maxPinOf m).toNat ≠ 0 := fun h0 => hm (BitVec.eq_of_getLsbD_eq fun j _ => by
    by_contra hbit
    have := lt_maxPinOf (m := m) (i := j) (by simpa using hbit)
    omega)
  obtain ⟨i, hi⟩ := Nat.exists_eq_succ_of_ne_zero hpos
  have hset := getLsbD_highestBelow ((toNat_maxPinOf m).symm.trans hi)
  refine ⟨i, BitVec.lt_of_getLsbD hset, hset, fun j hj => ?_, hi⟩
  by_contra hbit
  have := lt_maxPinOf (m := m) (i := j) (by simpa using hbit)
  omega

/-! ## The pairs of a scan -/

/-- The candidates of a mask are the indices of its set bits (10_state.md R44). -/
theorem mem_candidates_iff {m : BitVec 64} {i : Nat} : i ∈ candidates m (maxPinOf m) ↔ m.getLsbD i = true := by
  simp only [candidates, List.mem_filter, List.mem_range, and_iff_right_iff_imp]
  exact lt_maxPinOf

theorem candidates_pairwise (m : BitVec 64) (maxPin : BitVec 8) : (candidates m maxPin).Pairwise (· < ·) :=
  List.pairwise_lt_range.filter _

theorem candidates_eq (m : BitVec 64) : candidates m (maxPinOf m) = (List.range 64).filter fun i => m.getLsbD i := by
  refine (candidates_pairwise m _).eq_of_mem_iff (List.pairwise_lt_range.filter _) fun {i} => ?_
  rw [mem_candidates_iff, List.mem_filter, List.mem_range]
  exact ⟨fun h => ⟨BitVec.lt_of_getLsbD h, h⟩, And.right⟩

theorem pairs_pairwise (m : BitVec 64) (maxPin : BitVec 8) :
    (pairs m maxPin).Pairwise fun p q => p.1 < q.1 ∨ (p.1 = q.1 ∧ p.2 < q.2) := by
  have hlt : ∀ {i j : Nat}, j ∈ candidates m maxPin → i < j → BitVec.ofNat 8 i < BitVec.ofNat 8 j := by
    intro i j hj hij
    have := (mem_candidates hj).1
    simp only [BitVec.lt_def, BitVec.toNat_ofNat]
    omega
  refine List.pairwise_flatMap.2 ⟨fun c _ => ?_, (candidates_pairwise m maxPin).imp_of_mem fun {c c'} hc hc' hcc p hp q hq => .inl ?_⟩
  · refine List.pairwise_map.2 (((candidates_pairwise m maxPin).filter _).imp_of_mem fun {d d'} hd hd' hdd => .inr ⟨rfl, ?_⟩)
    exact hlt (List.mem_of_mem_filter hd') hdd
  · obtain ⟨d, -, rfl⟩ := List.mem_map.1 hp
    obtain ⟨d', -, rfl⟩ := List.mem_map.1 hq
    exact hlt hc' hcc

theorem length_pairs (m : BitVec 64) (maxPin : BitVec 8) :
    (pairs m maxPin).length = (candidates m maxPin).length * ((candidates m maxPin).length - 1) := by
  have hnodup : (candidates m maxPin).Nodup := (candidates_pairwise m maxPin).imp Nat.ne_of_lt
  have hrow : ∀ c ∈ candidates m maxPin, (((candidates m maxPin).filter fun d => d != c).map fun d =>
      (BitVec.ofNat 8 c, BitVec.ofNat 8 d)).length = (candidates m maxPin).length - 1 := by
    intro c hc
    rw [List.length_map, ← hnodup.erase_eq_filter, List.length_erase_of_mem hc]
  rw [pairs, List.length_flatMap, List.map_congr_left hrow, List.map_const', List.sum_replicate, smul_eq_mul]

/-- Settles O48: each candidate is paired with every other one, in the increasing order of the candidates. -/
theorem pairsEnumerateTheCandidates : Obligations.PairsEnumerateTheCandidates := by
  refine fun m => ⟨fun c d => ⟨fun h => ?_, fun ⟨hc, hd, hne⟩ => ?_⟩, pairs_pairwise m _, ?_⟩
  · obtain ⟨hne, hc, hd⟩ := mem_pairs h
    exact ⟨hc, hd, hne⟩
  · refine List.mem_flatMap.2 ⟨c.toNat, mem_candidates_iff.2 hc, List.mem_map.2 ⟨d.toNat, ?_, ?_⟩⟩
    · refine List.mem_filter.2 ⟨mem_candidates_iff.2 hd, ?_⟩
      simpa [BitVec.toNat_inj] using Ne.symm hne
    · simp
  · rw [length_pairs, candidates_eq]

/-! ## Host commands -/

theorem maskOutOfRange_eq_false {s : State} {m : BitVec 64} (h : ∀ i, s.pinCount ≤ i → m.getLsbD i = false) :
    maskOutOfRange s m = false := by
  by_contra hc
  obtain ⟨i, -, hi, hm⟩ := (maskOutOfRange_iff s m).1 (by simpa using hc)
  simp [h i hi] at hm

/-- An accepted CONFIGURE (42_scanner_commands.md R255). -/
theorem execConfigure_accepted {s : State} (hb : s.status.busy = false) (hm : ∀ i, s.pinCount ≤ i → (argMask s).getLsbD i = false)
    (boh : Bool) (verb : Verbosity) (dorm idle : Bool) :
    execConfigure boh verb dorm idle s =
      .next { s with config := ⟨argMask s, maxPinOf (argMask s), boh, verb, dorm, idle⟩, status.err := .ok } := by
  simp [execConfigure, hb, maskOutOfRange_eq_false hm]

/-- Settles O22: the staged mask is the configured one, and MAX_PIN is that of its highest bit. -/
theorem configureWritesTheConfiguration : Obligations.ConfigureWritesTheConfiguration := by
  intro s boh dorm idle verb hb hm
  refine ⟨_, execConfigure_accepted hb hm boh verb dorm idle, fun i hi => ?_, fun i hi => ?_, fun h0 => ?_,
    fun i hi hmax => maxPinOf_eq hi hmax, rfl, rfl, rfl, rfl, rfl⟩
  · exact (BitVec.getLsbD_append ..).trans (by simp [hi])
  · exact (BitVec.getLsbD_append ..).trans (by simp)
  · exact (congrArg maxPinOf h0).trans (by decide)

/-- Settles O23: the two checks of CONFIGURE in their order. -/
theorem configureIsRefused : Obligations.ConfigureIsRefused := by
  refine fun s boh dorm idle verb => ⟨fun hb => ?_, fun hb ⟨i, hi, hm⟩ => ?_⟩
  · simp [exec, execConfigure, hb, State.reject]
  · have hout := (maskOutOfRange_iff s (argMask s)).2 ⟨i, BitVec.lt_of_getLsbD hm, hi, hm⟩
    simp [exec, execConfigure, hb, hout, State.reject]

/-- Settles O25: BUSY decides between the acceptance and the refusal of SCAN. -/
theorem scanIsAcceptedOrBusy : Obligations.ScanIsAcceptedOrBusy := by
  refine fun s => ⟨fun hb => ⟨s.acceptRun .scan .first, ?_, ?_⟩, fun hb => ?_⟩
  · simp [exec, execScan, hb]
  · exact ⟨rfl, rfl, rfl, rfl, rfl, rfl, rfl, rfl, rfl, rfl, rfl, rfl, rfl⟩
  · simp [exec, execScan, hb, State.reject]

/-- Settles O26: the three checks of TEST_PAIR in their order, and its acceptance. -/
theorem testPairIsAcceptedOrRefused : Obligations.TestPairIsAcceptedOrRefused := by
  refine fun s c d => ⟨fun hb hcd hc hd => ⟨s.acceptRun .testPair (.begin c d), ?_, ?_⟩, fun hb => ?_, fun hb hcd => ?_,
    fun hb hcd hrange => ?_⟩
  · simp [exec, execTestPair, hb, hcd, pinInRange, hc, hd]
  · exact ⟨rfl, rfl, rfl, rfl, rfl, rfl, rfl, rfl, rfl, rfl, rfl, rfl, rfl⟩
  · simp [exec, execTestPair, hb, State.reject]
  · simp [exec, execTestPair, hb, hcd, State.reject]
  · have hout : (pinInRange s c && pinInRange s d) = false := by
      rcases hrange with h | h <;> simp [pinInRange, Nat.not_lt.2 h]
    simp [exec, execTestPair, hb, hcd, hout, State.reject]

/-- Settles O28: CANCEL_PENDING is set if BUSY is. -/
theorem cancelMarksARunningCommand : Obligations.CancelMarksARunningCommand := by
  refine fun s => ⟨fun hb => ?_, fun hb => ?_⟩ <;> simp [exec, execCancel, hb]

/-- Settles O30: one access changes only these fields, and keeps BUSY and RVALID for the next. -/
theorem hostCannotDisturbAnAttempt : Obligations.HostCannotDisturbAnAttempt := by
  intro s t accesses hb hr h
  induction accesses generalizing s with
  | nil =>
    cases h
    rfl
  | cons a more ih =>
    simp only [serve] at h
    split at h
    · rename_i u hu
      have hfirst := hostAccess_running hb hr hu
      have hmore := ih u (by rw [hfirst]; exact hb) (by rw [hfirst]; exact hr) h
      rw [hmore, hfirst]
    · cases h
    · cases h

end Sys2Proof.Machine
end

section
/-! PROOFS. The register window field by field, a reset pulse and the publish of a result. -/

namespace Sys2Proof.Machine

/-! ## The fields of a register word -/

/-- A flag in a word is a field of one bit. -/
theorem bit_eq (b : Bool) : bit b = (BitVec.ofBool b).setWidth 32 := by
  cases b <;> rfl

/-- What a range of a word shows of a field placed at bit k: the field in its own range, nothing of it in a range beside it. -/
@[simp] theorem extract_field {w : Nat} (x : BitVec w) {k : Nat} (h : k + w ≤ 32) :
    (x.setWidth 32 <<< k).extractLsb' k w = x := by
  apply BitVec.eq_of_getLsbD_eq
  intro i hi
  simp [hi, show k + i < 32 by omega]

@[simp] theorem extract_field_beside {w : Nat} (x : BitVec w) {k start len : Nat} (h : start + len ≤ k ∨ k + w ≤ start) :
    (x.setWidth 32 <<< k).extractLsb' start len = 0 := by
  apply BitVec.eq_of_getLsbD_eq
  intro i hi
  rcases h with h | h
  · simp [show start + i < k by omega]
  · simp [BitVec.getLsbD_of_ge x (start + i - k) (by omega)]

/-- The field at bit 0 of a word. -/
@[simp] theorem extract_low_field {w : Nat} (x : BitVec w) (h : w ≤ 32) : (x.setWidth 32).extractLsb' 0 w = x := by
  simpa using extract_field x (k := 0) (by omega)

@[simp] theorem extract_low_field_beside {w : Nat} (x : BitVec w) {start len : Nat} (h : w ≤ start) :
    (x.setWidth 32).extractLsb' start len = 0 := by
  simpa using extract_field_beside x (k := 0) (len := len) (.inr (by omega : 0 + w ≤ start))

/-- Settles O17: each range shows its own field of the word. -/
theorem statusRegisterFields : Obligations.StatusRegisterFields := by
  intro s
  simp only [State.readWord, State.statusWord, bit_eq]
  refine ⟨?_, ?_, ?_, ?_, ?_, ?_, ?_, ?_, ?_⟩ <;> simp [BitVec.extractLsb'_or]
  · cases s.status.endCode <;> rfl
  · cases s.status.err <;> rfl
  · simp [State.phase]

/-- Settles O18: each range of CFG shows its own field, and the two mask words are the halves of the mask. -/
theorem configurationRegisterFields : Obligations.ConfigurationRegisterFields := by
  intro s
  simp only [State.readWord, State.cfgWord, bit_eq]
  refine ⟨?_, ?_, ?_, ?_, ?_, ?_, ?_, ?_⟩ <;> simp [BitVec.extractLsb'_or]
  · cases s.config.verbosity <;> rfl
  · exact (BitVec.extractLsb'_append_extractLsb'_eq_extractLsb' (by rfl)).trans (by simp)

/-- Settles O19: each range shows its own field, and the fields of the raw value are quotients of it (30_encoding.md R155). -/
theorem resultRegisterFields : Obligations.ResultRegisterFields := by
  intro s
  simp only [State.readWord, State.resPinsWord, State.resFieldsWord, bit_eq]
  refine ⟨?_, ?_, ?_, ?_, ?_, ?_, ?_, ?_, ?_, ?_, ?_, ?_, ?_⟩ <;> simp [BitVec.extractLsb'_or]
  · simp [ackOf]
  · simp [manufacturerOf, Nat.shiftRight_eq_div_pow]
  · simp [partNumberOf, Nat.shiftRight_eq_div_pow]
  · simp [parityOf]

/-- Settles O20: each range shows its own field of CUR_PAIR. -/
theorem currentPairRegisterFields : Obligations.CurrentPairRegisterFields := by
  intro s
  simp only [State.readWord, State.curPairWord, bit_eq]
  refine ⟨?_, ?_, ?_, ?_, ?_, ?_, ?_, ?_, ?_⟩ <;> simp [BitVec.extractLsb'_or]
  cases s.cur.stage <;> rfl

/-! ## A reset pulse and the publish of a result -/

/-- A step in whose port sample rst is 1 and no access is due resets the block (70_reset_and_hazards.md R340). -/
theorem step_reset {s : State} {p : Ports} {rest : List Ports} (henv : s.env = p :: rest) (hrst : p.rst = true) (hhost : p.host = []) :
    step s = .next (State.afterReset { s with env := rest }) := by
  simp [step, henv, hrst, bookkeeping, tick, hhost, serveInReset]

/-- Settles O8: the fields of the state after a reset. -/
theorem resetPulseFromAnyState : Obligations.ResetPulseFromAnyState := by
  intro s p rest henv hrst hhost
  exact ⟨_, step_reset henv hrst hhost, rfl, rfl, rfl, rfl, rfl, rfl, rfl, rfl, rfl, rfl, rfl, rfl⟩

/-- One lane below the lanes of the word above it (20_memory.md R102). -/
theorem lane_or_above (w : Word) (k : Nat) : (w.extractLsb' k 8).setWidth 32 ||| (w >>> (k + 8)) <<< 8 = w >>> k := by
  apply BitVec.eq_of_getLsbD_eq
  intro i hi
  by_cases h : i < 8
  · simp [h, hi]
  · simp [h, hi, show k + 8 + (i - 8) = k + i by omega]

/-- The word of the lanes of a word is that word (20_memory.md R102). -/
@[simp] theorem wordOfLanes_lanesOfWord (w : Word) : wordOfLanes (lanesOfWord w) = w := by
  have htop : (0 : Word) = w >>> (24 + 8) := (BitVec.ushiftRight_eq_zero (by decide)).symm
  rw [lanesOfWord, wordOfLanes, wordOfLanes, wordOfLanes, wordOfLanes, wordOfLanes, htop]
  rw [lane_or_above w 24, lane_or_above w 16, lane_or_above w 8, lane_or_above w 0, BitVec.ushiftRight_zero]

/-- An aligned 32-bit write inside the window is served with the word of its lanes (20_memory.md R101, R102). -/
theorem hostAccess_writeWord {offset : Nat} (ha : offset % 4 = 0) (h : offset < 0x40) (w : Word) (s : State) :
    hostAccess (.write offset (lanesOfWord w)) s = writeWord offset w s := by
  have hserved : accessRefusal offset (lanesOfWord w).length = none := accessRefusal_of_aligned ha h
  simp only [hostAccess, hserved, wordOfLanes_lanesOfWord]

/-- Settles O16: the write that is due is the next step, and stores its word. -/
theorem stagingRegistersHoldWhatIsWritten : Obligations.StagingRegistersHoldWhatIsWritten := by
  intro s w hready
  refine ⟨regWrite_window (by decide) w, regWrite_window (by decide) w, ?_⟩
  rw [step_withAccess hready, step_withAccess hready, hostAccess_writeWord (by decide) (by decide),
    hostAccess_writeWord (by decide) (by decide)]
  exact ⟨⟨_, rfl, rfl, rfl⟩, _, rfl, rfl, rfl⟩

/-- The block's turn, without a reset or an access due, is its own step. -/
theorem step_of_blockTurn {s : State} (h : BlockTurn s) : step s = blockStep s := by
  unfold step
  split
  · rfl
  · rename_i p rest henv
    obtain ⟨hrst, hhost⟩ := h p (by simp [henv])
    simp [hrst, hhost]

/-- Settles O50: past the end of its program an attempt publishes. -/
theorem publishWritesTheResult : Obligations.PublishWritesTheResult := by
  intro s hturn hpos hend
  simp only [step_of_blockTurn hturn, blockStep, hpos, attemptStep, List.getElem?_eq_none hend, bookkeeping_of_blockTurn hturn]
  rfl

end Sys2Proof.Machine
end

section
/-! PROOFS. WBITS and RBITS on quiet ports: their events, pads and values bit by bit. -/

namespace Sys2Proof.Machine

/-- The pad events of a WBITS, bit by bit (40_link_driver.md R179). -/
theorem writeBitsEvents_eq (clk data : Pin) (n : Nat) (v : BitVec 64) :
    writeBitsEvents clk data n v =
      (List.range n).flatMap fun i => writeBitEvents clk data (if v.getLsbD i then .high else .low) := by
  simp only [writeBitsEvents, writeLoopEvents_eq, Nat.zero_add, bitLevel_eq]

/-- The pads after a WBITS: the data pad at its last bit (40_link_driver.md R179). -/
theorem padsAfterWrite_all (pads : List Pad) (clk data : Pin) (v : BitVec 64) (n : BitVec 7) :
    padsAfterWrite pads clk data v n.toNat 0 =
      if n = 0 then pads
      else (pads.modify data.toNat fun _ => ⟨.output, if v.getLsbD (n.toNat - 1) then .high else .low⟩).modify clk.toNat
        fun pad => { pad with out := .high } := by
  simp only [← count_eq_zero]
  cases n.toNat with
  | zero => rfl
  | succ k => simp [padsAfterWrite, bitLevel_eq]

/-- The bits of a value collected from at most 64 samples (40_link_driver.md R182). -/
theorem getLsbD_valueOfLevels_of_length {levels : List Level} (h : levels.length ≤ 64) (i : Nat) :
    (valueOfLevels levels).getLsbD i = ((levels[i]?).map Level.toBool).getD false := by
  rw [getLsbD_valueOfLevels]
  by_cases hi : i < 64
  · simp [hi]
  · simp [List.getElem?_eq_none (h.trans (Nat.not_lt.1 hi))]

theorem exec_wbits {n : BitVec 7} (hn : n.toNat ≤ 64) (v : BitVec 64) (s : State) :
    exec (.wbits n v) s = finish (writeBits n v s) := if_pos (decide_eq_true hn)

theorem exec_rbits {n : BitVec 7} (hn : n.toNat ≤ 64) (s : State) : exec (.rbits n) s = finish (readBits n s) :=
  if_pos (decide_eq_true hn)

/-- Settles O34: the state that WBITS leaves, its events and pads bit by bit. -/
theorem writeBitsResult : Obligations.WriteBitsResult := by
  intro s n v hq hp hn
  rw [exec_wbits hn, writeBits_quiet hq hp, finish_go]
  refine ⟨_, rfl, ?_, getLsbD_lowBits _ _,
    padsAfterWrite_all .., rfl, rfl, rfl, rfl, rfl, rfl, rfl, rfl, rfl, rfl⟩
  rw [← writeBitsEvents_eq]
  rfl

/-- Settles O35: the state that RBITS leaves, for the levels that its samples draw. -/
theorem readBitsResult : Obligations.ReadBitsResult := by
  intro s n hq hp hn
  rw [exec_rbits hn, readBits_quiet hq hp, finish_go]
  have hlen := length_drawLevels s.cur.data n.toNat (s.env.drop 1) s.draws
  refine ⟨_, (drawLevels s.cur.data n.toNat (s.env.drop 1) s.draws).1, rfl, hlen, ?_, fun i => ?_, fun i => ?_,
    fun i p l hi henv hl => ?_, rfl, rfl, rfl, rfl, rfl, rfl, rfl, rfl, rfl, rfl⟩
  · simp [readBitsEvents, readLoopEvents, traceEvents, driveEvents]
  · exact getLsbD_valueOfLevels_of_length (by omega) i
  · exact BitVec.getLsbD_setWidth ..
  · refine drawLevels_driven _ _ _ _ _ p l hi ?_ hl
    rwa [List.getElem?_drop]

end Sys2Proof.Machine
end

section
/-! PROOFS. What VERBOSITY changes of a micro-operation: two runs of it, from states that differ in nothing but VERBOSITY, go through
states that differ in nothing but the trace records. -/

namespace Sys2Proof.Machine

/-! ## States that differ in the trace -/

/-- A state without its trace records, and without what no primitive reads: the configuration, the staging registers, the marks and the
read data. -/
def State.untraced (s : State) : State :=
  { s with
    config := ScanConfig.reset,
    staging := Staging.reset,
    history := s.history.filter fun e => e.traceRec?.isNone,
    attempts := [],
    reads := [] }

/-- Two states of a run without host accesses that differ at most in the configuration and the trace records. -/
structure SameButTrace (s u : State) : Prop where
  untraced : u.untraced = s.untraced
  noHost : NoHost s.env

namespace SameButTrace

variable {s u : State}

theorem pads (h : SameButTrace s u) : u.pads = s.pads := (congrArg State.pads h.untraced :)
theorem status (h : SameButTrace s u) : u.status = s.status := (congrArg State.status h.untraced :)
theorem result (h : SameButTrace s u) : u.result = s.result := (congrArg State.result h.untraced :)
theorem cur (h : SameButTrace s u) : u.cur = s.cur := (congrArg State.cur h.untraced :)
theorem seq (h : SameButTrace s u) : u.seq = s.seq := (congrArg State.seq h.untraced :)
theorem env (h : SameButTrace s u) : u.env = s.env := (congrArg State.env h.untraced :)
theorem draws (h : SameButTrace s u) : u.draws = s.draws := (congrArg State.draws h.untraced :)
theorem history (h : SameButTrace s u) :
    u.history.filter (fun e => e.traceRec?.isNone) = s.history.filter fun e => e.traceRec?.isNone :=
  (congrArg State.history h.untraced :)

/-- An update that the trace has no part in. -/
theorem update (h : SameButTrace s u) (f : State → State) (hf : ∀ s, (f s).untraced = f s.untraced) (hn : NoHost (f s).env) :
    SameButTrace (f s) (f u) :=
  ⟨by rw [hf, hf, h.untraced], hn⟩

theorem mapPad (h : SameButTrace s u) (p : Pin) (f : Pad → Pad) : SameButTrace (s.mapPad p f) (u.mapPad p f) :=
  h.update (fun s => s.mapPad p f) (fun _ => rfl) h.noHost

theorem scramble (h : SameButTrace s u) (p : Pin) : SameButTrace (s.scramble p) (u.scramble p) :=
  h.update (fun s => s.scramble p) (fun _ => rfl) h.noHost

theorem setDraws (h : SameButTrace s u) (n : Nat) : SameButTrace { s with draws := n } { u with draws := n } :=
  h.update (fun s => { s with draws := n }) (fun _ => rfl) h.noHost

theorem setSeq (h : SameButTrace s u) (q : Sequencer) : SameButTrace { s with seq := q } { u with seq := q } :=
  h.update (fun s => { s with seq := q }) (fun _ => rfl) h.noHost

theorem setSeqDraws (h : SameButTrace s u) (q : Sequencer) (n : Nat) :
    SameButTrace { s with seq := q, draws := n } { u with seq := q, draws := n } :=
  (h.setSeq q).setDraws n

theorem setCur (h : SameButTrace s u) (c : Current) : SameButTrace { s with cur := c } { u with cur := c } :=
  h.update (fun s => { s with cur := c }) (fun _ => rfl) h.noHost

theorem setCurSeq (h : SameButTrace s u) (c : Current) (q : Sequencer) :
    SameButTrace { s with cur := c, seq := q } { u with cur := c, seq := q } :=
  (h.setCur c).setSeq q

/-- Both append the same event. -/
theorem emit (h : SameButTrace s u) (e : Event) : SameButTrace (s.emit e) (u.emit e) := by
  refine ⟨?_, h.noHost⟩
  have hs : ∀ s : State, (s.emit e).untraced =
      { s.untraced with history := s.untraced.history ++ [e].filter fun e => e.traceRec?.isNone } := fun s => by
    simp [State.untraced, State.emit, List.filter_append]
  rw [hs, hs, h.untraced]

/-- Only one may emit a trace record. -/
theorem emitTrace (h : SameButTrace s u) (kind : TraceKind) (n : BitVec 7) (bits : BitVec 64) :
    SameButTrace (s.emitTrace kind n bits) (u.emitTrace kind n bits) := by
  have hs : ∀ s : State, (s.emitTrace kind n bits).untraced = s.untraced ∧ (s.emitTrace kind n bits).env = s.env := fun s => by
    unfold State.emitTrace
    split
    · exact ⟨by simp [State.untraced, State.emit, List.filter_append, Event.traceRec?], rfl⟩
    · exact ⟨rfl, rfl⟩
  exact ⟨by rw [(hs u).1, (hs s).1, h.untraced], (hs s).2 ▸ h.noHost⟩

theorem pinInRange (h : SameButTrace s u) (p : Pin) : Machine.pinInRange u p = Machine.pinInRange s p := by
  unfold Machine.pinInRange State.pinCount
  rw [h.pads]

end SameButTrace

/-! ## Flows that differ in the trace -/

/-- Two outcomes of the same kind, whose next states differ at most in the trace. -/
inductive SameResult : Result → Result → Prop where
  | next {s u : State} (h : SameButTrace s u) : SameResult (.next s) (.next u)
  | fault (x : Fault) : SameResult (.fault x) (.fault x)
  | refused (x : Refusal) : SameResult (.refused x) (.refused x)

/-- Two flows that go on with the same value, or end alike, in states that differ at most in the trace. -/
inductive SameFlow {α : Type} : Flow α → Flow α → Prop where
  | go (a : α) {s u : State} (h : SameButTrace s u) : SameFlow (.go a s) (.go a u)
  | stop {r q : Result} (h : SameResult r q) : SameFlow (.stop r) (.stop q)

theorem SameFlow.andThen {α β : Type} {f g : Flow α} {k l : α → State → Flow β} (h : SameFlow f g)
    (hk : ∀ a s u, SameButTrace s u → SameFlow (k a s) (l a u)) : SameFlow (f.andThen k) (g.andThen l) := by
  cases h with
  | go a h => exact hk a _ _ h
  | stop h => exact .stop h

theorem finish_same {f g : Flow Unit} (h : SameFlow f g) : SameResult (finish f) (finish g) := by
  cases h with
  | go a h =>
    simp only [finish_go, h.seq]
    exact .next (h.setSeq _)
  | stop h => exact h

theorem tick_same {s u : State} (h : SameButTrace s u) : SameFlow (tick s) (tick u) := by
  unfold tick
  rw [h.env]
  cases he : s.env with
  | nil => exact .go _ h
  | cons p rest =>
    have hhost : p.host = [] := h.noHost p (by simp [he])
    have hrest : NoHost rest := fun q hq => h.noHost q (by simp [he, hq])
    have h1 := h.update (fun s => { s with env := rest }) (fun _ => rfl) hrest
    simp only [hhost, serve, serveInReset]
    split
    · exact .stop (.next (h1.update State.afterReset (fun _ => rfl) hrest))
    · exact .go _ h1

theorem bestEffortRelease_same {s u : State} (h : SameButTrace s u) (p : Pin) :
    SameFlow (bestEffortRelease p s) (bestEffortRelease p u) := by
  refine (tick_same h).andThen fun ports s u h => ?_
  rw [h.pinInRange]
  split
  · exact .stop (.fault _)
  · split
    · exact .go _ (h.scramble p)
    · exact .go _ ((h.mapPad p _).emit _)

theorem faultEntry_same {s u : State} (h : SameButTrace s u) : SameResult (faultEntry s) (faultEntry u) := by
  have hflow := (bestEffortRelease_same h s.cur.data).andThen fun _ _ _ h1 => bestEffortRelease_same h1 s.cur.clk
  unfold faultEntry
  rw [h.cur]
  generalize (bestEffortRelease s.cur.data s).andThen _ = f at hflow ⊢
  generalize (bestEffortRelease s.cur.data u).andThen _ = g at hflow ⊢
  cases hflow with
  | stop h => exact h
  | go a h =>
    refine .next (h.update (fun s => State.endCommand { s with cur.active := false, status.err := .hliFault } .fault) (fun s => ?_)
      h.noHost)
    simp [State.untraced, State.endCommand, List.filter_append, Event.traceRec?]

theorem primitive_same {α : Type} {pad : Option Pin} {effect : Ports → State → α × State} {failed : State → State} {s u : State}
    (h : SameButTrace s u)
    (heffect : ∀ ports s u, SameButTrace s u →
      (effect ports u).1 = (effect ports s).1 ∧ SameButTrace (effect ports s).2 (effect ports u).2)
    (hfailed : ∀ s u, SameButTrace s u → SameButTrace (failed s) (failed u)) :
    SameFlow (primitive pad effect failed s) (primitive pad effect failed u) := by
  refine (tick_same h).andThen fun ports s u h => ?_
  simp only [h.pinInRange]
  split
  · exact .stop (.fault _)
  · split
    · exact .stop (faultEntry_same (hfailed s u h))
    · obtain ⟨hvalue, hstate⟩ := heffect ports s u h
      rw [hvalue]
      exact .go _ hstate


/-! ## Micro-operations that differ in the trace -/

section Primitives

variable {s u : State} (h : SameButTrace s u)

include h

theorem setDir_same (p : Pin) (d : Dir) : SameFlow (setDir p d s) (setDir p d u) :=
  primitive_same h (fun _ _ _ h => ⟨rfl, (h.mapPad p _).emit _⟩) fun _ _ h => (h.scramble p).emit _

theorem setDirDriving_same (p : Pin) (l : Level) : SameFlow (setDirDriving p l s) (setDirDriving p l u) :=
  primitive_same h (fun _ _ _ h => ⟨rfl, ((h.mapPad p _).mapPad p _).emit _⟩) fun _ _ h => (h.scramble p).emit _

theorem wrLvl_same (p : Pin) (l : Level) : SameFlow (wrLvl p l s) (wrLvl p l u) :=
  primitive_same h (fun _ _ _ h => ⟨rfl, (h.mapPad p _).emit _⟩) fun _ _ h => (h.scramble p).emit _

theorem sleepHalf_same : SameFlow (sleepHalf s) (sleepHalf u) := by
  refine primitive_same h (fun _ s u h => ⟨rfl, ?_⟩) fun s u h => ?_
  · rw [h.seq]
    exact (h.setSeq _).emit _
  · rw [h.seq, h.draws]
    exact (h.setSeqDraws _ _).emit _

theorem sampleLevel_same (p : Pin) (ports : Ports) :
    (sampleLevel p ports u).1 = (sampleLevel p ports s).1 ∧ SameButTrace (sampleLevel p ports s).2 (sampleLevel p ports u).2 := by
  unfold sampleLevel
  rw [h.draws]
  split
  · exact ⟨rfl, h⟩
  · exact ⟨rfl, h.setDraws _⟩

theorem rdLvl_same (p : Pin) : SameFlow (rdLvl p s) (rdLvl p u) := by
  refine primitive_same h (fun ports s u h => ?_) fun s u h => ?_
  · obtain ⟨hvalue, hstate⟩ := sampleLevel_same h p ports
    refine ⟨hvalue, ?_⟩
    rw [hvalue]
    exact hstate.emit _
  · rw [h.draws]
    exact ((h.setDraws _).scramble p).emit _

theorem pulseClock_same (clk : Pin) : SameFlow (pulseClock clk s) (pulseClock clk u) :=
  (wrLvl_same h clk .low).andThen fun _ _ _ h => (sleepHalf_same h).andThen fun _ _ _ h =>
    (wrLvl_same h clk .high).andThen fun _ _ _ h => sleepHalf_same h

theorem driveLine_same (p : Pin) (l : Level) : SameFlow (driveLine p l s) (driveLine p l u) :=
  (setDirDriving_same h p l).andThen fun _ _ _ h => wrLvl_same h p l

theorem writeBit_same (clk data : Pin) (b : Level) : SameFlow (writeBit clk data b s) (writeBit clk data b u) :=
  (driveLine_same h data b).andThen fun _ _ _ h => pulseClock_same h clk

end Primitives

theorem writeLoop_same (clk data : Pin) (v : BitVec 64) (k : Nat) :
    ∀ (i : Nat) (s u : State), SameButTrace s u → SameFlow (writeLoop clk data v k i s) (writeLoop clk data v k i u) := by
  induction k with
  | zero => exact fun _ _ _ h => .go _ h
  | succ k ih =>
    refine fun i s u h => (writeBit_same h clk data _).andThen fun _ s u h => ih _ _ _ ?_
    rw [h.seq]
    exact h.setSeq _

theorem readLoop_same (clk data : Pin) (k : Nat) :
    ∀ (i : Nat) (r : BitVec 64) (s u : State), SameButTrace s u →
      SameFlow (readLoop clk data k i r s) (readLoop clk data k i r u) := by
  induction k with
  | zero => exact fun _ _ _ _ h => .go _ h
  | succ k ih =>
    refine fun i r s u h => (rdLvl_same h data).andThen fun l s u h => (pulseClock_same h clk).andThen fun _ s u h => ih _ _ _ _ ?_
    rw [h.seq]
    exact h.setSeq _

theorem pulseLoop_same (clk : Pin) (k : Nat) :
    ∀ (i : Nat) (s u : State), SameButTrace s u → SameFlow (pulseLoop clk k i s) (pulseLoop clk k i u) := by
  induction k with
  | zero => exact fun _ _ _ h => .go _ h
  | succ k ih =>
    refine fun i s u h => (pulseClock_same h clk).andThen fun _ s u h => ih _ _ _ ?_
    rw [h.seq]
    exact h.setSeq _

theorem writeBits_same {s u : State} (h : SameButTrace s u) (n : BitVec 7) (v : BitVec 64) :
    SameFlow (writeBits n v s) (writeBits n v u) := by
  unfold writeBits
  rw [h.cur, h.seq]
  exact .andThen (writeLoop_same _ _ _ _ _ _ _ (h.setCurSeq _ _)) fun _ _ _ h => .go _ (h.emitTrace _ _ _)

theorem readBits_same {s u : State} (h : SameButTrace s u) (n : BitVec 7) : SameFlow (readBits n s) (readBits n u) := by
  unfold readBits
  rw [h.cur, h.seq]
  refine .andThen (setDir_same (h.setCurSeq _ _) _ _) fun _ _ _ h => .andThen (readLoop_same _ _ _ _ _ _ _ h) fun r _ _ h =>
    .andThen (driveLine_same h _ _) fun _ _ _ h => .go _ ?_
  rw [h.seq]
  exact (h.setSeq _).emitTrace _ _ _

/-- Every micro-operation, one case per constructor. -/
theorem microFlow_same {i : Instr} {s u : State} (hi : i.isHost = false) (h : SameButTrace s u) :
    SameFlow (microFlow s i) (microFlow u i) := by
  cases i <;> simp only [Instr.isHost, Bool.true_eq_false] at hi <;> simp only [microFlow, h.cur]
  case pulse => exact pulseClock_same h _
  case drive b => exact driveLine_same h _ b
  case release => exact setDir_same h _ _
  case wbit b => exact writeBit_same h _ _ b
  case wbits n v =>
    split
    · exact writeBits_same h n v
    · exact .stop (.refused _)
  case rbits n =>
    split
    · exact readBits_same h n
    · exact .stop (.refused _)
  case turn =>
    unfold turnaround
    rw [h.cur]
    exact (setDir_same h _ _).andThen fun _ _ _ h => pulseClock_same h _
  case lreset =>
    unfold resetLine
    rw [h.cur, h.seq]
    exact .andThen (driveLine_same (h.setCurSeq _ _) _ _) fun _ _ _ h => pulseLoop_same _ _ _ _ _ h
  case enter => exact driveLine_same (h.setCur _) _ _
  case exit =>
    refine (setDir_same (h.setCur _) _ _).andThen fun _ _ _ h => (setDir_same h _ _).andThen fun _ _ _ h => .go _ ?_
    rw [h.cur]
    exact h.setCur _
  case decode =>
    refine (tick_same (h.setCur _)).andThen fun _ _ _ h => .go _ ?_
    rw [h.seq]
    exact h.setSeq _

/-- Settles O40: VERBOSITY is no part of the state without its trace, and a micro-operation keeps two such states alike. -/
theorem verbosityChangesOnlyTheTrace : Obligations.VerbosityChangesOnlyTheTrace := by
  intro i s t u v hi hn et eu
  have hsame := finish_same (microFlow_same hi (⟨rfl, hn⟩ : SameButTrace s { s with config.verbosity := v }))
  rw [← exec_eq_finish, ← exec_eq_finish, et, eu] at hsame
  cases hsame with
  | next h => exact ⟨h.history, h.pads, h.seq, h.cur, h.status, h.result⟩

end Sys2Proof.Machine
end

section
/-! PROOFS. Host accesses at the register port and the instruction that a step runs; from the invariant the machine never stops while the
host keeps to served accesses. -/

namespace Sys2Proof.Machine

/-! ## Accesses of the register window -/

/-- Bit k of lane j is bit 8j + k of the word of the lanes (20_memory.md R102). -/
theorem getLsbD_wordOfLanes (lanes : List Byte) {k : Nat} (hk : k < 8) :
    ∀ j < 4, (wordOfLanes lanes).getLsbD (8 * j + k) = ((lanes[j]?).map fun b => b.getLsbD k).getD false := by
  induction lanes with
  | nil => simp [wordOfLanes]
  | cons b bs ih =>
    intro j hj
    cases j with
    | zero => simp [wordOfLanes, hk, show k < 32 by omega]
    | succ j =>
      have hbit : 8 * (j + 1) + k = 8 * j + k + 8 := by omega
      rw [wordOfLanes, hbit, BitVec.getLsbD_or, BitVec.getLsbD_setWidth, BitVec.getLsbD_of_ge b _ (by omega),
        BitVec.getLsbD_shiftLeft, Nat.add_sub_cancel, ih j (by omega)]
      simp [show 8 * j + k + 8 < 32 by omega]

/-- Settles O13: the bits of each lane, and the word of the lanes of a word. -/
theorem byteLanesAreLittleEndian : Obligations.ByteLanesAreLittleEndian := by
  intro w b0 b1 b2 b3 k hk
  have hlane := getLsbD_wordOfLanes [b0, b1, b2, b3] hk
  exact ⟨by simpa using hlane 0 (by decide), hlane 1 (by decide), hlane 2 (by decide), hlane 3 (by decide),
    wordOfLanes_lanesOfWord w⟩

/-- The window refuses an access of another width than 32 bits or at no multiple of 4 (20_memory.md R101). -/
theorem accessRefusal_of_unserved {offset width : Nat} (h : width ≠ 4 ∨ offset % 4 ≠ 0) :
    ∃ r, accessRefusal offset width = some r := by
  by_cases hw : width = 4
  · exact ⟨.accessMisaligned, by simp [accessRefusal, hw, h.resolve_left (not_not.2 hw)]⟩
  · exact ⟨.accessWidth, by simp [accessRefusal, hw]⟩

/-- Settles O14: the access that is due is the next step, and the window refuses it. -/
theorem unservedAccessesAreRefused : Obligations.UnservedAccessesAreRefused := by
  intro s offset width lanes hready hunserved hlanes
  obtain ⟨r, hr⟩ := accessRefusal_of_unserved hunserved
  rw [step_withAccess hready, step_withAccess hready]
  exact ⟨⟨r, by simp only [hostAccess, hr]⟩, r, by simp only [hostAccess, hlanes, hr]⟩

/-- Only CMD, ARG_MASK_LO and ARG_MASK_HI are written (20_memory.md R103). -/
theorem writeWord_readOnly {offset : Nat} (hcmd : offset ≠ 0) (hlo : offset ≠ 0x08) (hhi : offset ≠ 0x0C) (w : Word) (s : State) :
    writeWord offset w s = .next s := by
  unfold writeWord
  split
  · exact absurd rfl hcmd
  · exact absurd rfl hlo
  · exact absurd rfl hhi
  · rfl

/-- Settles O15: the write that is due is the next step, the window serves it, and it writes no register. -/
theorem readOnlyWritesAreIgnored : Obligations.ReadOnlyWritesAreIgnored := by
  intro s offset b0 b1 b2 b3 hready ha h hcmd hlo hhi
  have hserved : accessRefusal offset [b0, b1, b2, b3].length = none := accessRefusal_of_aligned ha h
  rw [step_withAccess hready]
  simp only [hostAccess, hserved, writeWord_readOnly hcmd hlo hhi]

/-! ## The instruction of a step -/

/-- A command that the host writes has the meaning of its instruction (42_scanner_commands.md R250). -/
theorem hostCommand_eq_exec {i : Instr} (hi : i.isHost = true) (s : State) : hostCommand i s = exec i s := by
  cases i <;> simp only [Instr.isHost, Bool.false_eq_true] at hi
  all_goals rfl

/-- A write of a word to CMD that decodes runs the command it decodes to. -/
theorem writeCmd_eq_exec {w : Word} {i : Instr} (h : decodeHost w = .ok i) (s : State) : writeCmd w s = exec i s := by
  simp only [writeCmd, h, hostCommand_eq_exec (isHost_of_decodeHost h)]

/-- The block's turn in an attempt runs the micro-operation of the row at upc, with STAGE of its row (41_protocol_sequencer.md R231). -/
theorem step_row {s : State} {row : ProgRow} {i : Instr} (hturn : BlockTurn s) (hpos : s.seq.pos = .attempt)
    (hrow : s.seq.prog[s.seq.upc.toNat]? = some row) (hdec : decodeUop row.words = .ok (i, [])) :
    step s = exec i { s with cur.stage := row.stage } := by
  simp only [step_of_blockTurn hturn, blockStep, hpos, attemptStep, hrow, hdec]

/-- Settles O6: a due write to CMD is the next step and runs its command; the block's turn runs the row at upc. -/
theorem stepRunsTheDecodedInstruction : Obligations.StepRunsTheDecodedInstruction := by
  refine ⟨fun s w i hready hdec => ?_, fun s row i hturn hpos hrow hdec => step_row hturn hpos hrow hdec⟩
  rw [step_withAccess hready, cmdWrite, hostAccess_writeWord (by decide) (by decide)]
  exact writeCmd_eq_exec hdec s

/-! ## No step stops -/

/-- Everything a step can be (60_exceptions.md R305): a reset, the host access that is due, or the block's own step. -/
theorem step_cases (s : State) :
    (∃ p rest, s.env = p :: rest ∧ p.rst = true ∧ step s = bookkeeping id s) ∨
      (∃ p rest a more, s.env = p :: rest ∧ p.host = a :: more ∧
        step s = hostAccess a { s with env := { p with host := more } :: rest }) ∨
      (BlockTurn s ∧ step s = blockStep s) := by
  cases henv : s.env with
  | nil =>
    have hturn : BlockTurn s := by simp [BlockTurn, henv]
    exact .inr (.inr ⟨hturn, step_of_blockTurn hturn⟩)
  | cons p rest =>
    cases hrst : p.rst with
    | true => exact .inl ⟨p, rest, rfl, hrst, by simp [step, henv, hrst]⟩
    | false =>
      cases hhost : p.host with
      | nil =>
        have hturn : BlockTurn s := by simp [BlockTurn, henv, hrst, hhost]
        exact .inr (.inr ⟨hturn, step_of_blockTurn hturn⟩)
      | cons a more => exact .inr (.inl ⟨p, rest, a, more, rfl, hhost, by simp [step, henv, hrst, hhost]⟩)

/-- With served accesses a bookkeeping step completes. -/
theorem bookkeeping_served {s : State} (hs : ServedHost s.env) (f : State → State) : ∃ t, bookkeeping f s = .next t := by
  unfold bookkeeping
  cases htick : tick s with
  | go _ s1 => exact ⟨f s1, rfl⟩
  | stop r => exact tick_served hs htick

/-- With served accesses a legal micro-operation of a running attempt completes (20_memory.md R98). -/
theorem exec_served {i : Instr} {s : State} (hi : i.isHost = false) (hw : i.wellFormed = true) (hrun : Run s)
    (hs : ServedHost s.env) (hpair : PairInRange s) : ∃ t, exec i s = .next t := by
  rcases exec_runs i s hi hrun with ⟨hill, -⟩ | ⟨f, hf, -, -, hstop⟩
  · simp [hw] at hill
  · rw [hf]
    cases f with
    | go _ t => exact ⟨_, finish_go _ t⟩
    | stop r => exact hstop hs hpair r rfl

/-- The block's step of an attempt completes: every row of its program is a legal micro-operation (30_encoding.md R144). -/
theorem attemptStep_served {s : State} (h : Inv s) (hs : ServedHost s.env) (hpos : s.seq.pos = .attempt) :
    ∃ t, attemptStep s = .next t := by
  obtain ⟨hbusy, -, hrvalid, -, hpair, hprog, -⟩ := (posInv_attempt hpos).1 h.pos
  by_cases hlt : s.seq.upc.toNat < s.seq.prog.length
  · obtain ⟨row, i, hrow, hdec, hi, hw, -, -⟩ := program_row _ _ _ (hprog ▸ hlt)
    rw [← hprog] at hrow
    simp only [attemptStep, hrow, hdec]
    exact exec_served hi hw ⟨hbusy, hrvalid⟩ hs hpair
  · simp only [attemptStep, List.getElem?_eq_none (Nat.not_lt.1 hlt)]
    exact bookkeeping_served hs _

/-- The block's own step completes, one case per position of the command. -/
theorem blockStep_served {s : State} (h : Inv s) (hs : ServedHost s.env) : ∃ t, blockStep s = .next t := by
  cases hpos : s.seq.pos <;> simp only [blockStep, hpos]
  case attempt => exact attemptStep_served h hs hpos
  all_goals exact bookkeeping_served hs _

/-- Settles O60: a step is a reset, a served host access or the block's own step, and each completes. -/
theorem machineNeverStops : Obligations.MachineNeverStops := by
  intro s h hs
  rcases step_cases s with ⟨-, -, -, -, hstep⟩ | ⟨p, rest, a, more, henv, hhost, hstep⟩ | ⟨-, hstep⟩ <;> rw [hstep]
  · exact bookkeeping_served hs id
  · exact hostAccess_next (hs p (by simp [henv]) a (by simp [hhost])) _
  · exact blockStep_served h hs

end Sys2Proof.Machine
end

section
/-! PROOFS. The data pad on quiet ports: what DRIVE and RELEASE leave, what a sample draws, the wire view of each micro-operation, and
the loopback of WBITS and RBITS. -/

namespace Sys2Proof.Machine

/-! ## A driven pad and a sampled pad -/

/-- Settles O32: the states that a drive and a release leave, and the one between the two events of a drive. -/
theorem driveAndReleaseResults : Obligations.DriveAndReleaseResults := by
  intro s hq ⟨_, hdata⟩
  refine ⟨fun b => ?_, ?_, fun p l hp => ?_⟩
  · simp only [exec, execDrive, driveLine_quiet hq hdata, finish_go]
    rfl
  · simp only [exec, execRelease, releaseLine, setDir_quiet hq hdata, finish_go]
  · have hgo := setDirDriving_quiet hq hp l
    refine ⟨_, hgo, by rw [driveLine, hgo, Flow.go_andThen], rfl, ?_, ?_, fun j hj => getElem?_modify_other _ _ _ _ hj⟩
    · simp [State.padOe, List.getElem?_eq_getElem hp]
    · simp [State.padO, List.getElem?_eq_getElem hp]

/-- Settles O37: the level of the pad's port sample, or that of an undriven pad. -/
theorem sampledLevel : Obligations.SampledLevel := by
  intro s p hq hp
  refine ⟨_, _, rdLvl_quiet hq hp, rfl, rfl, fun x rest driven henv hdriven => ?_, fun hundriven => ?_⟩
  · simp [sampleLevel, henv, hdriven]
  · have hnone : (s.env.headD Ports.quiet).padI p = none := by
      cases henv : s.env with
      | nil => rfl
      | cons x rest => exact hundriven x (by simp [henv])
    simp only [sampleLevel, hnone, Config.undriven, cond_eq_ite]

/-! ## The wire view of a micro-operation -/

/-- A run of events that adds cycles to the wire has them as its wire view. -/
theorem Adds.wireView {clk data : Pin} {events : List Event} {cycles : List Cycle} (h : Adds clk data events cycles) (pad : Pad) :
    wireView clk data pad events = cycles := (h (Wire.start pad) rfl rfl).1

/-- A WBITS adds a cycle per bit (40_link_driver.md R179). -/
theorem Adds.writeBits {clk data : Pin} (h : clk ≠ data) (n : Nat) (v : BitVec 64) :
    Adds clk data (writeBitsEvents clk data n v) (driveCycles v n) := by
  intro w hs hp
  rw [writeBitsEvents, Wire.run_writeLoop h v n 0 w hs hp]
  exact ⟨by simp [driveCycles], hs, hp⟩

/-- A WBIT adds one cycle. -/
theorem Adds.writeBit {clk data : Pin} (h : clk ≠ data) (b : Level) :
    Adds clk data (writeBitEvents clk data b) [⟨some b, none⟩] := by
  intro w hs _
  rw [Wire.run_writeBit h]
  exact ⟨by rw [hs], rfl, rfl⟩

/-- A drive of the data pad adds no cycle. -/
theorem Adds.drive {clk data : Pin} (h : clk ≠ data) (b : Level) : Adds clk data (driveEvents data b) [] := by
  intro w hs _
  rw [Wire.run_drive h]
  exact ⟨by simp, hs, rfl⟩

/-- A release of the data pad adds no cycle. -/
theorem Adds.release (clk data : Pin) : Adds clk data [.setDir data .input] [] := by
  intro w hs _
  rw [Wire.run_release]
  exact ⟨by simp, hs, rfl⟩

/-- ENTER adds no cycle. -/
theorem Adds.enter {clk data : Pin} (h : clk ≠ data) : Adds clk data (driveEvents clk .high) [] := by
  intro w _ _
  rw [Wire.run_enter h]
  exact ⟨by simp, rfl, rfl⟩

/-- A sample before an ENTER is dropped by it, so the line reset after it shows none (20_memory.md R97). -/
theorem Adds.sample_enter {clk data : Pin} (h : clk ≠ data) (l : Level) :
    Adds clk data ([.rdLvl data l] ++ driveEvents clk .high) [] := by
  intro w _ _
  rw [Wire.run_append, Wire.run_enter h]
  exact ⟨by simp [Wire.run, Wire.next], rfl, rfl⟩

/-- Settles O39: the cycles that each run of events adds to the wire of a pad before any pulse. -/
theorem wireViewOfMicroOps : Obligations.WireViewOfMicroOps := by
  intro clk data pad h
  refine ⟨?_, fun b => (Adds.drive h b).wireView pad, (Adds.release clk data).wireView pad, fun b => (Adds.writeBit h b).wireView pad,
    fun n v => (Adds.writeBits h n v).wireView pad, fun levels => (Adds.readBits h levels).wireView pad,
    (Adds.turn clk data).wireView pad, (Adds.resetLine h).wireView pad,
    fun l => ((Adds.sample_enter h l).append (Adds.resetLine h)).wireView pad⟩
  rw [wireView, Wire.run_pulse]
  rfl

/-! ## The loopback -/

/-- The levels that a value is sent as make its low bits again (40_link_driver.md R179, R182). -/
theorem valueOfLevels_bitLevel {n : Nat} (hn : n ≤ 64) (v : BitVec 64) :
    valueOfLevels ((List.range n).map (bitLevel v)) = lowBits n v := by
  apply BitVec.eq_of_getLsbD_eq
  intro i _
  rw [getLsbD_valueOfLevels_of_length (by simpa using hn), getLsbD_lowBits]
  by_cases hi : i < n
  · cases hbit : v.getLsbD i <;> simp [hi, hbit, bitLevel_eq, Level.toBool]
  · simp [hi]

/-- The low bits of a value that fits them are the value. -/
theorem lowBits_of_lt {n : Nat} {v : BitVec 64} (h : v.toNat < 2 ^ n) : lowBits n v = v := by
  apply BitVec.eq_of_toNat_eq
  simp [lowBits, Nat.mod_eq_of_lt h, Nat.mod_eq_of_lt v.isLt]

/-- Samples that each show a driven level draw those levels. -/
theorem drawLevels_eq {data : Pin} {k : Nat} {env : List Ports} {level : Nat → Level} (draws : Nat)
    (h : ∀ j < k, ∃ p, env[5 * j]? = some p ∧ p.padI data = some (level j)) :
    (drawLevels data k env draws).1 = (List.range k).map level := by
  apply List.ext_getElem?
  intro j
  by_cases hj : j < k
  · obtain ⟨p, hp, hl⟩ := h j hj
    simp [drawLevels_driven data k env draws j p (level j) hj hp hl, hj]
  · rw [List.getElem?_eq_none (by simpa [length_drawLevels] using hj), List.getElem?_eq_none (by simpa using hj)]

/-- Settles O38: the wire view of the WBITS gives the level of each sample of the RBITS, and those levels make the value again. -/
theorem loopbackRoundTrip : Obligations.LoopbackRoundTrip := by
  intro s t n v pad events hq hpair hne _ hn hv hwrite hhistory hline
  have hn64 : n.toNat ≤ 64 := by omega
  rw [exec_wbits hn64, writeBits_quiet hq hpair, finish_go] at hwrite
  obtain rfl := Host.Outcome.next.inj hwrite
  obtain rfl : sendEvents s.cur.clk s.cur.data s.config.verbosity n v = events := by
    simpa [sendEvents] using hhistory
  rw [(Adds.send hne s.config.verbosity n v).wireView pad] at hline
  have hdraw : ∀ draws, (drawLevels s.cur.data n.toNat ((s.env.drop (6 * n.toNat)).drop 1) draws).1 =
      (List.range n.toNat).map (bitLevel v) := by
    refine fun draws => drawLevels_eq draws fun j hj => ?_
    obtain ⟨p, l, hp, hl, hcycle⟩ := hline j hj
    obtain rfl : bitLevel v j = l := by simpa [driveCycles, hj] using hcycle
    exact ⟨p, by rw [List.getElem?_drop]; exact hp, hl⟩
  rw [exec_rbits hn64, readBits_quiet (by exact hq.drop _) (by
    simpa only [PairInRange, State.pinCount, length_padsAfterWrite] using hpair), finish_go]
  have hvalue : valueOfLevels ((List.range n.toNat).map (bitLevel v)) = v :=
    (valueOfLevels_bitLevel hn64 v).trans (lowBits_of_lt hv)
  exact ⟨_, rfl, by simp only [hdraw, hvalue], by simp only [hdraw, hvalue]⟩

end Sys2Proof.Machine
end

section
/-! PROOFS. A whole attempt on quiet ports: the micro-operations of its program, what a run of them leaves, and its wire view. -/

namespace Sys2Proof.Machine

/-! ## The micro-operations of a program -/

/-- The micro-operations of DORMANT (41_protocol_sequencer.md R222). -/
def dormantOps : List Instr :=
  [.wbits 8 0xFF, .wbits 32 0x6209F392, .wbits 32 0x86852D95, .wbits 32 0xE3DDAFE9, .wbits 32 0x19BC0EA2, .wbits 4 0, .wbits 8 0x1A,
    .lreset, .wbits 8 0]

/-- The micro-operations before the response is read (41_protocol_sequencer.md R230): ENTER, LINE_RESET, SWITCH, DORMANT if it is selected,
and the request of IDCODE. -/
def requestOps (idleSel dormantWake : Bool) : List Instr :=
  .enter :: .lreset :: .wbits 16 0xE79E :: .lreset :: .wbits (bif idleSel then 8 else 4) 0 ::
    ((bif dormantWake then dormantOps else []) ++ [Instr.wbits 8 0xA5, Instr.turn])

/-- The micro-operations between the read of the response and its decision (41_protocol_sequencer.md R223). -/
def closingOps : List Instr := [.turn, .wbits 8 0]

/-- The micro-operations of a program (41_protocol_sequencer.md R230). -/
def programOps (idleSel dormantWake : Bool) : List Instr :=
  requestOps idleSel dormantWake ++ Instr.rbits 36 :: (closingOps ++ [Instr.decode, Instr.exit])

/-- The rows of a program decode to its micro-operations. -/
theorem decode_program (idleSel dormantWake : Bool) :
    ((program idleSel dormantWake).map fun row => decodeUop row.words) =
      (programOps idleSel dormantWake).map fun i => .ok (i, []) := by
  cases idleSel <;> cases dormantWake <;> rfl

/-- Whether an instruction is a legal micro-operation. -/
def LegalUop (i : Instr) : Prop := i.isHost = false ∧ i.wellFormed = true

theorem programOps_legal (idleSel dormantWake : Bool) : ∀ i ∈ programOps idleSel dormantWake, LegalUop i := by
  unfold LegalUop
  cases idleSel <;> cases dormantWake <;> decide

/-- Whether an instruction samples no pad; only RBITS does. -/
def unsampled : Instr → Bool
  | .rbits _ => false
  | _ => true

/-! ## A run of rows on quiet ports -/

theorem Quiet.blockTurn {s : State} (h : Quiet s.env) : BlockTurn s := fun p hp =>
  have ⟨hrst, hhost, _⟩ := h p (List.mem_of_mem_head? hp)
  ⟨hrst, hhost⟩

/-- The attempt stands before these micro-operations, the last of its program, on quiet ports. -/
structure Before (ops : List Instr) (s : State) : Prop where
  quiet : Quiet s.env
  pair : PairInRange s
  pos : s.seq.pos = .attempt
  rows : ((s.seq.prog.drop s.seq.upc.toNat).map fun row => decodeUop row.words) = ops.map fun i => .ok (i, [])
  legal : ∀ i ∈ ops, LegalUop i
  upc_le : s.seq.upc.toNat ≤ s.seq.prog.length
  short : s.seq.prog.length < 256

/-- What `k` steps of an attempt with these events leave. -/
structure Performs (events : List Event) (k : Nat) (s t : State) : Prop where
  run : core.run k s = .next t
  history : t.history = s.history ++ events
  attempts : t.attempts = s.attempts
  config : t.config = s.config
  staging : t.staging = s.staging
  status : t.status = s.status
  result : t.result = s.result
  reads : t.reads = s.reads
  clk : t.cur.clk = s.cur.clk
  data : t.cur.data = s.cur.data
  pads : ∀ j : Nat, j ≠ s.cur.clk.toNat → j ≠ s.cur.data.toNat → t.pads[j]? = s.pads[j]?

/-- A run of steps goes on from where a shorter one has led. -/
theorem run_add {j : Nat} (k : Nat) : ∀ {s t : State}, core.run j s = .next t → core.run (j + k) s = core.run k t := by
  induction j with
  | zero =>
    intro s t h
    cases h
    rw [Nat.zero_add]
  | succ j ih =>
    intro s t h
    rw [Nat.succ_add]
    simp only [Host.Core.run] at h ⊢
    split at h
    · exact ih h
    · cases h
    · cases h

theorem run_one {s t : State} (h : step s = .next t) : core.run 1 s = .next t := by
  have hstep : core.step s = .next t := h
  simp only [Host.Core.run, hstep]

theorem Performs.refl (s : State) : Performs [] 0 s s :=
  ⟨rfl, (List.append_nil _).symm, rfl, rfl, rfl, rfl, rfl, rfl, rfl, rfl, fun _ _ _ => rfl⟩

theorem Performs.trans {es fs : List Event} {j k : Nat} {s t u : State} (h : Performs es j s t) (g : Performs fs k t u) :
    Performs (es ++ fs) (j + k) s u where
  run := (run_add k h.run).trans g.run
  history := by rw [g.history, h.history, List.append_assoc]
  attempts := g.attempts.trans h.attempts
  config := g.config.trans h.config
  staging := g.staging.trans h.staging
  status := g.status.trans h.status
  result := g.result.trans h.result
  reads := g.reads.trans h.reads
  clk := g.clk.trans h.clk
  data := g.data.trans h.data
  pads := fun j hc hd => (g.pads j (h.clk ▸ hc) (h.data ▸ hd)).trans (h.pads j hc hd)

/-- The row of the next micro-operation. -/
theorem Before.next_row {i : Instr} {ops : List Instr} {s : State} (h : Before (i :: ops) s) :
    ∃ row, s.seq.prog[s.seq.upc.toNat]? = some row ∧ decodeUop row.words = .ok (i, []) := by
  have hhead := congrArg List.head? h.rows
  simp only [List.head?_map, List.head?_drop, List.map_cons, List.head?_cons, Option.map_eq_some_iff] at hhead
  exact hhead

/-- One row of an attempt on quiet ports: its micro-operation completes, and the attempt stands before the rest. -/
theorem Before.step {i : Instr} {ops : List Instr} {s : State} (h : Before (i :: ops) s) :
    ∃ t levels stage, exec i { s with cur.stage := stage } = .next t ∧ Does i levels { s with cur.stage := stage } t ∧
      Performs (opEvents s.cur.clk s.cur.data s.config.verbosity levels i) 1 s t ∧ Before ops t := by
  obtain ⟨row, hrow, hdec⟩ := h.next_row
  obtain ⟨hlegal, hlegals⟩ := List.forall_mem_cons.1 h.legal
  obtain ⟨t, levels, ht, hdoes⟩ := exec_quiet i { s with cur.stage := row.stage } hlegal.1 hlegal.2 h.quiet h.pair
  have hlt : s.seq.upc.toNat < s.seq.prog.length := (List.getElem?_eq_some_iff.1 hrow).1
  have hupc : t.seq.upc.toNat = s.seq.upc.toNat + 1 := by
    have hshort := h.short
    rw [hdoes.upc, BitVec.toNat_add, Nat.mod_eq_of_lt (by simp; omega)]
    rfl
  refine ⟨t, levels, row.stage, ht, hdoes, ?_, ?_⟩
  · exact ⟨run_one ((step_row h.quiet.blockTurn h.pos hrow hdec).trans ht), hdoes.history, hdoes.attempts, hdoes.config, hdoes.staging,
      hdoes.status, hdoes.result, hdoes.reads, hdoes.clk, hdoes.data, hdoes.pads⟩
  · refine ⟨hdoes.quiet, ?_, hdoes.pos.trans h.pos, ?_, hlegals, ?_, ?_⟩
    · simpa only [PairInRange, State.pinCount, hdoes.clk, hdoes.data, hdoes.length] using h.pair
    · have htail := congrArg List.tail h.rows
      simpa only [hdoes.prog, hupc, List.map_drop, List.tail_drop, List.map_cons, List.tail_cons] using htail
    · rw [hdoes.prog, hupc]
      exact hlt
    · rw [hdoes.prog]
      exact h.short

/-- Without a sample the events of a micro-operation are the same for any levels. -/
theorem opEvents_unsampled {i : Instr} (hi : unsampled i = true) (clk data : Pin) (verb : Verbosity) (levels : List Level) :
    opEvents clk data verb levels i = opEvents clk data verb [] i := by
  cases i <;> simp only [unsampled, Bool.false_eq_true] at hi
  all_goals rfl

/-- Without a sample a micro-operation leaves RAWREG. -/
theorem Does.rawReg_unsampled {i : Instr} {levels : List Level} {s t : State} (h : Does i levels s t) (hi : unsampled i = true) :
    t.seq.rawReg = s.seq.rawReg := by
  rw [h.rawReg]
  cases i <;> simp only [unsampled, Bool.false_eq_true] at hi
  all_goals rfl

/-- Rows without samples: the attempt performs them one after the other and leaves RAWREG. -/
theorem Before.rows_unsampled {ops : List Instr} (hops : ops.all unsampled = true) :
    ∀ {rest : List Instr} {s : State}, Before (ops ++ rest) s →
      ∃ t, Performs (ops.flatMap (opEvents s.cur.clk s.cur.data s.config.verbosity [])) ops.length s t ∧ Before rest t ∧
        t.seq.rawReg = s.seq.rawReg := by
  induction ops with
  | nil => exact fun h => ⟨_, Performs.refl _, h, rfl⟩
  | cons i ops ih =>
    intro rest s h
    obtain ⟨hi, hops⟩ := Bool.and_eq_true_iff.1 (List.all_cons ▸ hops)
    obtain ⟨t, levels, _, -, hdoes, hone, hbefore⟩ := h.step
    obtain ⟨u, hmore, hrest, hraw⟩ := ih hops hbefore
    rw [opEvents_unsampled hi] at hone
    rw [hone.clk, hone.data, hone.config] at hmore
    refine ⟨u, ?_, hrest, hraw.trans (hdoes.rawReg_unsampled hi)⟩
    rw [List.flatMap_cons, List.length_cons, Nat.add_comm]
    exact hone.trans hmore

/-! ## The read, the decision and the end of an attempt -/

/-- The match predicate on the number of the raw response (41_protocol_sequencer.md R216; 30_encoding.md R155). -/
theorem matchOf_iff (raw : BitVec 36) : matchOf raw = true ↔ raw.toNat % 8 = 1 ∧ raw.toNat / 16 % 0x800 = 0x23B := by
  simp [matchOf, ackOf, manufacturerOf, Config.ackOk, Config.mfrExpected, ← BitVec.toNat_inj, Nat.shiftRight_eq_div_pow]

/-- EXIT on quiet ports releases data, then clk, and ends the attempt (41_protocol_sequencer.md R214). -/
theorem exec_exit_quiet {s : State} (h : Quiet s.env) (hp : PairInRange s) :
    exec .exit s = .next
      { s with
        pads :=
          (s.pads.modify s.cur.data.toNat fun pad => { pad with dir := .input }).modify s.cur.clk.toNat
            fun pad => { pad with dir := .input },
        cur := { s.cur with active := false, stage := .none },
        seq := { s.seq with upc := s.seq.upc + 1 },
        env := s.env.drop 2,
        history := s.history ++ [.setDir s.cur.data .input, .setDir s.cur.clk .input] } := by
  obtain ⟨hc, hd⟩ := hp
  simp only [exec, execExit]
  rw [setDir_quiet (by exact h) (by exact hd), Flow.go_andThen, setDir_quiet (by exact h.drop 1) (by simpa [State.pinCount] using hc),
    Flow.go_andThen, finish_go]
  simp [-List.drop_one]

/-- Releasing both pads of a pair leaves both Input. -/
theorem dir_of_release_pair {pads : List Pad} {c d i : Nat} {pad : Pad} (hi : i = c ∨ i = d)
    (h : ((pads.modify d fun pad => { pad with dir := .input }).modify c fun pad => { pad with dir := .input })[i]? = some pad) :
    pad.dir = .input :=
  dir_of_modify_input (fun _ hd hc => dir_of_modify_input (fun _ _ hne => absurd (hi.resolve_left hc) hne) hd) h

/-- What an attempt on (c, d) that has read this response ends with. -/
structure Ended (c d : Pin) (raw : BitVec 36) (t : State) : Prop where
  cur : t.cur = { clk := c, data := d, active := false, stage := .none }
  rawReg : t.seq.rawReg = raw
  matchReg : t.seq.matchReg = matchOf raw
  released : ∀ (i : Nat) (pad : Pad), t.pads[i]? = some pad → i = c.toNat ∨ i = d.toNat → pad.dir = .input

/-- The last two rows of an attempt: its decision and its end. -/
theorem Before.decide_exit {s : State} (h : Before [.decode, .exit] s) :
    ∃ t, Performs [.setDir s.cur.data .input, .setDir s.cur.clk .input] 2 s t ∧ Before [] t ∧
      Ended s.cur.clk s.cur.data s.seq.rawReg t := by
  obtain ⟨t, _, _, -, hdecode, hone, hbefore⟩ := h.step
  obtain ⟨u, _, stage, hexec, hexit, htwo, hend⟩ := hbefore.step
  have hu := Host.Outcome.next.inj (hexec.symm.trans (exec_exit_quiet hbefore.quiet hbefore.pair))
  refine ⟨u, ?_, hend, ?_, hexit.rawReg.trans hdecode.rawReg, hexit.matchReg.trans hdecode.matchReg, ?_⟩
  · have hboth := hone.trans htwo
    rwa [hdecode.clk, hdecode.data] at hboth
  · rw [hu, ← hdecode.clk, ← hdecode.data]
  · intro i pad hpad hi
    rw [hu] at hpad
    rw [← hdecode.clk, ← hdecode.data] at hi
    exact dir_of_release_pair hi hpad

/-! ## The wire view of an attempt -/

theorem Adds.switch {clk data : Pin} (h : clk ≠ data) (verb : Verbosity) (idleSel : Bool) :
    Adds clk data (switchEvents clk data verb idleSel)
      (driveCycles 0xE79E 16 ++ resetCycles ++ driveCycles 0 (idleBits idleSel)) := by
  have hidle : (bif idleSel then 8 else 4 : BitVec 7).toNat = idleBits idleSel := by cases idleSel <;> rfl
  exact hidle ▸ ((send h verb 16 _).append (resetLine h)).append (send h verb _ 0)

theorem Adds.dormant {clk data : Pin} (h : clk ≠ data) (verb : Verbosity) :
    Adds clk data (dormantEvents clk data verb) dormantCycles :=
  ((((((((send h verb 8 _).append (send h verb 32 _)).append (send h verb 32 _)).append (send h verb 32 _)).append
    (send h verb 32 _)).append (send h verb 4 _)).append (send h verb 8 _)).append (resetLine h)).append (send h verb 8 _)

theorem Adds.idCode {clk data : Pin} (h : clk ≠ data) (verb : Verbosity) (levels : List Level) :
    Adds clk data (idCodeEvents clk data verb levels)
      (driveCycles 0xA5 8 ++ [idleCycle] ++ sampleCycles levels ++ [] ++ [idleCycle] ++ driveCycles 0 8) :=
  (((((send h verb 8 _).append (turn clk data)).append (readBits h levels)).append (trace clk data verb .rx 36 _)).append
    (turn clk data)).append (send h verb 8 _)

/-- EXIT adds no cycle. -/
theorem Adds.exit {clk data : Pin} (h : clk ≠ data) : Adds clk data [.setDir data .input, .setDir clk .input] [] := by
  refine (release clk data).append (fs := [.setDir clk .input]) (ds := []) fun w hs _ => ?_
  rw [Wire.run_release_clk h]
  exact ⟨by simp, hs, rfl⟩

/-- An attempt adds the cycles of its stages (41_protocol_sequencer.md R235). -/
theorem Adds.attempt {clk data : Pin} (h : clk ≠ data) (verb : Verbosity) (idleSel dormantWake : Bool) (levels : List Level) :
    Adds clk data (attemptEvents clk data verb idleSel dormantWake levels) (attemptCycles idleSel dormantWake levels) := by
  have hdormant : Adds clk data (bif dormantWake then dormantEvents clk data verb else [])
      (bif dormantWake then dormantCycles else []) := by
    cases dormantWake
    · exact .nil clk data
    · exact .dormant h verb
  have hall := (((((enter h).append (resetLine h)).append (switch h verb idleSel)).append hdormant).append
    (idCode h verb levels)).append (exit h)
  simpa [attemptEvents, attemptCycles, driveEvents] using hall

/-! ## A whole attempt -/

/-- The events of the micro-operations of a program are those of an attempt (41_protocol_sequencer.md R230). -/
theorem programEvents_eq (clk data : Pin) (verb : Verbosity) (idleSel dormantWake : Bool) (levels : List Level) :
    (requestOps idleSel dormantWake).flatMap (opEvents clk data verb []) ++ (opEvents clk data verb levels (.rbits 36) ++
        (closingOps.flatMap (opEvents clk data verb []) ++ [Event.setDir data .input, Event.setDir clk .input])) =
      attemptEvents clk data verb idleSel dormantWake levels := by
  cases dormantWake <;>
    simp [requestOps, dormantOps, closingOps, opEvents, attemptEvents, switchEvents, dormantEvents, idCodeEvents]

/-- The micro-operations of a program, from its first: the events of an attempt, for whatever levels its samples draw. -/
theorem Before.performs_program {s : State} {idleSel dormantWake : Bool} (h : Before (programOps idleSel dormantWake) s) :
    ∃ t levels, levels.length = 36 ∧
      Performs (attemptEvents s.cur.clk s.cur.data s.config.verbosity idleSel dormantWake levels)
        (program idleSel dormantWake).length s t ∧
      Before [] t ∧ Ended s.cur.clk s.cur.data ((valueOfLevels levels).setWidth 36) t := by
  obtain ⟨t1, hrequest, hbefore1, -⟩ := h.rows_unsampled (by cases idleSel <;> cases dormantWake <;> decide)
  obtain ⟨t2, levels, _, -, hdoes, hread, hbefore2⟩ := hbefore1.step
  obtain ⟨t3, hclosing, hbefore3, hraw⟩ := hbefore2.rows_unsampled (by decide)
  obtain ⟨t4, hexit, hbefore4, hended⟩ := hbefore3.decide_exit
  have hclk : t3.cur.clk = s.cur.clk := hclosing.clk.trans (hread.clk.trans hrequest.clk)
  have hdata : t3.cur.data = s.cur.data := hclosing.data.trans (hread.data.trans hrequest.data)
  have hraw3 : t3.seq.rawReg = (valueOfLevels levels).setWidth 36 := hraw.trans hdoes.rawReg
  refine ⟨t4, levels, hdoes.levels 36 rfl, ?_, hbefore4, ?_⟩
  · have hall := hrequest.trans (hread.trans (hclosing.trans hexit))
    have hlength := congrArg List.length (decode_program idleSel dormantWake)
    rw [List.length_map, List.length_map, programOps, List.length_append, List.length_cons, List.length_append] at hlength
    rw [← programEvents_eq, hlength, Nat.add_comm _ 1]
    rwa [hclk, hdata, hread.clk, hread.data, hread.config, hrequest.clk, hrequest.data, hrequest.config] at hall
  · rwa [hclk, hdata, hraw3] at hended

/-- Past its last micro-operation an attempt stands at the end of its program. -/
theorem Before.upc_eq_length {s : State} (h : Before [] s) : s.seq.upc.toNat = s.seq.prog.length :=
  Nat.le_antisymm h.upc_le (List.drop_eq_nil_iff.1 (List.map_eq_nil_iff.1 h.rows))

/-- The start of an attempt is one step (41_protocol_sequencer.md R231). -/
theorem step_begin {s : State} {c d : Pin} (hturn : BlockTurn s) (hpos : s.seq.pos = .begin c d) :
    step s = .next (State.startAttempt { s with env := s.env.drop 1 } c d) := by
  simp only [step_of_blockTurn hturn, blockStep, hpos, bookkeeping_of_blockTurn hturn]

/-- A started attempt stands before the micro-operations of its program. -/
theorem before_startAttempt {s : State} {c d : Pin} (hq : Quiet s.env) (hc : c.toNat < s.pinCount) (hd : d.toNat < s.pinCount) :
    Before (programOps s.config.idleSel s.config.dormantWake) (s.startAttempt c d) where
  quiet := hq
  pair := ⟨hc, hd⟩
  pos := rfl
  rows := decode_program _ _
  legal := programOps_legal _ _
  upc_le := Nat.zero_le _
  short := by
    rw [State.startAttempt_seq_prog, length_program]
    split <;> decide

/-- Settles O44: the start of the attempt, then the rows of its program, whose events add the cycles of the attempt to the wire. -/
theorem attemptPerformsItsProgram : Obligations.AttemptPerformsItsProgram := by
  intro s c d hpos hne hc hd hq
  have hstart := run_one (step_begin hq.blockTurn hpos)
  obtain ⟨t, levels, hlevels, hperforms, hend, hended⟩ :=
    (before_startAttempt (s := { s with env := s.env.drop 1 }) (hq.drop 1) hc hd).performs_program
  refine ⟨t, levels, (run_add _ hstart).trans hperforms.run, hlevels, hperforms.history, hended.cur, hend.pos, hend.upc_eq_length,
    hended.rawReg, ?_, hended.released, hperforms.pads, ?_, ?_, hperforms.config, hperforms.staging, hperforms.status,
    hperforms.result, hperforms.reads⟩
  · rw [hended.matchReg, hended.rawReg]
    exact matchOf_iff _
  · rw [wireView_of_start hperforms.attempts rfl hperforms.history]
    exact congrArg _ ((Adds.attempt hne _ _ _ _).wireView _)
  · rw [hperforms.attempts]
    rfl

end Sys2Proof.Machine
end

section
/-! PROOFS. The two encodings: the word of an opcode and an operand field, the words that the decoder of each encoding accepts, which are
the encoder's, the words that are no micro-operation, and what the machine does with them. -/

namespace Sys2Proof.Machine

/-! ## The word of an opcode and an operand field -/

/-- The word with `op` in its low four bits, `x` at bit k and 0 elsewhere (30_encoding.md R130, R140). -/
def operandWord {n : Nat} (op : BitVec 4) (k : Nat) (x : BitVec n) : Word := op.setWidth 32 ||| x.setWidth 32 <<< k

/-- The bits of a word beside its opcode and an operand field of n bits at bit k; a decoder's mask of zero bits is one of these. -/
def besideMask (k n : Nat) : Word := ~~~((BitVec.allOnes 4).setWidth 32 ||| (BitVec.allOnes n).setWidth 32 <<< k)

theorem getLsbD_besideMask (k n : Nat) {i : Nat} (hi : i < 32) :
    (besideMask k n).getLsbD i = true ↔ 4 ≤ i ∧ (i < k ∨ k + n ≤ i) := by
  simp only [besideMask, BitVec.getLsbD_not, BitVec.getLsbD_or, BitVec.getLsbD_shiftLeft, BitVec.getLsbD_setWidth,
    BitVec.getLsbD_allOnes, hi, show i - k < 32 by omega]
  grind

theorem getLsbD_operandWord {n : Nat} (op : BitVec 4) (k : Nat) (x : BitVec n) {i : Nat} (hi : i < 32) :
    (operandWord op k x).getLsbD i = (op.getLsbD i || !decide (i < k) && x.getLsbD (i - k)) := by
  simp [operandWord, hi]

theorem opcode_operandWord {n k : Nat} (hk : 4 ≤ k) (op : BitVec 4) (x : BitVec n) :
    ((operandWord op k x).extractLsb' 0 4).toNat = op.toNat := by
  simp [operandWord, BitVec.extractLsb'_or, hk]

theorem field_operandWord {n k : Nat} (hk : 4 ≤ k) (hn : k + n ≤ 32) (op : BitVec 4) (x : BitVec n) :
    (operandWord op k x).extractLsb' k n = x := by
  simp [operandWord, BitVec.extractLsb'_or, hk, hn]

theorem zeroBits_operandWord {n : Nat} (op : BitVec 4) (k : Nat) (x : BitVec n) :
    zeroBits (besideMask k n) (operandWord op k x) = true := by
  refine (zeroBits_iff _ _).2 fun i hi hbeside => ?_
  obtain ⟨hop, hx⟩ := (getLsbD_besideMask k n hi).1 hbeside
  rw [getLsbD_operandWord _ _ _ hi, BitVec.getLsbD_of_ge op i hop]
  rcases hx with hx | hx
  · simp [hx]
  · simp [BitVec.getLsbD_of_ge x (i - k) (by omega)]

/-- A word whose bits beside its opcode and its operand field are 0 is the word of the two: no bit of it is dropped. -/
theorem eq_operandWord {w : Word} {op : Nat} (k n : Nat) (hk : 4 ≤ k) (hop : (w.extractLsb' 0 4).toNat = op)
    (hzero : zeroBits (besideMask k n) w = true) : w = operandWord (BitVec.ofNat 4 op) k (w.extractLsb' k n) := by
  subst hop
  apply BitVec.eq_of_getLsbD_eq
  intro i hi
  rw [getLsbD_operandWord _ _ _ hi, BitVec.ofNat_toNat, BitVec.setWidth_eq, BitVec.getLsbD_extractLsb', BitVec.getLsbD_extractLsb']
  by_cases hlow : i < 4
  · simp [hlow, show i < k by omega]
  · by_cases hfield : k ≤ i ∧ i < k + n
    · simp [hlow, show ¬i < k by omega, show i - k < n by omega, show k + (i - k) = i by omega]
    · have hbit : w.getLsbD i = false := (zeroBits_iff _ _).1 hzero i hi ((getLsbD_besideMask k n hi).2 (by omega))
      have hout : i < k ∨ ¬i - k < n := by omega
      rcases hout with h | h <;> simp [hbit, hlow, h]

/-- A word without an operand is its opcode. -/
theorem eq_plainWord {w : Word} {op : Nat} (hop : (w.extractLsb' 0 4).toNat = op) (hzero : zeroBits 0xFFFFFFF0 w = true) :
    w = operandWord (BitVec.ofNat 4 op) 4 0#0 := by
  have hword := eq_operandWord 4 0 (by decide) hop hzero
  rwa [BitVec.of_length_zero (x := w.extractLsb' 4 0)] at hword

/-- Two neighbouring fields of a word are one field. -/
theorem append_field {m n : Nat} (y : BitVec m) (x : BitVec n) (k : Nat) :
    ((y ++ x).setWidth 32 : Word) <<< k = x.setWidth 32 <<< k ||| y.setWidth 32 <<< (k + n) := by
  apply BitVec.eq_of_getLsbD_eq
  intro i hi
  simp only [BitVec.getLsbD_or, BitVec.getLsbD_shiftLeft, BitVec.getLsbD_setWidth, BitVec.getLsbD_append, hi]
  grind

/-- A flag read from a word is a field of one bit. -/
theorem ofBool_getLsbD (w : Word) (k : Nat) : BitVec.ofBool (w.getLsbD k) = w.extractLsb' k 1 := by
  apply BitVec.eq_of_getLsbD_eq
  simp

/-! ## The host command word -/

/-- The operand field of CONFIGURE holds its flags and VERB (30_encoding.md R133). -/
theorem encode_configure (boh : Bool) (verb : Verbosity) (dorm idle : Bool) :
    encode (.configure boh verb dorm idle) =
      [operandWord 1 8 (BitVec.ofBool idle ++ (BitVec.ofBool dorm ++ (verb.bits ++ BitVec.ofBool boh)))] := by
  simp only [encode, operandWord, append_field, bit_eq, BitVec.or_assoc]
  rfl

/-- The operand field of TEST_PAIR holds its two pins (30_encoding.md R134). -/
theorem encode_testPair (c d : Pin) : encode (.testPair c d) = [operandWord 3 8 (d ++ c)] := by
  simp only [encode, operandWord, append_field, BitVec.or_assoc]
  rfl

theorem ofBits?_eq_some (b : BitVec 2) (verb : Verbosity) : Verbosity.ofBits? b = some verb ↔ b = verb.bits := by
  revert b
  cases verb <;> decide

/-- CONFIGURE decodes to itself: its operands have 24 values. -/
theorem decodeHost_configure (boh : Bool) (verb : Verbosity) (dorm idle : Bool) :
    ∃ w, encode (.configure boh verb dorm idle) = [w] ∧ decodeHost w = .ok (.configure boh verb dorm idle) := by
  refine ⟨_, rfl, ?_⟩
  revert boh dorm idle
  cases verb <;> decide

/-- TEST_PAIR decodes to itself, with any two pins. -/
theorem decodeHost_testPair (c d : Pin) : decodeHost (operandWord 3 8 (d ++ c)) = .ok (.testPair c d) := by
  have hop : ((operandWord 3 8 (d ++ c)).extractLsb' 0 4).toNat = 3 := opcode_operandWord (by decide) 3 (d ++ c)
  have hzero : zeroBits 0xFF0000F0 (operandWord 3 8 (d ++ c)) = true := zeroBits_operandWord 3 8 (d ++ c)
  have hc : (operandWord 3 8 (d ++ c)).extractLsb' 8 8 = c := by
    rw [operandWord, append_field]
    simp [BitVec.extractLsb'_or]
  have hd : (operandWord 3 8 (d ++ c)).extractLsb' 16 8 = d := by
    rw [operandWord, append_field]
    simp [BitVec.extractLsb'_or]
  simp only [decodeHost, hop, hzero, hc, hd, if_true]

/-- Settles O1: the two commands with operands by their fields, the others by their one word. -/
theorem hostCommandsDecodeToThemselves : Obligations.HostCommandsDecodeToThemselves := by
  intro i hi
  cases i
  case configure boh verb dorm idle => exact decodeHost_configure boh verb dorm idle
  case testPair c d => exact ⟨_, encode_testPair c d, decodeHost_testPair c d⟩
  case scan | pop | cancel => exact ⟨_, rfl, rfl⟩
  case pulse | drive | release | wbit | wbits | rbits | turn | lreset | enter | exit | decode => cases hi

/-- A word that decodes to a command is the word of that command: its fields are the operands and its other bits are checked. -/
theorem encode_of_decodeHost {w : Word} {i : Instr} (h : decodeHost w = .ok i) : encode i = [w] := by
  unfold decodeHost at h
  split at h
  case h_1 hop =>
    split at h
    case isFalse => cases h
    case isTrue hzero =>
      split at h
      case h_2 => cases h
      case h_1 verb hverb =>
        cases h
        rw [encode_configure, ← (ofBits?_eq_some _ _).1 hverb, ofBool_getLsbD, ofBool_getLsbD, ofBool_getLsbD,
          BitVec.extractLsb'_append_extractLsb'_eq_extractLsb' (by rfl),
          BitVec.extractLsb'_append_extractLsb'_eq_extractLsb' (by rfl),
          BitVec.extractLsb'_append_extractLsb'_eq_extractLsb' (by rfl)]
        exact congrArg (fun w => [w]) (eq_operandWord 8 5 (by decide) hop hzero).symm
  case h_3 hop =>
    split at h
    case isFalse => cases h
    case isTrue hzero =>
      cases h
      rw [encode_testPair, BitVec.extractLsb'_append_extractLsb'_eq_extractLsb' (by rfl)]
      exact congrArg (fun w => [w]) (eq_operandWord 8 16 (by decide) hop hzero).symm
  case h_2 hop | h_4 hop | h_5 hop =>
    split at h
    case isFalse => cases h
    case isTrue hzero =>
      cases h
      rw [eq_plainWord hop hzero]
      rfl
  case h_6 => cases h

/-! ## The words of a micro-operation -/

theorem countField_operandWord (op : BitVec 4) {n : BitVec 7} (hn : bitCountOk n = true) :
    countField (operandWord op 8 n) = some n := by
  have hzero : zeroBits 0xFFFF80F0 (operandWord op 8 n) = true := zeroBits_operandWord op 8 n
  have hcount : (operandWord op 8 n).extractLsb' 8 7 = n := field_operandWord (by decide) (by decide) op n
  simp only [countField, hzero, hcount, hn, Bool.and_self, if_true]

/-- The two data words of WBITS hold its value (30_encoding.md R140). -/
theorem append_halves (v : BitVec 64) : v.extractLsb' 32 32 ++ v.extractLsb' 0 32 = v :=
  (BitVec.extractLsb'_append_extractLsb'_eq_extractLsb' (by rfl)).trans (by simp)

theorem decodeUop_wbits {n : BitVec 7} (hn : bitCountOk n = true) (v : BitVec 64) (after : List Word) :
    decodeUop (encode (.wbits n v) ++ after) = .ok (.wbits n v, after) := by
  have hop : ((operandWord 5 8 n).extractLsb' 0 4).toNat = 5 := opcode_operandWord (by decide) 5 n
  have hwords : encode (.wbits n v) = [operandWord 5 8 n, v.extractLsb' 0 32, v.extractLsb' 32 32] := rfl
  simp only [hwords, List.cons_append, List.nil_append, decodeUop, hop, countField_operandWord 5 hn, append_halves]

theorem decodeUop_rbits {n : BitVec 7} (hn : bitCountOk n = true) (after : List Word) :
    decodeUop (encode (.rbits n) ++ after) = .ok (.rbits n, after) := by
  have hop : ((operandWord 6 8 n).extractLsb' 0 4).toNat = 6 := opcode_operandWord (by decide) 6 n
  have hwords : encode (.rbits n) = [operandWord 6 8 n] := rfl
  simp only [hwords, List.cons_append, List.nil_append, decodeUop, hop, countField_operandWord 6 hn]

/-- Settles O2: the two micro-operations with a count by their fields, the others by their one word. -/
theorem microOpsDecodeToThemselves : Obligations.MicroOpsDecodeToThemselves := by
  intro i after hi hw
  cases i
  case wbits n v => exact decodeUop_wbits hw v after
  case rbits n => exact decodeUop_rbits hw after
  case drive b | wbit b => cases b <;> rfl
  case pulse | release | turn | lreset | enter | exit | decode => rfl
  case configure | scan | testPair | pop | cancel => cases hi

/-- A word that `plainUop` accepts is that of its micro-operation. -/
theorem encode_of_plainUop {w : Word} {op : Nat} {i j : Instr} {rest after : List Word} (hop : (w.extractLsb' 0 4).toNat = op)
    (hlegal : LegalUop i) (hword : encode i = [operandWord (BitVec.ofNat 4 op) 4 0#0]) (h : plainUop i w rest = .ok (j, after)) :
    LegalUop j ∧ w :: rest = encode j ++ after := by
  unfold plainUop at h
  split at h
  case isFalse => cases h
  case isTrue hzero =>
    cases h
    rw [hword, ← eq_plainWord hop hzero]
    exact ⟨hlegal, rfl⟩

/-- A word that `levelUop` accepts is that of its micro-operation with the level BV. -/
theorem encode_of_levelUop {w : Word} {op : Nat} {f : Level → Instr} {j : Instr} {rest after : List Word}
    (hop : (w.extractLsb' 0 4).toNat = op) (hlegal : ∀ b, LegalUop (f b))
    (hword : ∀ b, encode (f (Level.ofBool b)) = [operandWord (BitVec.ofNat 4 op) 4 (BitVec.ofBool b)])
    (h : levelUop f w rest = .ok (j, after)) : LegalUop j ∧ w :: rest = encode j ++ after := by
  unfold levelUop at h
  split at h
  case isFalse => cases h
  case isTrue hzero =>
    cases h
    rw [hword, ofBool_getLsbD, ← eq_operandWord 4 1 (by decide) hop hzero]
    exact ⟨hlegal _, rfl⟩

theorem countField_eq_some {w : Word} {op : Nat} {n : BitVec 7} (hop : (w.extractLsb' 0 4).toNat = op) (h : countField w = some n) :
    bitCountOk n = true ∧ w = operandWord (BitVec.ofNat 4 op) 8 n := by
  simp only [countField] at h
  split at h
  case isFalse => cases h
  case isTrue hok =>
    cases h
    obtain ⟨hzero, hn⟩ := (Bool.and_eq_true _ _).mp hok
    exact ⟨hn, eq_operandWord 8 7 (by decide) hop hzero⟩

/-- Words that decode to a micro-operation are its words and the words after it, and it is legal. -/
theorem encode_of_decodeUop {ws after : List Word} {i : Instr} (h : decodeUop ws = .ok (i, after)) :
    LegalUop i ∧ ws = encode i ++ after := by
  cases ws with
  | nil => cases h
  | cons w rest =>
    simp only [decodeUop] at h
    split at h
    case h_2 hop | h_4 hop => exact encode_of_levelUop hop (fun _ => ⟨rfl, rfl⟩) (fun b => by cases b <;> rfl) h
    case h_5 hop =>
      split at h
      case h_1 => cases h
      case h_2 n hcount =>
        obtain ⟨hn, hw⟩ := countField_eq_some hop hcount
        split at h
        case h_2 => cases h
        case h_1 l0 l1 after =>
          cases h
          have hlo : (l1 ++ l0).extractLsb' 0 32 = l0 := BitVec.extractLsb'_append_eq_right
          have hhi : (l1 ++ l0).extractLsb' 32 32 = l1 := BitVec.extractLsb'_append_eq_left
          rw [encode, hlo, hhi, hw]
          exact ⟨⟨rfl, hn⟩, rfl⟩
    case h_6 hop =>
      split at h
      case h_1 => cases h
      case h_2 n hcount =>
        obtain ⟨hn, hw⟩ := countField_eq_some hop hcount
        cases h
        rw [hw]
        exact ⟨⟨rfl, hn⟩, rfl⟩
    case h_1 hop | h_3 hop | h_7 hop | h_8 hop | h_9 hop | h_10 hop | h_11 hop =>
      exact encode_of_plainUop hop ⟨rfl, rfl⟩ rfl h
    case h_12 => cases h

/-- Settles O3: each decoder checks every bit that its instruction does not carry. -/
theorem decodedWordsEncodeBack : Obligations.DecodedWordsEncodeBack := by
  refine ⟨fun w i h => ⟨isHost_of_decodeHost h, encode_of_decodeHost h⟩, fun ws after i h => ?_⟩
  obtain ⟨⟨hi, hw⟩, hws⟩ := encode_of_decodeUop h
  exact ⟨hi, hw, hws⟩

/-- Settles O4, by evaluating the decoders on each word. -/
theorem writtenOutWordsDecode : Obligations.WrittenOutWordsDecode := by
  refine ⟨?_, ?_, ?_, ?_, ?_, ?_, ?_, ?_⟩ <;> rfl

/-! ## Words that are no micro-operation -/

/-- The first word of a micro-operation, with an operand field of n bits at bit k: no field, BV or N, as its UOP requires
(30_encoding.md R143). -/
structure UopFormat (w : Word) (k n : Nat) : Prop where
  zero : zeroBits (besideMask k n) w = true
  field : ((w.extractLsb' 0 4).toNat ∈ [1, 3, 7, 8, 9, 10, 11] ∧ k = 4 ∧ n = 0) ∨
    ((w.extractLsb' 0 4).toNat ∈ [2, 4] ∧ k = 4 ∧ n = 1) ∨
      ((w.extractLsb' 0 4).toNat ∈ [5, 6] ∧ k = 8 ∧ n = 7 ∧ (w.extractLsb' 8 7).toNat ≤ 64)

theorem uopFormat_count {op : BitVec 4} {n : BitVec 7} (hop : op.toNat ∈ [5, 6]) (hn : bitCountOk n = true) :
    UopFormat (operandWord op 8 n) 8 7 where
  zero := zeroBits_operandWord op 8 n
  field := by
    rw [opcode_operandWord (by decide), field_operandWord (by decide) (by decide)]
    exact .inr (.inr ⟨hop, rfl, rfl, of_decide_eq_true hn⟩)

/-- A word from which the decoder reads a micro-operation has the format of its UOP. -/
theorem uopFormat_of_decodeUop {w : Word} {rest after : List Word} {i : Instr} (h : decodeUop (w :: rest) = .ok (i, after)) :
    ∃ k n, UopFormat w k n := by
  obtain ⟨⟨hi, hn⟩, hws⟩ := encode_of_decodeUop h
  cases i
  case wbits n v =>
    rw [(List.cons.inj hws).1]
    exact ⟨8, 7, uopFormat_count (op := 5) (by decide) hn⟩
  case rbits n =>
    rw [(List.cons.inj hws).1]
    exact ⟨8, 7, uopFormat_count (op := 6) (by decide) hn⟩
  case drive b | wbit b =>
    rw [(List.cons.inj hws).1]
    cases b <;> exact ⟨4, 1, by decide, by decide⟩
  case pulse | release | turn | lreset | enter | exit | decode =>
    rw [(List.cons.inj hws).1]
    exact ⟨4, 0, by decide, by decide⟩
  case configure | scan | testPair | pop | cancel => cases hi

theorem UopFormat.beside {w : Word} {k n i : Nat} (h : UopFormat w k n) (h4 : 4 ≤ i) (hi : i < k ∨ k + n ≤ i) :
    ¬w.getLsbD i = true := by
  by_cases h32 : i < 32
  · simpa using (zeroBits_iff _ _).1 h.zero i h32 ((getLsbD_besideMask k n h32).2 ⟨h4, hi⟩)
  · simp [BitVec.getLsbD_of_ge w i (by omega)]

/-- An operand field below N leaves N 0. -/
theorem UopFormat.count_eq_zero {w : Word} {k n : Nat} (h : UopFormat w k n) (hn : k + n < 8) : w.extractLsb' 8 7 = 0 := by
  apply BitVec.eq_of_getLsbD_eq
  intro i hi
  simpa [hi] using h.beside (i := 8 + i) (by omega) (by omega)

/-- Settles O5: a word that decodes has the format of its UOP, which contradicts each clause. -/
theorem illegalMicroOpWordsAreInvalid : Obligations.IllegalMicroOpWordsAreInvalid := by
  intro w after hillegal
  cases hdec : decodeUop (w :: after) with
  | error e => exact ⟨e, rfl⟩
  | ok r =>
    exfalso
    obtain ⟨k, n, hformat⟩ := uopFormat_of_decodeUop hdec
    have hfield := hformat.field
    simp only [List.mem_cons, List.not_mem_nil, or_false] at hfield
    rcases hillegal with h | h | ⟨i, hi, hi', h⟩ | ⟨i, hi, -, h⟩ | ⟨hop, h⟩ | ⟨hop, h⟩ | h
    · omega
    · omega
    · exact hformat.beside (by omega) (by omega) h
    · exact hformat.beside (by omega) (by omega) h
    · exact hformat.beside (by omega) (by omega) h
    · exact h (hformat.count_eq_zero (by omega))
    · have hcount : ¬k + n < 8 := fun hn => by simp [hformat.count_eq_zero hn] at h
      omega

/-- A row of PROG whose words do not decode is not executed (30_encoding.md R144). -/
theorem step_refusedRow {s : State} {row : ProgRow} {e : UopError} (hturn : BlockTurn s) (hpos : s.seq.pos = .attempt)
    (hrow : s.seq.prog[s.seq.upc.toNat]? = some row) (hdec : decodeUop row.words = .error e) : step s = .refused .illegalMicroOp := by
  simp only [step_of_blockTurn hturn, blockStep, hpos, attemptStep, hrow, hdec]

/-- Settles O7: the row by the decoder's answer, WBITS and RBITS by their own check of N. -/
theorem invalidMicroOpsAreRefused : Obligations.InvalidMicroOpsAreRefused := by
  refine ⟨fun s row e => step_refusedRow, fun s n v hn => ?_⟩
  have hbad : ¬bitCountOk n = true := fun h => absurd (of_decide_eq_true h) (Nat.not_le.2 hn)
  exact ⟨if_neg hbad, if_neg hbad⟩

end Sys2Proof.Machine
end

section
/-! PROOFS. PULSE, WBIT, TURN and LRESET on quiet ports, each in the state it leaves. -/

namespace Sys2Proof.Machine

/-- Settles O31: the state that a pulse leaves. -/
theorem pulseResult : Obligations.PulseResult := by
  intro s hq ⟨hclk, _⟩
  simp only [exec, execPulse, pulseClock_quiet hq hclk, finish_go]
  rfl

/-- turnaround on quiet ports (40_link_driver.md R185). -/
theorem turnaround_quiet {s : State} (h : Quiet s.env) (hp : PairInRange s) :
    turnaround s =
      .go ()
        { s with
          pads :=
            (s.pads.modify s.cur.data.toNat fun pad => { pad with dir := .input }).modify s.cur.clk.toNat
              fun pad => { pad with out := .high },
          seq.timer := 0,
          env := s.env.drop 5,
          history := s.history ++ turnEvents s.cur.clk s.cur.data } := by
  have hclk : s.cur.clk.toNat < s.pads.length := hp.1
  rw [turnaround, releaseLine, setDir_quiet h hp.2, Flow.go_andThen, pulseClock_quiet (h.drop 1) (by simpa using hclk)]
  simp [-List.drop_one, turnEvents]

/-- resetLine on quiet ports (40_link_driver.md R188). -/
theorem resetLine_quiet {s : State} (h : Quiet s.env) (hp : PairInRange s) :
    resetLine s =
      .go ()
        { s with
          pads :=
            (s.pads.modify s.cur.data.toNat fun _ => ⟨.output, .high⟩).modify s.cur.clk.toNat fun pad => { pad with out := .high },
          seq := { s.seq with pcnt := 64, timer := 0 },
          env := s.env.drop 258,
          history := s.history ++ resetLineEvents s.cur.clk s.cur.data } := by
  have hclk : s.cur.clk.toNat < s.pads.length := hp.1
  rw [resetLine, driveLine_quiet (by exact h) (by exact hp.2), Flow.go_andThen,
    pulseLoop_quiet _ _ _ _ (by exact h.drop 2) (by simpa using hclk)]
  simp [Config.resetPulses, resetLineEvents]

/-- Settles O33: the states that a written bit and a turnaround leave. -/
theorem writeBitAndTurnResults : Obligations.WriteBitAndTurnResults := by
  intro s hq hp
  refine ⟨fun b => ?_, ?_⟩
  · simp only [exec, execWbit, writeBit_quiet hq hp.1 hp.2, finish_go]
    rfl
  · simp only [exec, execTurn, turnaround_quiet hq hp, finish_go]
    rfl

/-- Settles O36: the state that a line reset leaves; its events after the drive are 64 pulses'. -/
theorem lineResetResult : Obligations.LineResetResult := by
  intro s hq hp
  simp only [exec, execLreset, resetLine_quiet hq hp, finish_go, resetLineEvents, pulsesEvents_eq]
  rfl

end Sys2Proof.Machine
end

section
/-! PROOFS. Pad faults in a micro-operation without resets and host accesses: its primitives up to the first that fails, and the fault
entry. -/

namespace Sys2Proof.Machine

/-! ## The primitives of a micro-operation -/

/-- Neither a reset nor a host access is to come, and the pads of the pair exist. -/
structure Undisturbed (s : State) : Prop where
  noReset : NoReset s.env
  noHost : NoHost s.env
  pair : PairInRange s

/-- No event of the run is a trace record. -/
def Untraced (events : List Event) : Prop := ∀ e ∈ events, e.traceRec? = none

theorem Untraced.append {es fs : List Event} (h : Untraced es) (k : Untraced fs) : Untraced (es ++ fs) := fun e he =>
  (List.mem_append.1 he).elim (h e) (k e)

/-- What `n` primitives on the pads of the pair leave, whether they fail or not, if these are their events. -/
structure AfterPrimitives (n : Nat) (events : List Event) (s t : State) : Prop where
  frame :
    t = { s with
          pads := t.pads, seq := { s.seq with bitCnt := t.seq.bitCnt, timer := t.seq.timer }, env := t.env, history := t.history,
          draws := t.draws }
  env : t.env = s.env.drop n
  history : t.history = s.history ++ events
  length : t.pads.length = s.pads.length
  pads : ∀ j : Nat, j ≠ s.cur.clk.toNat → j ≠ s.cur.data.toNat → t.pads[j]? = s.pads[j]?

namespace AfterPrimitives

variable {m n : Nat} {es fs : List Event} {s t u : State}

theorem cur (h : AfterPrimitives n es s t) : t.cur = s.cur := (congrArg State.cur h.frame :)
theorem clk (h : AfterPrimitives n es s t) : t.cur.clk = s.cur.clk := congrArg Current.clk h.cur
theorem data (h : AfterPrimitives n es s t) : t.cur.data = s.cur.data := congrArg Current.data h.cur
theorem status (h : AfterPrimitives n es s t) : t.status = s.status := (congrArg State.status h.frame :)
theorem result (h : AfterPrimitives n es s t) : t.result = s.result := (congrArg State.result h.frame :)
theorem config (h : AfterPrimitives n es s t) : t.config = s.config := (congrArg State.config h.frame :)
theorem upc (h : AfterPrimitives n es s t) : t.seq.upc = s.seq.upc := (congrArg (·.seq.upc) h.frame :)
theorem sr (h : AfterPrimitives n es s t) : t.seq.sr = s.seq.sr := (congrArg (·.seq.sr) h.frame :)
theorem rawReg (h : AfterPrimitives n es s t) : t.seq.rawReg = s.seq.rawReg := (congrArg (·.seq.rawReg) h.frame :)

theorem refl (s : State) : AfterPrimitives 0 [] s s := ⟨rfl, rfl, by simp, rfl, fun _ _ _ => rfl⟩

theorem trans (h : AfterPrimitives m es s t) (k : AfterPrimitives n fs t u) : AfterPrimitives (m + n) (es ++ fs) s u where
  frame := k.frame.trans (by rw [h.frame])
  env := by rw [k.env, h.env, List.drop_drop]
  history := by rw [k.history, h.history, List.append_assoc]
  length := k.length.trans h.length
  pads j hc hd := (k.pads j (h.cur ▸ hc) (h.cur ▸ hd)).trans (h.pads j hc hd)

theorem bitCnt (h : AfterPrimitives n es s t) (c : BitVec 7) : AfterPrimitives n es s { t with seq.bitCnt := c } :=
  ⟨by rw [h.frame], h.env, h.history, h.length, h.pads⟩

theorem undisturbed (h : AfterPrimitives n es s t) (hs : Undisturbed s) : Undisturbed t := by
  obtain ⟨hreset, hhost, hclk, hdata⟩ := hs
  refine ⟨fun p hp => hreset p ?_, fun p hp => hhost p ?_, ?_⟩
  · exact List.mem_of_mem_drop (h.env ▸ hp)
  · exact List.mem_of_mem_drop (h.env ▸ hp)
  · unfold PairInRange State.pinCount
    rw [h.cur, h.length]
    exact ⟨hclk, hdata⟩

/-- Events that are no trace records leave the trace output as it was. -/
theorem traceOutput (h : AfterPrimitives n es s t) (hes : Untraced es) : t.traceOutput = s.traceOutput := by
  rw [State.traceOutput, h.history, List.filterMap_append, List.filterMap_eq_nil_iff.2 hes, List.append_nil]
  rfl

end AfterPrimitives

/-- One primitive on a pad of the pair, which draws some free values and replaces the pad. -/
theorem afterPrimitives_mapPad (s : State) {p : Pin} (hp : p = s.cur.clk ∨ p = s.cur.data) (f : Pad → Pad) (draws : Nat)
    (events : List Event) :
    AfterPrimitives 1 events s
      { s with pads := s.pads.modify p.toNat f, env := s.env.drop 1, history := s.history ++ events, draws := draws } :=
  ⟨rfl, rfl, rfl, by simp, fun _ hc hd => getElem?_modify_other _ _ _ _ (by rcases hp with rfl | rfl <;> assumption)⟩

/-- A flow that has these events performs them to the end if no pad fault comes, else up to the first primitive that fails, which is
followed by the fault entry (60_exceptions.md R306, R307). -/
inductive UpToFault {α : Type} (s : State) (events : List Event) : Flow α → Prop where
  | go (a : α) {t : State} (h : AfterPrimitives events.length events s t) (hclear : NoPinFault (s.env.take events.length)) :
      UpToFault s events (.go a t)
  | fault {k : Nat} {p : Ports} {u : State} (hk : k < events.length) (h : AfterPrimitives (k + 1) (events.take (k + 1)) s u)
      (hclear : NoPinFault (s.env.take k)) (hp : s.env[k]? = some p) (hfault : p.pinFault = true) :
      UpToFault s events (.stop (faultEntry u))

theorem noPinFault_take_add {env : List Ports} {m n : Nat} (hm : NoPinFault (env.take m)) (hn : NoPinFault ((env.drop m).take n)) :
    NoPinFault (env.take (m + n)) := by
  intro p hp
  rw [List.take_add, List.mem_append] at hp
  exact hp.elim (hm p) (hn p)

/-- A flow goes on from where these events have led. -/
theorem UpToFault.prepend {α : Type} {s t : State} {es fs : List Event} {f : Flow α} (h : AfterPrimitives es.length es s t)
    (hclear : NoPinFault (s.env.take es.length)) (hf : UpToFault t fs f) : UpToFault s (es ++ fs) f := by
  cases hf with
  | go a h2 hclear2 =>
    rw [h.env] at hclear2
    refine .go a ?_ ?_
    · simpa using h.trans h2
    · simpa using noPinFault_take_add hclear hclear2
  | @fault k p u hk h2 hclear2 hp hfault =>
    rw [h.env] at hclear2 hp
    refine .fault (k := es.length + k) (by simpa using hk) ?_ (noPinFault_take_add hclear hclear2) (by simpa using hp) hfault
    rw [Nat.add_assoc, List.take_length_add_append]
    exact h.trans h2

theorem UpToFault.andThen {α β : Type} {s : State} {es fs : List Event} {f : Flow α} {k : α → State → Flow β} (h : UpToFault s es f)
    (hk : ∀ a t, AfterPrimitives es.length es s t → UpToFault t fs (k a t)) : UpToFault s (es ++ fs) (f.andThen k) := by
  cases h with
  | go a h hclear => exact .prepend h hclear (hk a _ h)
  | fault hj h hclear hp hfault =>
    refine .fault (Nat.lt_of_lt_of_le hj (by simp)) ?_ hclear hp hfault
    rwa [List.take_append_of_le_length hj]

/-- A write to BITCNT is no primitive. -/
theorem UpToFault.of_bitCnt {α : Type} {s : State} {es : List Event} {f : Flow α} {c : BitVec 7}
    (h : UpToFault { s with seq.bitCnt := c } es f) : UpToFault s es f :=
  .prepend (es := []) ((AfterPrimitives.refl s).bitCnt c) (by simp [NoPinFault]) h

theorem tick_undisturbed {s : State} (h : Undisturbed s) :
    tick s = .go (s.env.headD Ports.quiet) { s with env := s.env.drop 1 } := by
  obtain ⟨pads, config, staging, status, result, cur, seq, env, history, attempts, reads, draws⟩ := s
  cases env with
  | nil => rfl
  | cons p rest =>
    have hrst : p.rst = false := h.noReset p (List.mem_cons_self ..)
    have hhost : p.host = [] := h.noHost p (List.mem_cons_self ..)
    simp [tick, hrst, hhost, serve]

theorem Undisturbed.pinInRange {s : State} (h : Undisturbed s) {p : Pin} (hp : p = s.cur.clk ∨ p = s.cur.data) :
    Machine.pinInRange s p = true :=
  decide_eq_true (hp.elim (· ▸ h.pair.1) (· ▸ h.pair.2))

/-- A primitive on a pad of the pair performs its event, with its effect or with that of its failure. -/
theorem primitive_upToFault {α : Type} {pad : Option Pin} {effect : Ports → State → α × State} {failed : State → State} {s : State}
    {e : Event} (h : Undisturbed s) (hpad : ∀ p ∈ pad, p = s.cur.clk ∨ p = s.cur.data)
    (heffect : (s.env.headD Ports.quiet).pinFault = false →
      AfterPrimitives 1 [e] s (effect (s.env.headD Ports.quiet) { s with env := s.env.drop 1 }).2)
    (hfailed : (s.env.headD Ports.quiet).pinFault = true → AfterPrimitives 1 [e] s (failed { s with env := s.env.drop 1 })) :
    UpToFault s [e] (primitive pad effect failed s) := by
  obtain ⟨r, ht, -⟩ | ⟨ports, s1, ht, hcases⟩ :=
    primitive_cases (pad := pad) (effect := effect) (failed := failed) (s := s) rfl
  · cases (tick_undisturbed h).symm.trans ht
  · cases (tick_undisturbed h).symm.trans ht
    rcases hcases with ⟨⟨p, hp, hno⟩, -⟩ | ⟨-, hf, hstop⟩ | ⟨-, hf, hgo⟩
    · cases hno.symm.trans (h.pinInRange (hpad p hp))
    · rw [hstop]
      cases henv : s.env with
      | nil => rw [henv] at hf; cases hf
      | cons p rest =>
        rw [henv] at hf
        exact .fault Nat.zero_lt_one (henv ▸ hfailed (henv ▸ hf)) nofun (by rw [henv]; rfl) hf
    · rw [hgo]
      refine .go _ (heffect hf) fun p hp => ?_
      cases henv : s.env with
      | nil => simp [henv] at hp
      | cons q rest =>
        rw [henv] at hf hp
        obtain rfl : p = q := by simpa using hp
        exact hf

section Primitives

variable {s : State} (h : Undisturbed s)

include h

theorem setDir_upToFault {p : Pin} (hp : p = s.cur.clk ∨ p = s.cur.data) (d : Dir) : UpToFault s [.setDir p d] (setDir p d s) :=
  primitive_upToFault h (by simpa using hp) (fun _ => afterPrimitives_mapPad s hp _ _ _) fun _ => afterPrimitives_mapPad s hp _ _ _

theorem setDirDriving_upToFault {p : Pin} (hp : p = s.cur.clk ∨ p = s.cur.data) (l : Level) :
    UpToFault s [.setDir p .output] (setDirDriving p l s) := by
  refine primitive_upToFault h (by simpa using hp) (fun _ => ?_) fun _ => afterPrimitives_mapPad s hp _ _ _
  simpa [State.withDir, State.withOut, State.mapPad, State.emit, List.modify_modify_eq, Function.comp_def] using
    afterPrimitives_mapPad s hp (fun _ => ⟨.output, l⟩) s.draws [.setDir p .output]

theorem wrLvl_upToFault {p : Pin} (hp : p = s.cur.clk ∨ p = s.cur.data) (l : Level) : UpToFault s [.wrLvl p l] (wrLvl p l s) :=
  primitive_upToFault h (by simpa using hp) (fun _ => afterPrimitives_mapPad s hp _ _ _) fun _ => afterPrimitives_mapPad s hp _ _ _

theorem sleepHalf_upToFault : UpToFault s [.sleep Config.tHalfUs] (sleepHalf s) :=
  primitive_upToFault h (by simp) (fun _ => ⟨rfl, rfl, rfl, rfl, fun _ _ _ => rfl⟩) fun _ => ⟨rfl, rfl, rfl, rfl, fun _ _ _ => rfl⟩

/-- A sample performs its event, with the level it draws, or with a free one if it fails. -/
theorem rdLvl_upToFault {p : Pin} (hp : p = s.cur.clk ∨ p = s.cur.data) : ∃ l, UpToFault s [.rdLvl p l] (rdLvl p s) := by
  by_cases hf : (s.env.headD Ports.quiet).pinFault = true
  · exact ⟨Config.freeLevel s.draws, primitive_upToFault h (by simpa using hp) (fun hgo => by rw [hf] at hgo; cases hgo)
      fun _ => afterPrimitives_mapPad s hp _ _ _⟩
  · refine ⟨(sampleLevel p (s.env.headD Ports.quiet) { s with env := s.env.drop 1 }).1,
      primitive_upToFault h (by simpa using hp) (fun _ => ?_) fun hstop => absurd hstop hf⟩
    unfold sampleLevel
    split <;> exact ⟨rfl, rfl, rfl, rfl, fun _ _ _ => rfl⟩

theorem pulseClock_upToFault {clk : Pin} (hclk : clk = s.cur.clk) : UpToFault s (pulseEvents clk) (pulseClock clk s) := by
  subst hclk
  refine (wrLvl_upToFault h (.inl rfl) .low).andThen fun _ s1 h1 => ?_
  refine (sleepHalf_upToFault (h1.undisturbed h)).andThen fun _ s2 h2 => ?_
  have h12 := h1.trans h2
  refine (wrLvl_upToFault (h12.undisturbed h) (.inl h12.clk.symm) .high).andThen fun _ s3 h3 => ?_
  exact sleepHalf_upToFault ((h12.trans h3).undisturbed h)

theorem driveLine_upToFault {p : Pin} (hp : p = s.cur.clk ∨ p = s.cur.data) (b : Level) :
    UpToFault s (driveEvents p b) (driveLine p b s) :=
  (setDirDriving_upToFault h hp b).andThen fun _ _ h1 => wrLvl_upToFault (h1.undisturbed h) (by rwa [h1.cur]) b

theorem writeBit_upToFault {clk data : Pin} (hclk : clk = s.cur.clk) (hdata : data = s.cur.data) (b : Level) :
    UpToFault s (writeBitEvents clk data b) (writeBit clk data b s) :=
  (driveLine_upToFault h (.inr hdata) b).andThen fun _ _ h1 => pulseClock_upToFault (h1.undisturbed h) (hclk.trans h1.clk.symm)

end Primitives

theorem writeLoop_upToFault {clk data : Pin} (v : BitVec 64) (k : Nat) :
    ∀ (i : Nat) (s : State), Undisturbed s → clk = s.cur.clk → data = s.cur.data →
      UpToFault s (writeLoopEvents clk data v k i) (writeLoop clk data v k i s) := by
  induction k with
  | zero => exact fun _ s _ _ _ => .go _ (.refl s) nofun
  | succ k ih =>
    intro i s h hclk hdata
    refine (writeBit_upToFault h hclk hdata _).andThen fun _ t ht => .of_bitCnt (ih _ _ ?_ ?_ ?_)
    · exact (ht.bitCnt _).undisturbed h
    · exact hclk.trans ht.clk.symm
    · exact hdata.trans ht.data.symm

/-! ## WBITS -/

theorem length_writeLoopEvents (clk data : Pin) (v : BitVec 64) (k : Nat) :
    ∀ i, (writeLoopEvents clk data v k i).length = 6 * k := by
  induction k with
  | zero => exact fun _ => rfl
  | succ k ih =>
    intro i
    rw [writeLoopEvents, List.length_append, ih, writeBitEvents, driveEvents, pulseEvents]
    simp
    omega

/-- A flow whose first pad fault comes at one of its primitives performs the events up to that one. -/
theorem UpToFault.at_fault {α : Type} {s : State} {events : List Event} {f : Flow α} (h : UpToFault s events f) {k : Nat} {p : Ports}
    (hclear : NoPinFault (s.env.take k)) (hp : s.env[k]? = some p) (hfault : p.pinFault = true) (hk : k < events.length) :
    ∃ u, f = .stop (faultEntry u) ∧ AfterPrimitives (k + 1) (events.take (k + 1)) s u := by
  have hlate : ∀ {i j : Nat} {q : Ports}, NoPinFault (s.env.take i) → s.env[j]? = some q → q.pinFault = true → i ≤ j := by
    intro i j q hi hq hqf
    by_contra hlt
    have hmem : q ∈ s.env.take i := List.mem_of_getElem? ((List.getElem?_take_of_lt (Nat.not_le.1 hlt)).trans hq)
    rw [hi q hmem] at hqf
    cases hqf
  cases h with
  | go _ _ hclear2 => exact absurd hk (Nat.not_lt.2 (hlate hclear2 hp hfault))
  | @fault j q u _ hu hclear2 hq hqf =>
    obtain rfl : j = k := Nat.le_antisymm (hlate hclear2 hp hfault) (hlate hclear hq hqf)
    exact ⟨u, rfl, hu⟩

/-- Inputs with one pad fault and nothing else. -/
theorem undisturbed_of_fault {s : State} {k : Nat} {p : Ports} {rest : List Ports} (hbefore : Quiet (s.env.take k))
    (hdrop : s.env.drop k = p :: rest) (hrst : p.rst = false) (hhost : p.host = []) (hafter : Quiet rest) (hpair : PairInRange s) :
    Undisturbed s := by
  have hall : ∀ q ∈ s.env, q.rst = false ∧ q.host = [] := by
    intro q hq
    rw [← List.take_append_drop k s.env, hdrop, List.mem_append, List.mem_cons] at hq
    rcases hq with hq | rfl | hq
    · exact ⟨(hbefore q hq).1, (hbefore q hq).2.1⟩
    · exact ⟨hrst, hhost⟩
    · exact ⟨(hafter q hq).1, (hafter q hq).2.1⟩
  exact ⟨fun q hq => (hall q hq).1, fun q hq => (hall q hq).2, hpair⟩

/-- Settles O53: the loop of writes stops at the failed primitive, and the fault entry on quiet ports releases the pair. -/
theorem writeBitsFaultIsPrecise : Obligations.WriteBitsFaultIsPrecise := by
  intro s n v k p rest hbefore hdrop hrst hhost hfault hafter hpair hn hk
  have hs : Undisturbed { s with seq := { s.seq with sr := lowBits n.toNat v, bitCnt := 0 } } :=
    undisturbed_of_fault hbefore hdrop hrst hhost hafter hpair
  have hflow := writeLoop_upToFault v n.toNat 0 _ hs rfl rfl
  obtain ⟨u, hu, h⟩ := hflow.at_fault (fun q hq => (hbefore q hq).2.2)
    (by rw [← List.head?_drop]; exact congrArg List.head? hdrop) hfault (by rwa [length_writeLoopEvents])
  have hrest : u.env = rest := by
    rw [h.env, ← List.drop_drop]
    exact congrArg (List.drop 1) hdrop
  have hclk : u.cur.clk = s.cur.clk := h.clk
  have hdata : u.cur.data = s.cur.data := h.data
  have hin := (h.undisturbed hs).pair
  rw [exec_wbits hn, writeBits, hu, Flow.stop_andThen, finish_stop, faultEntry_quiet (hrest ▸ hafter) hin.1 hin.2]
  refine ⟨_, rfl, ?_, ?_, ?_, rfl, rfl, h.upc, h.result, h.config, fun i pad e hi => ?_, fun i hc hd => ?_⟩
  · simp [h.history, hclk, hdata, writeBitsEvents]
  · simp only [State.endCommand, h.status]
  · simp only [State.endCommand, h.cur]
  · exact dir_of_release_pair (by rwa [hclk, hdata]) e
  · simp only [State.endCommand_pads, hclk, hdata]
    rw [getElem?_modify_other _ _ _ _ hc, getElem?_modify_other _ _ _ _ hd]
    exact h.pads i hc hd

/-! ## RBITS -/

/-- A flow that performs some events up to the first pad fault, none of them a trace record. -/
def UntracedUpToFault {α : Type} (s : State) (f : Flow α) : Prop := ∃ events, Untraced events ∧ UpToFault s events f

theorem UntracedUpToFault.andThen {α β : Type} {s : State} {f : Flow α} {k : α → State → Flow β} (h : UntracedUpToFault s f)
    (hk : ∀ a n es t, AfterPrimitives n es s t → UntracedUpToFault t (k a t)) : UntracedUpToFault s (f.andThen k) := by
  obtain ⟨es, hes, h⟩ := h
  cases h with
  | go a h hclear =>
    obtain ⟨fs, hfs, hf⟩ := hk a _ _ _ h
    exact ⟨es ++ fs, hes.append hfs, .prepend h hclear hf⟩
  | fault hk h hclear hp hfault => exact ⟨es, hes, .fault hk h hclear hp hfault⟩

theorem UntracedUpToFault.of_bitCnt {α : Type} {s : State} {f : Flow α} {c : BitVec 7}
    (h : UntracedUpToFault { s with seq.bitCnt := c } f) : UntracedUpToFault s f :=
  h.imp fun _ h => ⟨h.1, h.2.of_bitCnt⟩

theorem readLoop_untraced {clk data : Pin} (k : Nat) :
    ∀ (i : Nat) (r : BitVec 64) (s : State), Undisturbed s → clk = s.cur.clk → data = s.cur.data →
      UntracedUpToFault s (readLoop clk data k i r s) := by
  induction k with
  | zero => exact fun _ r s _ _ _ => ⟨[], nofun, .go r (.refl s) nofun⟩
  | succ k ih =>
    intro i r s h hclk hdata
    obtain ⟨l, hl⟩ := rdLvl_upToFault h (.inr hdata)
    refine UntracedUpToFault.andThen ⟨_, by simp [Untraced, Event.traceRec?], hl⟩ fun l' _ _ t ht => ?_
    have hpulse := pulseClock_upToFault (ht.undisturbed h) (hclk.trans ht.clk.symm)
    refine UntracedUpToFault.andThen ⟨_, by simp [Untraced, pulseEvents, Event.traceRec?], hpulse⟩ fun _ _ _ u hu =>
      .of_bitCnt (c := BitVec.ofNat 7 (i + 1)) ?_
    have hsu := (ht.trans hu).bitCnt (BitVec.ofNat 7 (i + 1))
    exact ih _ _ _ (hsu.undisturbed h) (hclk.trans hsu.clk.symm) (hdata.trans hsu.data.symm)

/-- The primitives of an RBITS, with the value of its samples: all of it but its last writes (40_link_driver.md R182). -/
def readPads (n : BitVec 7) (s : State) : Flow (BitVec 64) :=
  (releaseLine s.cur.data { s with seq.bitCnt := 0 }).andThen fun _ s1 =>
    (readLoop s.cur.clk s.cur.data n.toNat 0 0 s1).andThen fun r s2 =>
      (driveLine s.cur.data .high s2).andThen fun _ s3 => .go r s3

theorem Flow.andThen_assoc {α β γ : Type} (f : Flow α) (k : α → State → Flow β) (l : β → State → Flow γ) :
    (f.andThen k).andThen l = f.andThen fun a s => (k a s).andThen l := by
  cases f <;> rfl

/-- SR, RAWREG and the trace are written after the last primitive. -/
theorem readBits_eq (n : BitVec 7) (s : State) :
    readBits n s =
      (readPads n s).andThen fun r s1 => .go () (State.emitTrace { s1 with seq.sr := r, seq.rawReg := r.setWidth 36 } .rx n r) := by
  simp only [readBits, readPads, Flow.andThen_assoc, Flow.go_andThen]

theorem readPads_untraced {s : State} (h : Undisturbed s) (n : BitVec 7) : UntracedUpToFault s (readPads n s) := by
  have h0 := (AfterPrimitives.refl s).bitCnt 0
  refine .of_bitCnt (c := 0) (UntracedUpToFault.andThen ?_ fun _ _ _ t ht => UntracedUpToFault.andThen ?_ fun r _ _ u hu =>
    UntracedUpToFault.andThen ?_ fun _ _ _ w _ => ⟨[], nofun, .go r (.refl w) nofun⟩)
  · exact ⟨_, by simp [Untraced, Event.traceRec?], setDir_upToFault (h0.undisturbed h) (.inr rfl) .input⟩
  · have hst := h0.trans ht
    exact readLoop_untraced _ _ _ _ (hst.undisturbed h) hst.clk.symm hst.data.symm
  · have hsu := (h0.trans ht).trans hu
    exact ⟨_, by simp [Untraced, driveEvents, Event.traceRec?],
      driveLine_upToFault (hsu.undisturbed h) (.inr hsu.data.symm) .high⟩

/-! ## The fault entry, whatever pad faults come during it -/

theorem bestEffortRelease_undisturbed {s : State} (h : Undisturbed s) {p : Pin} (hp : p = s.cur.clk ∨ p = s.cur.data) :
    ∃ t events, bestEffortRelease p s = .go () t ∧ Untraced events ∧ AfterPrimitives 1 events s t := by
  obtain ⟨r, ht, -⟩ | ⟨ports, s1, ht, hcases⟩ := bestEffortRelease_cases (p := p) (s := s) rfl
  · cases (tick_undisturbed h).symm.trans ht
  · cases (tick_undisturbed h).symm.trans ht
    rcases hcases with ⟨hno, -⟩ | ⟨-, -, hgo⟩ | ⟨-, -, hgo⟩
    · cases hno.symm.trans (h.pinInRange hp)
    · refine ⟨_, [], hgo, nofun, ?_⟩
      simpa [State.scramble, State.mapPad] using afterPrimitives_mapPad s hp _ (s.draws + 1) []
    · exact ⟨_, _, hgo, by simp [Untraced, Event.traceRec?], afterPrimitives_mapPad s hp _ s.draws [.setDir p .input]⟩

theorem faultEntry_undisturbed {s : State} (h : Undisturbed s) :
    ∃ t events, faultEntry s = .next (State.endCommand { t with cur.active := false, status.err := .hliFault } .fault) ∧
      Untraced events ∧ AfterPrimitives 2 events s t := by
  obtain ⟨t, es, ht, hes, hst⟩ := bestEffortRelease_undisturbed h (.inr rfl)
  obtain ⟨u, fs, hu, hfs, htu⟩ := bestEffortRelease_undisturbed (hst.undisturbed h) (p := s.cur.clk) (.inl hst.clk.symm)
  refine ⟨u, es ++ fs, ?_, hes.append hfs, hst.trans htu⟩
  rw [faultEntry, ht, Flow.go_andThen, hu]

theorem emitTrace_status (s : State) (kind : TraceKind) (n : BitVec 7) (v : BitVec 64) : (s.emitTrace kind n v).status = s.status := by
  unfold State.emitTrace
  split <;> rfl

/-- Settles O55: an RBITS that ends with FAULT has stopped at one of its primitives, before its last writes. -/
theorem readBitsFaultKeepsSrAndRaw : Obligations.ReadBitsFaultKeepsSrAndRaw := by
  intro s t n hreset hhost hpair hend e hfault
  have hs : Undisturbed s := ⟨hreset, hhost, hpair⟩
  by_cases hn : n.toNat ≤ 64
  · rw [exec_rbits hn, readBits_eq] at e
    obtain ⟨es, hes, hflow⟩ := readPads_untraced hs n
    generalize readPads n s = f at hflow e
    cases hflow with
    | go r h =>
      rw [Flow.go_andThen, finish_go] at e
      cases e
      rw [emitTrace_status] at hfault
      exact absurd ((congrArg Status.endCode h.status).symm.trans hfault) hend
    | fault hk h =>
      obtain ⟨u, fs, hu, hfs, huw⟩ := faultEntry_undisturbed (h.undisturbed hs)
      rw [Flow.stop_andThen, finish_stop, hu] at e
      cases e
      have hsu := h.trans huw
      have htrace := hsu.traceOutput (Untraced.append (fun e he => hes e (List.mem_of_mem_take he)) hfs)
      refine ⟨hsu.sr, hsu.rawReg, ?_⟩
      rw [← htrace]
      simp [State.traceOutput, Event.traceRec?]
  · cases (invalidMicroOpsAreRefused.2 s n 0 (Nat.not_le.1 hn)).2.symm.trans e

end Sys2Proof.Machine
end

section
/-! PROOFS. The sequencer: the states that ENTER, EXIT, DECODE and the start of an attempt leave, and the number of pulses and the trace
records of an attempt. -/

namespace Sys2Proof.Machine

/-! ## ENTER, EXIT, DECODE and the start of an attempt -/

/-- ENTER on quiet ports drives the clock pad High and starts the attempt (41_protocol_sequencer.md R212). -/
theorem exec_enter_quiet {s : State} (h : Quiet s.env) (hp : PairInRange s) :
    exec .enter s = .next
      { s with
        pads := s.pads.modify s.cur.clk.toNat fun _ => ⟨.output, .high⟩,
        cur := { s.cur with active := true, stage := .lineReset },
        seq := { s.seq with upc := s.seq.upc + 1 },
        env := s.env.drop 2,
        history := s.history ++ [.setDir s.cur.clk .output, .wrLvl s.cur.clk .high] } := by
  simp only [exec, execEnter]
  rw [driveLine_quiet (by exact h) (by exact hp.1), finish_go]
  rfl

/-- Settles O41: ENTER is one drive of the clock pad, EXIT the release of both pads. -/
theorem enterAndExitResults : Obligations.EnterAndExitResults := fun _ hq hp => ⟨exec_enter_quiet hq hp, exec_exit_quiet hq hp⟩

/-- Without a reset or a host access due, a block step takes one sample of the ports and changes nothing else, whatever its pin_fault. -/
theorem tick_of_blockTurn {s : State} (h : BlockTurn s) :
    tick s = .go (s.env.headD Ports.quiet) { s with env := s.env.drop 1 } := by
  obtain ⟨pads, config, staging, status, result, cur, seq, env, history, attempts, reads, draws⟩ := s
  cases env with
  | nil => rfl
  | cons p rest =>
    obtain ⟨hrst, hhost⟩ := h p rfl
    simp [tick, hrst, hhost, serve]

/-- DECODE is one bookkeeping step that stores the match predicate of RAWREG (41_protocol_sequencer.md R216, R218). -/
theorem exec_decode_of_blockTurn {s : State} (h : BlockTurn s) :
    exec .decode s = .next
      { s with
        cur := { s.cur with stage := .decodeMatch },
        seq := { s.seq with matchReg := matchOf s.seq.rawReg, upc := s.seq.upc + 1 },
        env := s.env.drop 1 } := by
  simp only [exec, execDecode]
  rw [tick_of_blockTurn (by exact h), Flow.go_andThen, finish_go]

/-- Settles O42: the state that DECODE leaves, with its match predicate read as numbers. -/
theorem decodeResult : Obligations.DecodeResult := fun s hturn =>
  ⟨_, exec_decode_of_blockTurn hturn, matchOf_iff s.seq.rawReg, rfl⟩

/-- Settles O43: the step that starts an attempt is its start on the next port sample. -/
theorem attemptStart : Obligations.AttemptStart := fun _ _ _ hturn hpos => step_begin hturn hpos

/-! ## The number of pulses of an attempt -/

@[simp] theorem length_driveCycles (v : BitVec 64) (n : Nat) : (driveCycles v n).length = n := by
  simp [driveCycles]

@[simp] theorem length_resetCycles : resetCycles.length = 64 := List.length_replicate

@[simp] theorem length_sampleCycles (levels : List Level) : (sampleCycles levels).length = levels.length := List.length_map _

@[simp] theorem length_dormantCycles : dormantCycles.length = 220 := by
  simp [dormantCycles]

/-- An attempt has 198 + k + 220 × dorm cycles (41_protocol_sequencer.md R235). -/
theorem length_attemptCycles (idleSel dormantWake : Bool) {levels : List Level} (h : levels.length = 36) :
    (attemptCycles idleSel dormantWake levels).length =
      198 + (if idleSel then 8 else 4) + (if dormantWake then 220 else 0) := by
  cases idleSel <;> cases dormantWake <;> simp [attemptCycles, idleBits, h]

/-- Settles O45: the cycles that an attempt adds to the wire of a pad before any pulse, and their number. -/
theorem attemptWireView : Obligations.AttemptWireView := by
  intro clk data pad verb idleSel dormantWake levels hne hlevels
  have hview := (Adds.attempt hne verb idleSel dormantWake levels).wireView pad
  exact ⟨hview, hview ▸ length_attemptCycles idleSel dormantWake hlevels⟩

/-! ## Runs of events without a trace record -/

theorem Untraced.cons {e : Event} {es : List Event} (h : Untraced es) (he : e.traceRec? = none) : Untraced (e :: es) :=
  List.forall_mem_cons.2 ⟨he, h⟩

theorem Untraced.flatMap {α : Type} {f : α → List Event} (h : ∀ a, Untraced (f a)) (l : List α) : Untraced (l.flatMap f) :=
  fun e he => by
    obtain ⟨a, -, ha⟩ := List.mem_flatMap.1 he
    exact h a e ha

theorem untraced_drive (p : Pin) (b : Level) : Untraced (driveEvents p b) := by
  simp [Untraced, driveEvents, Event.traceRec?]

theorem untraced_pulse (clk : Pin) : Untraced (pulseEvents clk) := by
  simp [Untraced, pulseEvents, Event.traceRec?]

theorem untraced_turn (clk data : Pin) : Untraced (turnEvents clk data) := (untraced_pulse clk).cons rfl

theorem untraced_resetLine (clk data : Pin) : Untraced (resetLineEvents clk data) := by
  rw [resetLineEvents, pulsesEvents_eq]
  refine (untraced_drive data .high).append fun e he => ?_
  obtain ⟨es, hes, he⟩ := List.mem_flatten.1 he
  exact untraced_pulse clk e (List.eq_of_mem_replicate hes ▸ he)

theorem untraced_writeBits (clk data : Pin) (n : Nat) (v : BitVec 64) : Untraced (writeBitsEvents clk data n v) := by
  rw [writeBitsEvents_eq]
  exact .flatMap (fun i => (untraced_drive data _).append (untraced_pulse clk)) _

theorem untraced_readBits (clk data : Pin) (levels : List Level) : Untraced (readBitsEvents clk data levels) :=
  have hsamples : Untraced (readLoopEvents clk data levels) := .flatMap (fun _ => (untraced_pulse clk).cons rfl) levels
  (hsamples.append (untraced_drive data .high)).cons rfl

/-- EXIT emits no trace record. -/
theorem untraced_exit (clk data : Pin) : Untraced [.setDir data .input, .setDir clk .input] := by
  simp [Untraced, Event.traceRec?]

/-! ## The trace records of an attempt -/

/-- The trace records of a run of events: these in verbose mode, none otherwise (10_state.md R60). -/
def Emits (verb : Verbosity) (events : List Event) (records : List TraceRec) : Prop :=
  events.filterMap Event.traceRec? = if verb = .verbose then records else []

theorem Emits.append {verb : Verbosity} {es fs : List Event} {rs qs : List TraceRec} (h : Emits verb es rs) (k : Emits verb fs qs) :
    Emits verb (es ++ fs) (rs ++ qs) := by
  unfold Emits at *
  rw [List.filterMap_append, h, k]
  split <;> rfl

theorem Untraced.emits {es : List Event} (h : Untraced es) (verb : Verbosity) : Emits verb es [] := by
  rw [Emits, List.filterMap_eq_nil_iff.2 h, ite_self]

theorem Emits.nil (verb : Verbosity) : Emits verb [] [] := (ite_self _).symm

theorem Emits.trace (verb : Verbosity) (kind : TraceKind) (n : BitVec 7) (bits : BitVec 64) :
    Emits verb (traceEvents verb kind n bits) [⟨kind, n, bits⟩] := by
  unfold Emits traceEvents
  split <;> rfl

/-- A WBITS of a value that fits its bits emits one TX record with that value (40_link_driver.md R179). -/
theorem Emits.send (clk data : Pin) (verb : Verbosity) {n : BitVec 7} {v : BitVec 64} (h : v.toNat < 2 ^ n.toNat) :
    Emits verb (sendEvents clk data verb n v) [⟨.tx, n, v⟩] := by
  rw [sendEvents, lowBits_of_lt h]
  exact ((untraced_writeBits clk data n.toNat v).emits verb).append (trace verb .tx n v)

theorem Emits.resetLine (clk data : Pin) (verb : Verbosity) : Emits verb (resetLineEvents clk data) [] :=
  (untraced_resetLine clk data).emits verb

theorem Emits.switch (clk data : Pin) (verb : Verbosity) (idleSel : Bool) :
    Emits verb (switchEvents clk data verb idleSel) [⟨.tx, 16, 0xE79E⟩, ⟨.tx, bif idleSel then 8 else 4, 0⟩] :=
  ((send clk data verb (by decide)).append (resetLine clk data verb)).append (send clk data verb (by cases idleSel <;> decide))

theorem Emits.dormant (clk data : Pin) (verb : Verbosity) :
    Emits verb (dormantEvents clk data verb)
      [⟨.tx, 8, 0xFF⟩, ⟨.tx, 32, 0x6209F392⟩, ⟨.tx, 32, 0x86852D95⟩, ⟨.tx, 32, 0xE3DDAFE9⟩, ⟨.tx, 32, 0x19BC0EA2⟩, ⟨.tx, 4, 0⟩,
        ⟨.tx, 8, 0x1A⟩, ⟨.tx, 8, 0⟩] :=
  ((((((((send clk data verb (by decide)).append (send clk data verb (by decide))).append (send clk data verb (by decide))).append
    (send clk data verb (by decide))).append (send clk data verb (by decide))).append (send clk data verb (by decide))).append
    (send clk data verb (by decide))).append (resetLine clk data verb)).append (send clk data verb (by decide))

theorem Emits.idCode (clk data : Pin) (verb : Verbosity) (levels : List Level) :
    Emits verb (idCodeEvents clk data verb levels) [⟨.tx, 8, 0xA5⟩, ⟨.rx, 36, valueOfLevels levels⟩, ⟨.tx, 8, 0⟩] :=
  (((((send clk data verb (by decide)).append ((untraced_turn clk data).emits verb)).append
    ((untraced_readBits clk data levels).emits verb)).append (trace verb .rx 36 (valueOfLevels levels))).append
    ((untraced_turn clk data).emits verb)).append (send clk data verb (by decide))

/-- An attempt emits the records of its stages (41_protocol_sequencer.md R236). -/
theorem Emits.attempt (clk data : Pin) (verb : Verbosity) (idleSel dormantWake : Bool) (levels : List Level) :
    Emits verb (attemptEvents clk data verb idleSel dormantWake levels) (attemptTrace idleSel dormantWake levels) := by
  have henter := ((untraced_drive clk .high).emits verb).append (resetLine clk data verb)
  have hswitch := henter.append (switch clk data verb idleSel)
  have hexit := (untraced_exit clk data).emits verb
  cases dormantWake with
  | false => exact ((hswitch.append (Emits.nil verb)).append (idCode clk data verb levels)).append hexit
  | true => exact ((hswitch.append (dormant clk data verb)).append (idCode clk data verb levels)).append hexit

/-- Settles O47: the records of the stages of an attempt, counted for each program. -/
theorem attemptTraceRecords : Obligations.AttemptTraceRecords := by
  intro clk data verb idleSel dormantWake levels
  refine ⟨Emits.attempt clk data verb idleSel dormantWake levels, ?_, ?_⟩
  · cases dormantWake <;> simp [attemptTrace]
  · cases dormantWake <;> simp [attemptTrace]

end Sys2Proof.Machine
end

section
/-! PROOFS. The scanner: the order in which the scan loop takes its pairs, the wait for POP, the end of a command, and the acceptance
of CONFIGURE and POP. -/

namespace Sys2Proof.Machine

/-! ## The pair after a pair -/

/-- In a list in a strict order the first element after its k-th is the next one. -/
theorem find?_after_getElem? {α : Type} {f : α → α → Bool} (hirrefl : ∀ a, f a a = false)
    (hasymm : ∀ {a b}, f a b = true → f b a = false) {l : List α} (hl : l.Pairwise fun a b => f a b = true) {k : Nat} {x : α}
    (hx : l[k]? = some x) : l.find? (f x) = l[k + 1]? := by
  induction l generalizing k with
  | nil => rfl
  | cons a l ih =>
    obtain ⟨hafter, htail⟩ := List.pairwise_cons.1 hl
    cases k with
    | zero =>
      obtain rfl : a = x := Option.some.inj hx
      rw [List.find?_cons_of_neg (by simp [hirrefl])]
      cases l with
      | nil => rfl
      | cons b l => exact List.find?_cons_of_pos (hafter b List.mem_cons_self)
    | succ k =>
      have hbefore : f x a = false := hasymm (hafter x (List.mem_of_getElem? hx))
      rw [List.find?_cons_of_neg (by simp [hbefore])]
      exact ih htail hx

theorem pairAfter_iff {p q : Pin × Pin} : pairAfter p q = true ↔ p.1 < q.1 ∨ (p.1 = q.1 ∧ p.2 < q.2) := by
  simp [pairAfter]

theorem pairAfter_irrefl (p : Pin × Pin) : pairAfter p p = false := by
  simp [pairAfter]

theorem pairAfter_asymm {p q : Pin × Pin} (h : pairAfter p q = true) : pairAfter q p = false := by
  refine Bool.eq_false_iff.2 fun h' => ?_
  rw [pairAfter_iff] at h h'
  bv_omega

/-- The pair after the pair at an index of the list is the one at the next index (42_scanner_commands.md R260). -/
theorem find?_pairAfter {mask : BitVec 64} {maxPin : BitVec 8} {k : Nat} {p : Pin × Pin}
    (h : (pairs mask maxPin)[k]? = some p) : (pairs mask maxPin).find? (pairAfter p) = (pairs mask maxPin)[k + 1]? :=
  find?_after_getElem? pairAfter_irrefl pairAfter_asymm ((pairs_pairwise mask maxPin).imp pairAfter_iff.2) h

theorem nextPair_first {s : State} (hpos : s.seq.pos = .first) : nextPair s = (pairs s.config.mask s.config.maxPin)[0]? := by
  rw [nextPair, if_pos hpos, List.head?_eq_getElem?]

theorem nextPair_advance {s : State} {k : Nat} (hpos : s.seq.pos = .advance)
    (hlast : (pairs s.config.mask s.config.maxPin)[k]? = some (s.seq.iterClk, s.seq.iterData)) :
    nextPair s = (pairs s.config.mask s.config.maxPin)[k + 1]? := by
  rw [nextPair, if_neg (by simp [hpos]), find?_pairAfter hlast]

/-! ## The head of the scan loop -/

/-- With no pair left the scan ends with COMPLETE (42_scanner_commands.md R261). -/
theorem takePair_of_none {s : State} (h : nextPair s = none) : s.takePair = s.endCommand .complete := by
  simp only [State.takePair, h]

/-- A pending cancel ends the scan once its next pair is taken (42_scanner_commands.md R262). -/
theorem takePair_of_cancelPending {s : State} {c d : Pin} (h : nextPair s = some (c, d)) (hc : s.status.cancelPending = true) :
    s.takePair = State.endCommand { s with seq := { s.seq with iterClk := c, iterData := d } } .cancelled := by
  simp only [State.takePair, h, hc, if_true]

/-- Without a pending cancel the attempt on the next pair comes next (42_scanner_commands.md R261). -/
theorem takePair_of_some {s : State} {c d : Pin} (h : nextPair s = some (c, d)) (hc : s.status.cancelPending = false) :
    s.takePair = { s with seq := { s.seq with iterClk := c, iterData := d, pos := .begin c d } } := by
  simp [State.takePair, h, hc]

/-- Taking a pair is one step (42_scanner_commands.md R261). -/
theorem step_takePair {s : State} (hturn : BlockTurn s) (hpos : s.seq.pos = .first ∨ s.seq.pos = .advance) :
    step s = .next (State.takePair { s with env := s.env.drop 1 }) := by
  rcases hpos with hpos | hpos <;> simp only [step_of_blockTurn hturn, blockStep, hpos, bookkeeping_of_blockTurn hturn]

/-- Settles O49: the next pair stands at the next index of the list, whose order is strict, and the loop's head decides by it. -/
theorem scanTakesThePairsInOrder : Obligations.ScanTakesThePairsInOrder := by
  intro s k hturn _ hat
  obtain ⟨hpos, hnext⟩ : (s.seq.pos = .first ∨ s.seq.pos = .advance) ∧
      nextPair { s with env := s.env.drop 1 } = (pairs s.config.mask s.config.maxPin)[k]? := by
    rcases hat with ⟨hpos, rfl⟩ | ⟨hpos, hk, hlast⟩
    · exact ⟨.inl hpos, nextPair_first hpos⟩
    · obtain ⟨k, rfl⟩ := Nat.exists_eq_add_one_of_ne_zero hk.ne'
      exact ⟨.inr hpos, nextPair_advance hpos hlast⟩
  rw [step_takePair hturn hpos]
  refine ⟨fun h => congrArg _ ?_, fun c d h => ⟨fun hc => congrArg _ ?_, fun hc => congrArg _ ?_⟩⟩
  · exact takePair_of_none (hnext.trans h)
  · exact takePair_of_cancelPending (hnext.trans h) hc
  · exact takePair_of_some (hnext.trans h) hc

/-! ## The wait for POP -/

/-- While the result is pending nothing changes (70_reset_and_hazards.md R351). -/
theorem waitForPop_of_rvalid {s : State} (h : s.status.rvalid = true) : s.waitForPop = s := by
  simp [State.waitForPop, h]

/-- After POP a SCAN ends with HIT on a match under BREAK_ON_HIT (42_scanner_commands.md R263). -/
theorem waitForPop_of_hit {s : State} (h : s.status.rvalid = false) (hk : s.seq.cmdKind = .scan)
    (hit : s.result.matched = true ∧ s.config.breakOnHit = true) : s.waitForPop = s.endCommand .hit := by
  simp [State.waitForPop, h, hk, hit]

/-- After POP a SCAN without a HIT goes on to its next pair (42_scanner_commands.md R261). -/
theorem waitForPop_of_no_hit {s : State} (h : s.status.rvalid = false) (hk : s.seq.cmdKind = .scan)
    (hit : ¬(s.result.matched = true ∧ s.config.breakOnHit = true)) :
    s.waitForPop = { s with seq := { s.seq with pos := .advance } } := by
  simp only [State.waitForPop, h, hk, Bool.and_eq_true, hit, Bool.false_eq_true, if_false]

/-- After POP a TEST_PAIR ends with COMPLETE (42_scanner_commands.md R265). -/
theorem waitForPop_testPair {s : State} (h : s.status.rvalid = false) (hk : s.seq.cmdKind = .testPair) :
    s.waitForPop = s.endCommand .complete := by
  simp [State.waitForPop, h, hk]

/-- The wait for POP is one step (42_scanner_commands.md R261). -/
theorem step_waitPop {s : State} (hturn : BlockTurn s) (hpos : s.seq.pos = .waitPop) :
    step s = .next (State.waitForPop { s with env := s.env.drop 1 }) := by
  simp only [step_of_blockTurn hturn, blockStep, hpos, bookkeeping_of_blockTurn hturn]

/-- Settles O51: the wait for POP at its one step, by RVALID, the running command, and the match under BREAK_ON_HIT. -/
theorem waitForPopAndWhatFollows : Obligations.WaitForPopAndWhatFollows := by
  intro s hturn hpos
  rw [step_waitPop hturn hpos]
  refine ⟨fun hr => congrArg _ ?_, fun hr hk hm hb => congrArg _ ?_, fun hr hk hno => congrArg _ ?_, fun hr hk => congrArg _ ?_⟩
  · exact waitForPop_of_rvalid hr
  · exact waitForPop_of_hit hr hk ⟨hm, hb⟩
  · exact waitForPop_of_no_hit hr hk hno
  · exact waitForPop_testPair hr hk

/-! ## The end of a command -/

/-- From CFG_MASK_LO up the window shows the mask, the results and the current pair only (20_memory.md R100). -/
theorem readWord_congr {s t : State} (hmask : t.config.mask = s.config.mask) (hresult : t.result = s.result) (hcur : t.cur = s.cur)
    {offset : Nat} (h : 0x14 ≤ offset) : t.readWord offset = s.readWord offset := by
  unfold State.readWord
  -- The four registers below CFG_MASK_LO are out of range.
  split
  case h_1 | h_2 | h_3 | h_4 => omega
  all_goals simp only [State.resPinsWord, State.resFieldsWord, State.curPairWord, hmask, hresult, hcur]

/-- Settles O52: the end writes no register from CFG_MASK_LO up. -/
theorem endKeepsTheResults : Obligations.EndKeepsTheResults := fun s code =>
  ⟨rfl, rfl, rfl, fun _ h => readWord_congr (s := s) (t := s.endCommand code) rfl rfl rfl h⟩

/-! ## Accepted commands -/

/-- A CONFIGURE that leaves ERR = OK was accepted, and configures the staged mask and the flags of its word
(42_scanner_commands.md R255). -/
theorem config_of_execConfigure_ok {s t : State} {boh : Bool} {verb : Verbosity} {dorm idle : Bool}
    (h : execConfigure boh verb dorm idle s = .next t) (hok : t.status.err = .ok) :
    t.config = ⟨argMask s, maxPinOf (argMask s), boh, verb, dorm, idle⟩ := by
  unfold execConfigure at h
  split at h
  · cases h
    cases hok
  · split at h
    · cases h
      cases hok
    · cases h
      rfl

/-- Settles O24: both states hold the configuration of the same staged mask and flags, and the three words show only that. -/
theorem configureIsIdempotent : Obligations.ConfigureIsIdempotent := by
  intro s t u v boh dorm idle verb hs ht hstaging hu hv _ _ _
  have hmask : argMask u = argMask s := by rw [argMask, argMask, hstaging]
  have hconfig : v.config = t.config := by
    rw [config_of_execConfigure_ok hs ht, config_of_execConfigure_ok hu hv, hmask]
  simp only [State.readWord, State.cfgWord, hconfig, and_self]

/-- Settles O27: RVALID decides between the acceptance and the refusal of POP. -/
theorem popAcknowledgesTheResult : Obligations.PopAcknowledgesTheResult := by
  refine fun s => ⟨fun hr => ?_, fun hr => ?_⟩
  · simp [exec, execPop, hr]
  · simp [exec, execPop, hr, State.reject]

end Sys2Proof.Machine
end

section
/-! PROOFS. A write to CMD answers the first check that fails; a best-effort release that fails starts no second fault entry. -/

namespace Sys2Proof.Machine

/-! ## The checks of a command word -/

/-- A result that completes with this code in ERR and, unless the code is OK, changes nothing else (60_exceptions.md R301). -/
def AnswersCode (s : State) (code : ErrCode) (r : Result) : Prop :=
  ∃ t, r = .next t ∧ t.status.err = code ∧ (code ≠ .ok → t = s.reject code)

theorem answersCode_reject (s : State) (code : ErrCode) : AnswersCode s code (.next (s.reject code)) :=
  ⟨_, rfl, rfl, fun _ => rfl⟩

theorem answersCode_accept {s t : State} (h : t.status.err = .ok) : AnswersCode s .ok (.next t) :=
  ⟨t, rfl, h, fun hok => absurd rfl hok⟩

/-- A check of a command decides between two results and the code that goes with each. -/
theorem AnswersCode.ite {s : State} {c : Prop} [Decidable c] {code code' : ErrCode} {r r' : Result} (h : AnswersCode s code r)
    (h' : AnswersCode s code' r') : AnswersCode s (if c then code else code') (if c then r else r') := by
  by_cases hc : c
  · rwa [if_pos hc, if_pos hc]
  · rwa [if_neg hc, if_neg hc]

/-- The first check of a decoded command that fails (60_exceptions.md R303, checks 3 and 4). -/
def commandFailure (s : State) : Instr → ErrCode
  | .configure _ _ _ _ => if s.status.busy then .busy else if maskOutOfRange s (argMask s) then .badMask else .ok
  | .scan => if s.status.busy then .busy else .ok
  | .testPair c d =>
    if s.status.busy then .busy else if c = d then .badPinSame
    else if !(pinInRange s c && pinInRange s d) then .badPinRange else .ok
  | .pop => if s.status.rvalid then .ok else .noResult
  | .cancel => .ok
  | .pulse | .drive _ | .release | .wbit _ | .wbits _ _ | .rbits _ | .turn | .lreset | .enter | .exit | .decode => .ok

/-- A command runs its checks in their order and is accepted if none fails. -/
theorem hostCommand_answersCode {i : Instr} (hi : i.isHost = true) (s : State) :
    AnswersCode s (commandFailure s i) (hostCommand i s) := by
  have hreject := answersCode_reject s
  cases i
  case configure => exact .ite (hreject _) (.ite (hreject _) (answersCode_accept rfl))
  case scan => exact .ite (hreject _) (answersCode_accept rfl)
  case testPair => exact .ite (hreject _) (.ite (hreject _) (.ite (hreject _) (answersCode_accept rfl)))
  case pop => exact .ite (answersCode_accept rfl) (hreject _)
  case cancel => exact answersCode_accept rfl
  case pulse | drive | release | wbit | wbits | rbits | turn | lreset | enter | exit | decode => cases hi

/-- The first check of a word written to CMD that fails, the first two being the decoder's. -/
def wordFailure (w : Word) (s : State) : ErrCode :=
  match decodeHost w with
  | .error .illegalCmd => .illegalCmd
  | .error .badField => .badField
  | .ok i => commandFailure s i

theorem writeCmd_answersCode (w : Word) (s : State) : AnswersCode s (wordFailure w s) (writeCmd w s) := by
  obtain ⟨hd, hw⟩ | ⟨hd, hw⟩ | ⟨i, hd, hw⟩ := writeCmd_cases (w := w) (s := s) rfl
  · rw [hw, wordFailure, hd]
    exact answersCode_reject s .illegalCmd
  · rw [hw, wordFailure, hd]
    exact answersCode_reject s .badField
  · rw [hw, wordFailure, hd]
    exact hostCommand_answersCode (isHost_of_decodeHost hd) s

/-! ## The checks on the bits of a word -/

/-- A decoder's mask of the bits that an opcode requires to be 0 finds the words that break the rule. -/
theorem any_mustBeZero {op : Nat} {must : Word} (hmust : ∀ i < 32, mustBeZero op i = must.getLsbD i) (w : Word) :
    ((List.range 32).any fun i => mustBeZero op i && w.getLsbD i) = !zeroBits must w := by
  rw [Bool.eq_iff_iff, Bool.not_eq_true', ← Bool.not_eq_true, zeroBits_iff, List.any_eq_true]
  push Not
  refine exists_congr fun i => ?_
  simp only [List.mem_range, Bool.and_eq_true, Bool.not_eq_false]
  exact and_congr_right fun hi => by rw [hmust i hi]

theorem any_maskOutOfRange (s : State) (m : BitVec 64) :
    ((List.range 64).any fun i => decide (s.pinCount ≤ i) && m.getLsbD i) = maskOutOfRange s m := by
  rw [Bool.eq_iff_iff, maskOutOfRange_iff]
  simp

theorem pinInRange_eq_false (s : State) (p : Pin) : pinInRange s p = false ↔ s.pinCount ≤ p.toNat := by
  simp [pinInRange]

theorem ofBits?_eq_none (b : BitVec 2) : Verbosity.ofBits? b = none ↔ b = 3#2 := by
  revert b
  decide

/-- The checks on the bits of the word and on the state are those of the decoder and of the command. -/
theorem firstFailing_eq_wordFailure (w : Word) (s : State) : firstFailing w s = wordFailure w s := by
  simp only [firstFailing, wordFailure, decodeHost, any_maskOutOfRange]
  generalize (w.extractLsb' 0 4).toNat = op
  match op with
  | 0 => simp
  | 1 =>
    rw [any_mustBeZero (must := 0xFFFFE0F0) (by decide)]
    cases zeroBits 0xFFFFE0F0 w
    · simp
    · cases hverb : Verbosity.ofBits? (w.extractLsb' 9 2) with
      | none => simp [(ofBits?_eq_none _).1 hverb]
      | some verb =>
        have h3 : w.extractLsb' 9 2 ≠ 3#2 := fun h => by simp [(ofBits?_eq_none _).2 h] at hverb
        simp [h3, commandFailure]
  | 2 =>
    rw [any_mustBeZero (must := 0xFFFFFFF0) (by decide)]
    cases zeroBits 0xFFFFFFF0 w <;> simp [commandFailure]
  | 3 =>
    rw [any_mustBeZero (must := 0xFF0000F0) (by decide)]
    cases zeroBits 0xFF0000F0 w <;> simp [commandFailure, pinInRange_eq_false, -BitVec.extractLsb'_toNat]
  | 4 =>
    rw [any_mustBeZero (must := 0xFFFFFFF0) (by decide)]
    cases zeroBits 0xFFFFFFF0 w
    · simp
    · cases hr : s.status.rvalid <;> simp [commandFailure, hr]
  | 5 =>
    rw [any_mustBeZero (must := 0xFFFFFFF0) (by decide)]
    cases zeroBits 0xFFFFFFF0 w <;> simp [commandFailure]
  | op + 6 => simp

/-- Settles O21: the write that is due is the next step, and answers the first check that fails. -/
theorem commandChecksRunInOrder : Obligations.CommandChecksRunInOrder := by
  intro s w hready
  rw [step_withAccess hready, cmdWrite, hostAccess_writeWord (by decide) (by decide), firstFailing_eq_wordFailure]
  exact writeCmd_answersCode w s

/-! ## Pad faults during the fault entry -/

theorem getElem?_modify_same {pads : List Pad} {k : Nat} (h : k < pads.length) (pad : Pad) :
    (pads.modify k fun _ => pad)[k]? = some pad := by
  simp [h]

theorem tick_of_env_cons {s : State} {p : Ports} {rest : List Ports} (henv : s.env = p :: rest) (hrst : p.rst = false)
    (hhost : p.host = []) : tick s = .go p { s with env := rest } := by
  have hturn : BlockTurn s := by simpa [BlockTurn, henv] using ⟨hrst, hhost⟩
  rw [tick_of_blockTurn hturn, henv]
  rfl

/-- A best-effort release that fails leaves its pad with free values, and no event (60_exceptions.md R308). -/
theorem bestEffortRelease_fails {s : State} {q : Ports} {rest : List Ports} (henv : s.env = q :: rest)
    (hq : q.rst = false ∧ q.host = [] ∧ q.pinFault = true) {p : Pin} (hp : p.toNat < s.pinCount) :
    bestEffortRelease p s = .go () (State.scramble { s with env := rest } p) := by
  obtain ⟨hrst, hhost, hfault⟩ := hq
  have hin : pinInRange { s with env := rest } p = true := decide_eq_true hp
  simp [bestEffortRelease, tick_of_env_cons henv hrst hhost, hin, hfault]

/-- A SetDir that fails leaves its pad with free values and its event, and takes the fault entry (60_exceptions.md R306). -/
theorem setDir_fails {s : State} {q : Ports} {rest : List Ports} (henv : s.env = q :: rest)
    (hq : q.rst = false ∧ q.host = [] ∧ q.pinFault = true) {p : Pin} (hp : p.toNat < s.pinCount) (d : Dir) :
    setDir p d s = .stop (faultEntry ((State.scramble { s with env := rest } p).emit (.setDir p d))) := by
  obtain ⟨hrst, hhost, hfault⟩ := hq
  have hin : pinInRange { s with env := rest } p = true := decide_eq_true hp
  simp [setDir, primitive, tick_of_env_cons henv hrst hhost, hin, hfault]

/-- The fault entry with both of its releases failing ends the command once. -/
theorem faultEntry_fails {s : State} {q r : Ports} {rest : List Ports} (henv : s.env = q :: r :: rest)
    (hq : q.rst = false ∧ q.host = [] ∧ q.pinFault = true) (hr : r.rst = false ∧ r.host = [] ∧ r.pinFault = true)
    (hpair : PairInRange s) :
    faultEntry s = .next (State.endCommand
      { (State.scramble { s with env := rest } s.cur.data).scramble s.cur.clk with cur.active := false, status.err := .hliFault }
      .fault) := by
  obtain ⟨hclk, hdata⟩ := hpair
  rw [faultEntry, bestEffortRelease_fails henv hq hdata, Flow.go_andThen,
    bestEffortRelease_fails (rest := rest) rfl hr (by simpa [State.pinCount] using hclk)]
  rfl

/-- Settles O54: the SetDir of RELEASE fails, then both releases of the one fault entry. -/
theorem faultEntryDoesNotNest : Obligations.FaultEntryDoesNotNest := by
  intro s p q r rest henv hfail hpair hne
  obtain ⟨hclk, hdata⟩ := hpair
  have hrelease := setDir_fails henv (hfail p (by simp)) hdata .input
  have hentry := faultEntry_fails (s := (State.scramble { s with env := q :: r :: rest } s.cur.data).emit (.setDir s.cur.data .input))
    rfl (hfail q (by simp)) (hfail r (by simp)) (by simpa [PairInRange, State.pinCount] using ⟨hclk, hdata⟩)
  have hother : s.cur.data.toNat ≠ s.cur.clk.toNat := fun h => hne (BitVec.eq_of_toNat_eq h.symm)
  refine ⟨_, by rw [exec, execRelease, releaseLine, hrelease, finish_stop, hentry], ?_, rfl, ?_, ?_, rfl⟩
  · simp
  · exact (getElem?_modify_other _ _ _ _ hother).trans (getElem?_modify_same (by simpa [State.pinCount] using hdata) _)
  · exact getElem?_modify_same (by simpa [State.pinCount] using hclk) _

end Sys2Proof.Machine
end

section
/-! PROOFS. A reset at a primitive of a micro-operation, host accesses while rst is 1, and the idle block. -/

namespace Sys2Proof.Machine

/-! ## A reset at a primitive of a micro-operation -/

/-- The next `k` port samples are quiet, and the one after them is a reset; the pads of the pair exist. -/
structure ResetDue (k : Nat) (s : State) : Prop where
  quiet : Quiet (s.env.take k)
  reset : ∃ p rest, s.env.drop k = p :: rest ∧ p.rst = true ∧ p.host = []
  pair : PairInRange s

/-- What primitives with these events leave of the state that a reset or the primitives after them start from. (`AfterPrimitives` says more,
and so not of a line reset, which writes PCNT between its pulses.) -/
structure Performed (events : List Event) (s t : State) : Prop where
  env : t.env = s.env.drop events.length
  history : t.history = s.history ++ events
  cur : t.cur = s.cur
  pinCount : t.pinCount = s.pinCount

theorem Performed.trans {es fs : List Event} {s t u : State} (h : Performed es s t) (k : Performed fs t u) :
    Performed (es ++ fs) s u where
  env := by rw [k.env, h.env, List.drop_drop, List.length_append]
  history := by rw [k.history, h.history, List.append_assoc]
  cur := k.cur.trans h.cur
  pinCount := k.pinCount.trans h.pinCount

/-- The samples of the primitives performed are gone, the reset is as many samples nearer. -/
theorem ResetDue.after {k : Nat} {es : List Event} {s t : State} (h : ResetDue k s) (ht : Performed es s t) (hk : es.length ≤ k) :
    ResetDue (k - es.length) t where
  quiet := by
    rw [ht.env, ← List.drop_take]
    exact h.quiet.drop _
  reset := by
    rw [ht.env, List.drop_drop, Nat.add_sub_cancel' hk]
    exact h.reset
  pair := by
    unfold PairInRange
    rw [ht.cur, ht.pinCount]
    exact h.pair

/-- A flow that has these events and meets a reset at its sample `k`: it performs all of them if they are done by then, else the first
`k` of them, and ends in the state after the reset (70_reset_and_hazards.md R341). -/
inductive UpToReset {α : Type} (k : Nat) (s : State) (events : List Event) : Flow α → Prop where
  | go (a : α) {t : State} (hk : events.length ≤ k) (h : Performed events s t) : UpToReset k s events (.go a t)
  | reset {u : State} (hk : k < events.length) (hhistory : u.history = s.history ++ events.take k) (hpins : u.pinCount = s.pinCount) :
      UpToReset k s events (.stop (.next u.afterReset))

/-- A flow goes on from where these events have led. -/
theorem UpToReset.prepend {α : Type} {k : Nat} {s t : State} {es fs : List Event} {f : Flow α} (hk : es.length ≤ k)
    (h : Performed es s t) (hf : UpToReset (k - es.length) t fs f) : UpToReset k s (es ++ fs) f := by
  have hlength : (es ++ fs).length = es.length + fs.length := List.length_append
  cases hf with
  | go a hk2 h2 => exact .go a (by omega) (h.trans h2)
  | reset hk2 hhistory hpins =>
    refine .reset (by omega) ?_ (hpins.trans h.pinCount)
    rw [hhistory, h.history, List.append_assoc, List.take_append, List.take_of_length_le hk]

theorem UpToReset.andThen {α β : Type} {k : Nat} {s : State} {es fs : List Event} {f : Flow α} {g : α → State → Flow β}
    (h : UpToReset k s es f) (hg : ∀ a t, es.length ≤ k → Performed es s t → UpToReset (k - es.length) t fs (g a t)) :
    UpToReset k s (es ++ fs) (f.andThen g) := by
  cases h with
  | go a hk h => exact .prepend hk h (hg a _ hk h)
  | reset hk hhistory hpins =>
    refine .reset (Nat.lt_of_lt_of_le hk (by simp)) ?_ hpins
    rwa [List.take_append_of_le_length hk.le]

/-- A write to PCNT is no primitive. -/
theorem UpToReset.of_pcnt {α : Type} {k : Nat} {s : State} {es : List Event} {f : Flow α} {c : BitVec 7}
    (h : UpToReset k { s with seq.pcnt := c } es f) : UpToReset k s es f := by
  cases h with
  | go a hk h => exact .go a hk ⟨h.env, h.history, h.cur, h.pinCount⟩
  | reset hk hhistory hpins => exact .reset hk hhistory hpins

theorem tick_of_reset {s : State} {p : Ports} {rest : List Ports} (henv : s.env = p :: rest) (hrst : p.rst = true) :
    tick s = .stop (serveInReset p.host (State.afterReset { s with env := rest })) := by
  simp [tick, henv, hrst]

/-- A primitive on a pad of the pair has its effect if its sample is quiet, and none if it is the reset. -/
theorem primitive_upToReset {α : Type} {pad : Option Pin} {effect : Ports → State → α × State} {failed : State → State} {k : Nat}
    {s : State} {e : Event} (h : ResetDue k s) (hpad : ∀ p ∈ pad, p = s.cur.clk ∨ p = s.cur.data)
    (heffect : ∀ ports, Performed [e] s (effect ports { s with env := s.env.drop 1 }).2) :
    UpToReset k s [e] (primitive pad effect failed s) := by
  obtain ⟨q, rest, hdrop, hrst, hhost⟩ := h.reset
  cases k with
  | zero =>
    rw [primitive, tick_of_reset hdrop hrst, hhost, serveInReset, Flow.stop_andThen]
    exact .reset Nat.zero_lt_one (List.append_nil _).symm rfl
  | succ k =>
    cases henv : s.env with
    | nil => simp [henv] at hdrop
    | cons p more =>
      obtain ⟨hrst, hhost, hfault⟩ := h.quiet p (by simp [henv])
      have hin : (pad.any fun p => !pinInRange { s with env := more } p) = false := by
        refine (Option.any_eq_false _ _).2 fun p hp => ?_
        have hp : pinInRange s p = true := decide_eq_true ((hpad p hp).elim (· ▸ h.pair.1) (· ▸ h.pair.2))
        exact congrArg not hp
      have heffect := heffect p
      rw [henv] at heffect
      rw [primitive, tick_of_env_cons henv hrst hhost, Flow.go_andThen, hin, hfault]
      exact .go _ (Nat.le_add_left 1 k) heffect

section Primitives

variable {k : Nat} {s : State} (h : ResetDue k s)

include h

theorem setDirDriving_upToReset {p : Pin} (hp : p = s.cur.clk ∨ p = s.cur.data) (l : Level) :
    UpToReset k s [.setDir p .output] (setDirDriving p l s) :=
  primitive_upToReset h (by simpa using hp) fun _ => ⟨rfl, rfl, rfl, by simp [State.pinCount]⟩

theorem wrLvl_upToReset {p : Pin} (hp : p = s.cur.clk ∨ p = s.cur.data) (l : Level) : UpToReset k s [.wrLvl p l] (wrLvl p l s) :=
  primitive_upToReset h (by simpa using hp) fun _ => ⟨rfl, rfl, rfl, by simp [State.pinCount]⟩

theorem sleepHalf_upToReset : UpToReset k s [.sleep Config.tHalfUs] (sleepHalf s) :=
  primitive_upToReset h nofun fun _ => ⟨rfl, rfl, rfl, rfl⟩

theorem driveLine_upToReset {p : Pin} (hp : p = s.cur.clk ∨ p = s.cur.data) (l : Level) :
    UpToReset k s (driveEvents p l) (driveLine p l s) :=
  (setDirDriving_upToReset h hp l).andThen fun _ _ hk ht => wrLvl_upToReset (h.after ht hk) (by rwa [ht.cur]) l

theorem pulseClock_upToReset {clk : Pin} (hclk : clk = s.cur.clk) : UpToReset k s (pulseEvents clk) (pulseClock clk s) := by
  refine (wrLvl_upToReset h (.inl hclk) .low).andThen fun _ s1 hk1 h1 => ?_
  have d1 := h.after h1 hk1
  refine (sleepHalf_upToReset d1).andThen fun _ s2 hk2 h2 => ?_
  have d2 := d1.after h2 hk2
  refine (wrLvl_upToReset d2 (.inl (by rw [h2.cur, h1.cur, hclk])) .high).andThen fun _ s3 hk3 h3 => ?_
  exact sleepHalf_upToReset (d2.after h3 hk3)

end Primitives

theorem ResetDue.pcnt {k : Nat} {s : State} (h : ResetDue k s) (c : BitVec 7) : ResetDue k { s with seq.pcnt := c } :=
  ⟨h.quiet, h.reset, h.pair⟩

/-- The pulses of a line reset, those done counted in PCNT (40_link_driver.md R188). -/
theorem pulseLoop_upToReset {clk : Pin} (n : Nat) :
    ∀ (i k : Nat) (s : State), ResetDue k s → clk = s.cur.clk → UpToReset k s (pulsesEvents clk n) (pulseLoop clk n i s) := by
  induction n with
  | zero => exact fun _ k s _ _ => .go () (Nat.zero_le k) ⟨rfl, (List.append_nil _).symm, rfl, rfl⟩
  | succ n ih =>
    intro i k s h hclk
    exact (pulseClock_upToReset h hclk).andThen fun _ t hk ht =>
      .of_pcnt (ih _ _ _ ((h.after ht hk).pcnt _) (hclk.trans (congrArg Current.clk ht.cur).symm))

theorem resetLine_upToReset {k : Nat} {s : State} (h : ResetDue k s) :
    UpToReset k s (resetLineEvents s.cur.clk s.cur.data) (resetLine s) :=
  .of_pcnt (c := 0) ((driveLine_upToReset (h.pcnt 0) (.inr rfl) .high).andThen fun _ _ hk ht =>
    pulseLoop_upToReset _ _ _ _ ((h.pcnt 0).after ht hk) (congrArg Current.clk ht.cur).symm)

theorem length_pulsesEvents (clk : Pin) (n : Nat) : (pulsesEvents clk n).length = 4 * n := by
  induction n with
  | zero => rfl
  | succ n ih =>
    have hpulse : (pulseEvents clk).length = 4 := rfl
    rw [pulsesEvents, List.length_append, hpulse, ih]
    omega

theorem length_resetLineEvents (clk data : Pin) : (resetLineEvents clk data).length = 258 := by
  rw [resetLineEvents, List.length_append, length_pulsesEvents]
  rfl

/-- Settles O9: a reset at a sample below 258 comes before the last of the 258 primitives of a line reset. -/
theorem resetStopsALineReset : Obligations.ResetStopsALineReset := by
  intro s k p rest hquiet hdrop hrst hhost hpair hk
  have hflow := resetLine_upToReset ⟨hquiet, ⟨p, rest, hdrop, hrst, hhost⟩, hpair⟩
  generalize hf : resetLine s = f at hflow
  cases hflow with
  | go _ hlate => exact absurd hlate (by rw [length_resetLineEvents]; omega)
  | @reset u _ hhistory hpins =>
    refine ⟨u.afterReset, by rw [exec, execLreset, hf, finish_stop], ?_, rfl, rfl, rfl, rfl, rfl, rfl, hhistory⟩
    rw [← hpins]
    rfl

/-! ## Host accesses while rst is 1 -/

/-- The reset value of every register of the window (10_state.md R36, R46): CFG holds VERBOSITY = 1 and IDLE_SEL = 1. -/
theorem readWord_afterReset (s : State) (offset : Nat) : s.afterReset.readWord offset = if offset = 0x10 then 0x12 else 0 := by
  have hreset : s.afterReset.readWord offset = State.reset.readWord offset := by
    unfold State.readWord
    split <;> rfl
  rw [hreset]
  unfold State.readWord
  split
  case h_13 => exact (if_neg ‹¬offset = 0x10›).symm
  all_goals decide

/-- Settles O10: the write is ignored, and the read is one of the reset state. -/
theorem accessesDuringReset : Obligations.AccessesDuringReset := by
  intro s p rest writeOffset readOffset b0 b1 b2 b3 henv hrst hhost hwa hw hra hr
  have hwrite : accessRefusal writeOffset [b0, b1, b2, b3].length = none := accessRefusal_of_aligned hwa hw
  have hstep : step s = bookkeeping id s := by simp [step, henv, hrst]
  rw [hstep, bookkeeping, tick_of_reset henv hrst, hhost]
  simp only [serveInReset, hostAccess, hwrite, accessRefusal_of_aligned hra hr, readWord_afterReset]
  exact ⟨_, rfl, rfl, rfl, rfl, rfl, rfl, rfl, rfl, rfl, rfl⟩

/-! ## The idle block -/

/-- Settles O11: the idle block's step is a bookkeeping step that changes nothing. -/
theorem idleBlockDoesNothing : Obligations.IdleBlockDoesNothing := by
  refine ⟨rfl, fun s hturn hpos => ?_⟩
  rw [step_of_blockTurn hturn, blockStep, hpos]
  exact bookkeeping_of_blockTurn hturn id

end Sys2Proof.Machine
end

section
/-! PROOFS. The directions of the pads in an attempt: the clock pad is Output throughout, the data pad Input exactly where it is sampled. -/

namespace Sys2Proof.Machine

/-! ## Runs of events on the pads -/

/-- The pads after a run of events, as far as `DirectionValid` follows them: their directions. -/
def padsAfter (pads : List Pad) : List Event → List Pad
  | [] => pads
  | .setDir p d :: es => padsAfter (pads.modify p.toNat fun pad => { pad with dir := d }) es
  | .wrLvl _ _ :: es => padsAfter pads es
  | .rdLvl _ _ :: es => padsAfter pads es
  | .sleep _ :: es => padsAfter pads es
  | .trace _ :: es => padsAfter pads es
  | .publish _ :: es => padsAfter pads es
  | .ended _ :: es => padsAfter pads es

theorem padsAfter_append (es fs : List Event) : ∀ pads, padsAfter pads (es ++ fs) = padsAfter (padsAfter pads es) fs := by
  induction es with
  | nil => exact fun _ => rfl
  | cons e es ih =>
    intro pads
    cases e <;> exact ih _

theorem directionValid_append (es fs : List Event) :
    ∀ pads, DirectionValid pads (es ++ fs) ↔ DirectionValid pads es ∧ DirectionValid (padsAfter pads es) fs := by
  induction es with
  | nil => simp [DirectionValid, padsAfter]
  | cons e es ih =>
    intro pads
    cases e <;> simp [DirectionValid, padsAfter, ih, and_assoc]

/-- Inside an attempt: the clock pad is Output, the data pad has this direction. -/
structure PairDirs (clk data : Pin) (d : Dir) (pads : List Pad) : Prop where
  clock : (pads[clk.toNat]?).map (·.dir) = some .output
  data : (pads[data.toNat]?).map (·.dir) = some d

/-- A run of events that is valid when the data pad has direction `d`, and leaves it with direction `d'`, the clock pad Output. -/
def Turns (clk data : Pin) (d d' : Dir) (events : List Event) : Prop :=
  ∀ pads, PairDirs clk data d pads → DirectionValid pads events ∧ PairDirs clk data d' (padsAfter pads events)

/-- A run of events that is valid inside an attempt whatever the direction of the data pad. -/
def ValidInAttempt (clk data : Pin) (events : List Event) : Prop := ∀ d, ∃ d', Turns clk data d d' events

section Runs

variable {clk data : Pin} {es fs : List Event} {d d' d'' : Dir}

theorem Turns.append (h : Turns clk data d d' es) (k : Turns clk data d' d'' fs) : Turns clk data d d'' (es ++ fs) := by
  intro pads hp
  obtain ⟨hes, hp'⟩ := h pads hp
  rw [directionValid_append, padsAfter_append]
  exact ⟨⟨hes, (k _ hp').1⟩, (k _ hp').2⟩

theorem Turns.nil : Turns clk data d d [] := fun _ hp => ⟨trivial, hp⟩

theorem ValidInAttempt.append (h : ValidInAttempt clk data es) (k : ValidInAttempt clk data fs) : ValidInAttempt clk data (es ++ fs) :=
  fun d => have ⟨d', h⟩ := h d; have ⟨d'', k⟩ := k d'; ⟨d'', h.append k⟩

theorem ValidInAttempt.nil : ValidInAttempt clk data [] := fun d => ⟨d, .nil⟩

theorem ValidInAttempt.of_turns (h : ∀ d, Turns clk data d d' es) : ValidInAttempt clk data es := fun d => ⟨d', h d⟩

end Runs

/-! ## The micro-operations -/

section MicroOps

variable {clk data : Pin}

theorem ValidInAttempt.trace {v : Verbosity} {kind : TraceKind} {n : BitVec 7} {bits : BitVec 64} :
    ValidInAttempt clk data (traceEvents v kind n bits) := by
  unfold traceEvents
  split
  · exact fun d => ⟨d, fun _ hp => ⟨trivial, hp⟩⟩
  · exact .nil

/-- A pulse writes the clock pad alone (40_link_driver.md R171). -/
theorem turns_pulse (d : Dir) : Turns clk data d d (pulseEvents clk) :=
  fun _ hp => ⟨⟨hp.clock, hp.clock, trivial⟩, hp⟩

theorem turns_pulses (d : Dir) (k : Nat) : Turns clk data d d (pulsesEvents clk k) := by
  induction k with
  | zero => exact .nil
  | succ k ih => exact (turns_pulse d).append ih

/-- A sample is of a data pad that is Input (40_link_driver.md R182). -/
theorem turns_readLoop (levels : List Level) : Turns clk data .input .input (readLoopEvents clk data levels) := by
  induction levels with
  | nil => exact .nil
  | cons l ls ih =>
    have hsample : Turns clk data .input .input [.rdLvl data l] := fun _ hp => ⟨⟨hp.data, trivial⟩, hp⟩
    exact (hsample.append (turns_pulse .input)).append ih

variable (hne : clk ≠ data)

include hne

theorem pairDirs_setDir {d d' : Dir} {pads : List Pad} (h : PairDirs clk data d pads) :
    PairDirs clk data d' (pads.modify data.toNat fun pad => { pad with dir := d' }) where
  clock := by
    rw [getElem?_modify_other _ _ _ _ fun h => hne (BitVec.eq_of_toNat_eq h)]
    exact h.clock
  data := by
    obtain ⟨pad, hpad, -⟩ := Option.map_eq_some_iff.1 h.data
    simp [hpad]

theorem turns_setDir (d d' : Dir) : Turns clk data d d' [.setDir data d'] := fun _ hp => ⟨trivial, pairDirs_setDir hne hp⟩

/-- A drive makes the data pad Output before it writes it (40_link_driver.md R173). -/
theorem turns_drive (b : Level) (d : Dir) : Turns clk data d .output (driveEvents data b) :=
  fun _ hp => have hp' := pairDirs_setDir hne hp; ⟨⟨hp'.data, trivial⟩, hp'⟩

theorem ValidInAttempt.writeLoop {v : BitVec 64} (k : Nat) : ∀ {i}, ValidInAttempt clk data (writeLoopEvents clk data v k i) := by
  induction k with
  | zero => exact .nil
  | succ k ih => exact .append (.of_turns fun d => (turns_drive hne _ d).append (turns_pulse .output)) ih

theorem ValidInAttempt.send {verb : Verbosity} {n : BitVec 7} {v : BitVec 64} :
    ValidInAttempt clk data (sendEvents clk data verb n v) :=
  (writeLoop hne n.toNat).append .trace

theorem ValidInAttempt.resetLine : ValidInAttempt clk data (resetLineEvents clk data) :=
  .of_turns fun d => (turns_drive hne _ d).append (turns_pulses .output _)

theorem ValidInAttempt.turn : ValidInAttempt clk data (turnEvents clk data) :=
  .of_turns fun d => (turns_setDir hne d .input).append (turns_pulse .input)

/-- RBITS releases the data pad before its samples and drives it after them (40_link_driver.md R182). -/
theorem ValidInAttempt.readBits {levels : List Level} : ValidInAttempt clk data (readBitsEvents clk data levels) :=
  .of_turns fun d => (turns_setDir hne d .input).append ((turns_readLoop levels).append (turns_drive hne .high .input))

/-! ## The stages of an attempt -/

theorem ValidInAttempt.switch {verb : Verbosity} {idleSel : Bool} : ValidInAttempt clk data (switchEvents clk data verb idleSel) :=
  ((send hne).append (resetLine hne)).append (send hne)

theorem ValidInAttempt.dormant {verb : Verbosity} : ValidInAttempt clk data (dormantEvents clk data verb) :=
  have hsend {n : BitVec 7} {v : BitVec 64} : ValidInAttempt clk data (sendEvents clk data verb n v) := send hne
  (((((((hsend.append hsend).append hsend).append hsend).append hsend).append hsend).append hsend).append (resetLine hne)).append hsend

theorem ValidInAttempt.idCode {verb : Verbosity} {levels : List Level} : ValidInAttempt clk data (idCodeEvents clk data verb levels) :=
  (((((send hne).append (turn hne)).append (readBits hne)).append .trace).append (turn hne)).append (send hne)

/-- The stages between ENTER and EXIT (41_protocol_sequencer.md R230). -/
theorem ValidInAttempt.stages {verb : Verbosity} {idleSel dormantWake : Bool} {levels : List Level} :
    ValidInAttempt clk data
      (resetLineEvents clk data ++ switchEvents clk data verb idleSel ++
        (bif dormantWake then dormantEvents clk data verb else []) ++ idCodeEvents clk data verb levels) := by
  refine (((resetLine hne).append (switch hne)).append ?_).append (idCode hne)
  cases dormantWake
  · exact .nil
  · exact dormant hne

/-- ENTER makes the clock pad Output, and leaves the data pad as it is (41_protocol_sequencer.md R212). -/
theorem pairDirs_enter {pads : List Pad} (hclk : clk.toNat < pads.length) (hdata : data.toNat < pads.length) :
    PairDirs clk data pads[data.toNat].dir (pads.modify clk.toNat fun pad => { pad with dir := .output }) where
  clock := by simp [hclk]
  data := by
    rw [getElem?_modify_other _ _ _ _ fun h => hne (BitVec.eq_of_toNat_eq h.symm), List.getElem?_eq_getElem hdata]
    rfl

end MicroOps

/-- Settles O46: ENTER drives the clock pad, the stages are valid inside an attempt, and EXIT sets directions alone. -/
theorem attemptRespectsDirections : Obligations.AttemptRespectsDirections := by
  intro pads clk data verb idleSel dormantWake levels hne hclk hdata
  have henter := pairDirs_enter hne hclk hdata
  obtain ⟨d, hstages⟩ := ValidInAttempt.stages (verb := verb) (idleSel := idleSel) (dormantWake := dormantWake) (levels := levels) hne
    pads[data.toNat].dir
  have hexit : ∀ pads, DirectionValid pads [.setDir data .input, .setDir clk .input] := fun _ => trivial
  have hattempt := (directionValid_append _ _ _).2 ⟨(hstages _ henter).1, hexit _⟩
  have hall : DirectionValid pads (.setDir clk .output :: .wrLvl clk .high :: _) := ⟨henter.clock, hattempt⟩
  simpa only [attemptEvents, List.cons_append, List.nil_append, List.append_assoc] using hall

end Sys2Proof.Machine
end
